-- ==== Sys2Proof/Word.lean ====
section
/-!
DEFINITION. The word types of makeid-l1 CORE: bytes, 16-bit registers, the 64-bit command word
(00_scope.md R11, 30_encoding.md R101).
-/

namespace Sys2Proof

/-- A byte, 8 bits (00_scope.md R11). -/
abbrev Byte := BitVec 8

/-- A 16-bit register or field. -/
abbrev Half := BitVec 16

/-- The 64-bit command word of the CMD and STAT ports (30_encoding.md R101). -/
abbrev CmdWord := BitVec 64

end Sys2Proof
end

