-- ==== Sys2Proof/Config.lean ====
section
/-!
DEFINITION. The configuration CFG (00_scope.md R8) and the free values: constants with no body that
stand for what the spec leaves unspecified. Nothing can be proved of a free value's content.
-/

namespace Sys2Proof

/-- The compressor `LZ` of 00_scope.md R8, 42_block_compressor.md R176 (log 9): the reference
instantiation REF-LZ; REF-LZ that runs out of scratch, and so fails, on inputs longer than `limit`
bytes (R173); or any other function that meets the contract of R175, named by a number
(`conformingLz` of Machine/BlockCompressor.lean). No value of this type names a compressor that breaks
the contract, so the constraint R8 puts on `LZ` needs no check. A claim about every `LZ` is a claim about
all of them. -/
inductive Codec where
  | refLz
  | refLzUpTo (limit : Nat)
  | custom (k : Nat)
deriving DecidableEq, Repr

/-- The memories whose contents the spec leaves unspecified at some point (10_state.md R44). -/
inductive Space where
  | pb
  | tb
  | cb
deriving DecidableEq, Repr

/-- The configuration `CFG`, one field for each open parameter of 00_scope.md R8
(92_eei_decisions.md, last paragraph). `BPC`, `BITMAP_SIZE` and `MAX_COMPRESSED_SIZE` are derived
from these in Machine/Params.lean, and the constraints of R8 and R9 are `Config.legal` there. -/
structure Config where
  /-- `W`, image width in pixels. -/
  w : Nat
  /-- `H`, image height in pixels. -/
  h : Nat
  /-- `CHUNK_W`, columns per column group. -/
  chunkW : Nat
  /-- `DEVICE_ID[0..7]`. -/
  deviceId : Vector Byte 8
  /-- `TYPE_DATA`, marker of a non-final frame. -/
  typeData : Byte
  /-- `TYPE_FINAL`, marker of the final frame. -/
  typeFinal : Byte
  /-- `END_MARKER[0..2]`. -/
  endMarker : Vector Byte 3
  /-- `FR_BIG_ENDIAN`: the frames-remaining field is big-endian. -/
  frBigEndian : Bool
  /-- `LZ`, the compressor. -/
  codec : Codec
  /-- `ACK_TIMEOUT_TICKS`. -/
  ackTimeoutTicks : Nat
  /-- `PACING_TICKS`. -/
  pacingTicks : Nat
  /-- `ACK_MAX`, bytes of acknowledgement payload kept. -/
  ackMax : Nat
deriving DecidableEq, Repr

/-- The defaults of 00_scope.md R8 (the spec marks them as artificial). -/
def Config.defaults : Config where
  w := 384
  h := 96
  chunkW := 85
  deviceId := #v[0xD0, 0xD1, 0xD2, 0xD3, 0xD4, 0xD5, 0xD6, 0xD7]
  typeData := 0x00
  typeFinal := 0x01
  endMarker := #v[0xE0, 0xE1, 0xE2]
  frBigEndian := false
  codec := .refLz
  ackTimeoutTicks := 2000
  pacingTicks := 10
  ackMax := 32

/-- FREE VALUE (log 7). The byte that address `addr` of a memory shows before anything has written it,
`era` counting how often the memory's contents have become unspecified (10_state.md R44: "each byte
holds some value the model must not assume (a draw at reset)"). -/
opaque Config.unwrittenByte (space : Space) (era addr : Nat) : Byte

/-- FREE VALUE (log 8). `CB_LEN` after a failed `BC.COMPRESS` (93_implementation_defined.md I14). -/
opaque Config.failedLength (era : Nat) : Nat

/-- FREE VALUE (log 7). The value that entry `entry` of `WM` shows before anything has written it, before
it is cut to the width of an entry (10_state.md R44, 20_memory.md R66). -/
opaque Config.unwrittenEntry (era entry : Nat) : Nat

/-- FREE VALUE (log 9). What compressor `k` proposes for an input: `Ok` (some) or `Fail` (none)
(42_block_compressor.md R175 a, R176). -/
opaque Config.customLz (k : Nat) (input : List Byte) : Option (List Byte)

/-- FREE VALUE (log 9). The decoder of compressor `k`, none for a malformed stream
(42_block_compressor.md R175 d). -/
opaque Config.customUnlz (k : Nat) (stream : List Byte) : Option (List Byte)

/-- FREE VALUE (log 9). How many work-memory entries such a compressor has (10_state.md R41: "fixed by
the compressor variant"). -/
opaque Config.customEntries (k : Nat) : Nat

/-- FREE VALUE (log 9). How many bits an entry of its work memory has (20_memory.md R66: "entries of the
width the compressor variant needs"). -/
opaque Config.customEntryBits (k : Nat) : Nat

/-- FREE VALUE (log 9). What such a compressor leaves in an entry of its work memory, before it is cut to
the width of an entry. -/
opaque Config.customScratch (k : Nat) (input : List Byte) (entry : Nat) : Nat

/-- FREE VALUE (log 23). The value of the length field of a frame around a payload of `n` bytes, when
`n + 17` does not fit the field's 16 bits, which 43_frame_encoder.md R204 excludes. -/
opaque Config.unstatedLength (n : Nat) : Half

/-- FREE VALUE (log 10). What `FE.SPLIT` returns outside its operand contract, `mtu ≥ 1` and
`0 ≤ k < nslices` (43_frame_encoder.md R208). -/
opaque Config.unstatedSlice (frame : List Byte) (mtu k : Nat) : List Byte

/-- FREE VALUE (log 10). How many slices `FE.SPLIT` counts for a unit size of 0, which R208 excludes. -/
opaque Config.unstatedCount (frame : List Byte) : Nat

end Sys2Proof
end

