-- ==== Sys2Proof/Syntax.lean ====
section
/-!
DEFINITION. The operation set (30_encoding.md R100): one constructor per row of opcode_table.json,
with the operands the row's rule gives it; and the packets that carry an operation to the machine.
-/

namespace Sys2Proof

/-- Every operation of the hardware (30_encoding.md R100). -/
inductive Instr where
  /-- `PB.SET x, y, v` (40_pixelbuffer.md R132). -/
  | pbSet (x y : Half) (v : Bool)
  /-- `PB.CLRPX x, y` (R133), a pseudo-instruction. -/
  | pbClrpx (x y : Half)
  /-- `PB.GET x, y` (R134). -/
  | pbGet (x y : Half)
  /-- `PB.FILL v` (R135). -/
  | pbFill (v : Bool)
  /-- `PB.CLEAR` (R136), a pseudo-instruction. -/
  | pbClear
  /-- `TC.START` (44_transmission_controller.md R231). -/
  | tcStart
  /-- `TC.ABORT` (R237). -/
  | tcAbort
  /-- `TC.RELEASE` (R239). -/
  | tcRelease
  /-- `ST.ISCONN` (R240). -/
  | stIsconn
  /-- `ST.ISPRINT` (R241). -/
  | stIsprint
  /-- `ST.RD a` (R242). -/
  | stRd (a : Byte)
  /-- `FT.REORDER` (41_format_transformer.md R151). -/
  | ftReorder
  /-- `FT.SWAP` (R152). -/
  | ftSwap
  /-- `FT.INVERT` (R153). -/
  | ftInvert
  /-- `FT.RUN` (R154). -/
  | ftRun
  /-- `BC.COMPRESS off, n` (42_block_compressor.md R170). -/
  | bcCompress (off n : Half)
  /-- `FE.GROUPS` (43_frame_encoder.md R201). -/
  | feGroups
  /-- `FE.BUILD fr` (R204). -/
  | feBuild (fr : Half)
  /-- `FE.CSUM body` (R206). -/
  | feCsum (body : List Byte)
  /-- `FE.SPLIT frame, mtu, k` (R208). -/
  | feSplit (frame : List Byte) (mtu k : Half)
  /-- `FE.JOB` (R210). -/
  | feJob
  /-- `CT.PREP` (44_transmission_controller.md R233). -/
  | ctPrep
  /-- `CT.WRITE` (R235). -/
  | ctWrite
  /-- `CT.WAIT` (R236). -/
  | ctWait
  /-- `EV.NOTIFY payload` (R238). -/
  | evNotify (payload : List Byte)
  /-- `EV.TICK` (R243). -/
  | evTick
  /-- `EV.RESET` (70_reset_and_hazards.md R320). -/
  | evReset
deriving DecidableEq, Repr

/-- What carries an operation to the machine: a 64-bit word on the CMD or the STAT port
(30_encoding.md R91, R92, R101), or a step of the CORE's own agents named by its 8-bit trace label
(R105). DESIGN CHOICE (log 6): the spec gives a label no operand bits, so the operands of a labelled
operation travel beside the label, two 16-bit words in `args` (the first in bits 15:0) and a byte
sequence in `data`. -/
inductive Packet where
  | cmd (word : CmdWord)
  | stat (word : CmdWord)
  | core (label : Byte) (args : BitVec 32) (data : List Byte)
deriving DecidableEq, Repr

end Sys2Proof
end

