-- ==== Sys2Proof/WellFormed.lean ====
section
/-!
DEFINITION. Which operations are well formed: the operand contracts that the operand types do not
already carry. Fields of the command word are bit vectors of the field's width (30_encoding.md R102),
so only micro-operations have a contract left to check.
-/

namespace Sys2Proof

/-- The operand contract of `BC.COMPRESS off, n`, `off + n ≤ BITMAP_SIZE` (42_block_compressor.md
R170), as far as it does not depend on the configuration: `BITMAP_SIZE ≤ 65535` (00_scope.md R8). -/
def rangeFits (off n : Half) : Bool := decide (off.toNat + n.toNat ≤ 65535)

/-- The operand contract of `FE.SPLIT frame, mtu, k` (43_frame_encoder.md R208): `mtu ≥ 1` and slice
`k` exists, that is, it starts inside the frame. -/
def sliceExists (frame : List Byte) (mtu k : Half) : Bool :=
  decide (1 ≤ mtu.toNat) && decide (k.toNat * mtu.toNat < frame.length)

/-- Is every operand within the contract of its rule? -/
def Instr.wellFormed : Instr → Bool
  | .pbSet _ _ _ => true
  | .pbClrpx _ _ => true
  | .pbGet _ _ => true
  | .pbFill _ => true
  | .pbClear => true
  | .tcStart => true
  | .tcAbort => true
  | .tcRelease => true
  | .stIsconn => true
  | .stIsprint => true
  | .stRd _ => true
  | .ftReorder => true
  | .ftSwap => true
  | .ftInvert => true
  | .ftRun => true
  | .bcCompress off n => rangeFits off n
  | .feGroups => true
  | .feBuild _ => true
  | .feCsum _ => true
  | .feSplit frame mtu k => sliceExists frame mtu k
  | .feJob => true
  | .ctPrep => true
  | .ctWrite => true
  | .ctWait => true
  | .evNotify _ => true
  | .evTick => true
  | .evReset => true

end Sys2Proof
end

