-- ==== Sys2Proof/Decode.lean ====
section
/-!
DEFINITION. Decoding of packets, total, rejecting by name (30_encoding.md R101 to R105), and after it
the encoder, written from the same rules.
-/

namespace Sys2Proof

/-- Why a packet names no operation. -/
inductive DecodeReject where
  /-- the opcode is assigned to no command (R104) -/
  | unassignedOpcode
  /-- a STAT opcode on the CMD port, or a CMD opcode on the STAT port (R104) -/
  | otherPort
  /-- a reserved bit, or a bit of a field the opcode does not use, is not 0 (R101, R104) -/
  | nonzeroUnused
  /-- the label is none of R105, or operands stand beside a label that takes none (log 17) -/
  | unassignedLabel
deriving DecidableEq, Repr

/-! ## The command word (30_encoding.md R101) -/

/-- The fields of the command word, the two reserved ones included. -/
structure CmdFields where
  opc : Byte
  reservedHi : BitVec 7
  v : Bool
  reservedLo : Byte
  a : Byte
  x : Half
  y : Half
deriving DecidableEq, Repr

/-- Cut a command word into its fields: `OPC` 63:56, reserved 55:49, `V` 48, reserved 47:40, `A` 39:32,
`X` 31:16, `Y` 15:0 (R101). -/
def cmdFields (w : CmdWord) : CmdFields where
  opc := w.extractLsb' 56 8
  reservedHi := w.extractLsb' 49 7
  v := w.getLsbD 48
  reservedLo := w.extractLsb' 40 8
  a := w.extractLsb' 32 8
  x := w.extractLsb' 16 16
  y := w.extractLsb' 0 16

/-- Join fields into a command word (R101). -/
def cmdWordOf (f : CmdFields) : CmdWord :=
  f.opc ++ f.reservedHi ++ BitVec.ofBool f.v ++ f.reservedLo ++ f.a ++ f.x ++ f.y

/-- Are the reserved bits 0? -/
def CmdFields.reservedZero (f : CmdFields) : Bool := f.reservedHi == 0 && f.reservedLo == 0

/-! ## The opcode numbers (30_encoding.md R103, R105) -/

def opcPbSet : Byte := 0x10
def opcPbGet : Byte := 0x11
def opcPbFill : Byte := 0x12
def opcTcStart : Byte := 0x20
def opcTcAbort : Byte := 0x21
def opcTcRelease : Byte := 0x22
def opcStIsconn : Byte := 0x30
def opcStIsprint : Byte := 0x31
def opcStRd : Byte := 0x32

def labelFtReorder : Byte := 0x40
def labelFtSwap : Byte := 0x41
def labelFtInvert : Byte := 0x42
def labelFtRun : Byte := 0x43
def labelBcCompress : Byte := 0x48
def labelFeGroups : Byte := 0x50
def labelFeBuild : Byte := 0x51
def labelFeCsum : Byte := 0x52
def labelFeSplit : Byte := 0x53
def labelFeJob : Byte := 0x54
def labelCtPrep : Byte := 0x60
def labelCtWrite : Byte := 0x61
def labelCtWait : Byte := 0x62
def labelEvNotify : Byte := 0x70
def labelEvTick : Byte := 0x71
def labelEvReset : Byte := 0x7F

/-- The labels of the micro-operations, which only `CT.PREP` issues (R105, 20_memory.md R74). -/
def isMicroLabel (label : Byte) : Bool :=
  label == labelFtReorder || label == labelFtSwap || label == labelFtInvert || label == labelFtRun ||
  label == labelBcCompress || label == labelFeGroups || label == labelFeBuild ||
  label == labelFeCsum || label == labelFeSplit || label == labelFeJob

/-- Is the packet one of a micro-operation? -/
def Packet.isMicro : Packet → Bool
  | .cmd _ => false
  | .stat _ => false
  | .core label _ _ => isMicroLabel label

/-- The opcodes of the CMD port (R103). -/
def isCmdOpcode (opc : Byte) : Bool :=
  opc == opcPbSet || opc == opcPbGet || opc == opcPbFill ||
  opc == opcTcStart || opc == opcTcAbort || opc == opcTcRelease

/-- The opcodes of the STAT port (R103). -/
def isStatOpcode (opc : Byte) : Bool :=
  opc == opcStIsconn || opc == opcStIsprint || opc == opcStRd

/-! ## The decoder -/

/-- `i` if the condition holds, else the packet has a nonzero unused bit. -/
def acceptIf (unusedZero : Bool) (i : Instr) : Except DecodeReject Instr :=
  if unusedZero then .ok i else .error .nonzeroUnused

/-- A word of the CMD port, its fields cut out: the CMD rows of R103. The words of `PB.CLRPX` and
`PB.CLEAR` are those of `PB.SET` and `PB.FILL` with `V = 0` and decode to these (R108, log 15). -/
def decodeCmdFields (f : CmdFields) : Except DecodeReject Instr :=
  if f.opc = opcPbSet then acceptIf (f.reservedZero && f.a == 0) (.pbSet f.x f.y f.v)
  else if f.opc = opcPbGet then acceptIf (f.reservedZero && !f.v && f.a == 0) (.pbGet f.x f.y)
  else if f.opc = opcPbFill then
    acceptIf (f.reservedZero && f.a == 0 && f.x == 0 && f.y == 0) (.pbFill f.v)
  else if f.opc = opcTcStart then
    acceptIf (f.reservedZero && !f.v && f.a == 0 && f.x == 0 && f.y == 0) .tcStart
  else if f.opc = opcTcAbort then
    acceptIf (f.reservedZero && !f.v && f.a == 0 && f.x == 0 && f.y == 0) .tcAbort
  else if f.opc = opcTcRelease then
    acceptIf (f.reservedZero && !f.v && f.a == 0 && f.x == 0 && f.y == 0) .tcRelease
  else if isStatOpcode f.opc then .error .otherPort
  else .error .unassignedOpcode

/-- A word of the STAT port, its fields cut out: the STAT rows of R103. -/
def decodeStatFields (f : CmdFields) : Except DecodeReject Instr :=
  if f.opc = opcStIsconn then
    acceptIf (f.reservedZero && !f.v && f.a == 0 && f.x == 0 && f.y == 0) .stIsconn
  else if f.opc = opcStIsprint then
    acceptIf (f.reservedZero && !f.v && f.a == 0 && f.x == 0 && f.y == 0) .stIsprint
  else if f.opc = opcStRd then
    acceptIf (f.reservedZero && !f.v && f.x == 0 && f.y == 0) (.stRd f.a)
  else if isCmdOpcode f.opc then .error .otherPort
  else .error .unassignedOpcode

/-- A word presented on the CMD port (R91, R104). -/
def decodeCmd (w : CmdWord) : Except DecodeReject Instr := decodeCmdFields (cmdFields w)

/-- A word presented on the STAT port (R92, R104). -/
def decodeStat (w : CmdWord) : Except DecodeReject Instr := decodeStatFields (cmdFields w)

/-- `i` if no operand stands beside the label. -/
def acceptBare (args : BitVec 32) (data : List Byte) (i : Instr) : Except DecodeReject Instr :=
  if args = 0 ∧ data = [] then .ok i else .error .unassignedLabel

/-- The first operand word beside a label (log 6). -/
def argLo (args : BitVec 32) : Half := args.extractLsb' 0 16

/-- The second operand word beside a label (log 6). -/
def argHi (args : BitVec 32) : Half := args.extractLsb' 16 16

/-- A step of the CORE's own agents, by its label (R105) and its operands (log 6). -/
def decodeCore (label : Byte) (args : BitVec 32) (data : List Byte) : Except DecodeReject Instr :=
  if label = labelFtReorder then acceptBare args data .ftReorder
  else if label = labelFtSwap then acceptBare args data .ftSwap
  else if label = labelFtInvert then acceptBare args data .ftInvert
  else if label = labelFtRun then acceptBare args data .ftRun
  else if label = labelBcCompress then
    if data = [] then .ok (.bcCompress (argLo args) (argHi args)) else .error .unassignedLabel
  else if label = labelFeGroups then acceptBare args data .feGroups
  else if label = labelFeBuild then
    if argHi args = 0 ∧ data = [] then .ok (.feBuild (argLo args)) else .error .unassignedLabel
  else if label = labelFeCsum then
    if args = 0 then .ok (.feCsum data) else .error .unassignedLabel
  else if label = labelFeSplit then .ok (.feSplit data (argLo args) (argHi args))
  else if label = labelFeJob then acceptBare args data .feJob
  else if label = labelCtPrep then acceptBare args data .ctPrep
  else if label = labelCtWrite then acceptBare args data .ctWrite
  else if label = labelCtWait then acceptBare args data .ctWait
  else if label = labelEvNotify then
    if args = 0 then .ok (.evNotify data) else .error .unassignedLabel
  else if label = labelEvTick then acceptBare args data .evTick
  else if label = labelEvReset then acceptBare args data .evReset
  else .error .unassignedLabel

/-- Decode a packet: total, and rejecting by name. -/
def decode : Packet → Except DecodeReject Instr
  | .cmd w => decodeCmd w
  | .stat w => decodeStat w
  | .core label args data => decodeCore label args data

/-! ## The encoder -/

/-- A command word that holds an opcode and nothing else. -/
def bareWord (opc : Byte) : CmdWord := cmdWordOf ⟨opc, 0, false, 0, 0, 0, 0⟩

/-- The word of `PB.SET` (R101, R103). -/
def pbSetWord (x y : Half) (v : Bool) : CmdWord := cmdWordOf ⟨opcPbSet, 0, v, 0, 0, x, y⟩

/-- The word of `PB.GET` (R101, R103). -/
def pbGetWord (x y : Half) : CmdWord := cmdWordOf ⟨opcPbGet, 0, false, 0, 0, x, y⟩

/-- The word of `PB.FILL` (R101, R103). -/
def pbFillWord (v : Bool) : CmdWord := cmdWordOf ⟨opcPbFill, 0, v, 0, 0, 0, 0⟩

/-- The word of `ST.RD` (R101, R103). -/
def stRdWord (a : Byte) : CmdWord := cmdWordOf ⟨opcStRd, 0, false, 0, a, 0, 0⟩

/-- A label with no operand. -/
def bareLabel (label : Byte) : Packet := .core label 0 []

/-- The packet of an operation: the command word of a host command (R103), the words of the
pseudo-instructions as R108 gives them, and the label of any other operation (R105) with its operands
beside it (log 6). -/
def encode : Instr → Packet
  | .pbSet x y v => .cmd (pbSetWord x y v)
  | .pbClrpx x y => .cmd (pbSetWord x y false)
  | .pbGet x y => .cmd (pbGetWord x y)
  | .pbFill v => .cmd (pbFillWord v)
  | .pbClear => .cmd (pbFillWord false)
  | .tcStart => .cmd (bareWord opcTcStart)
  | .tcAbort => .cmd (bareWord opcTcAbort)
  | .tcRelease => .cmd (bareWord opcTcRelease)
  | .stIsconn => .stat (bareWord opcStIsconn)
  | .stIsprint => .stat (bareWord opcStIsprint)
  | .stRd a => .stat (stRdWord a)
  | .ftReorder => bareLabel labelFtReorder
  | .ftSwap => bareLabel labelFtSwap
  | .ftInvert => bareLabel labelFtInvert
  | .ftRun => bareLabel labelFtRun
  | .bcCompress off n => .core labelBcCompress (n ++ off) []
  | .feGroups => bareLabel labelFeGroups
  | .feBuild fr => .core labelFeBuild ((0 : Half) ++ fr) []
  | .feCsum body => .core labelFeCsum 0 body
  | .feSplit frame mtu k => .core labelFeSplit (k ++ mtu) frame
  | .feJob => bareLabel labelFeJob
  | .ctPrep => bareLabel labelCtPrep
  | .ctWrite => bareLabel labelCtWrite
  | .ctWait => bareLabel labelCtWait
  | .evNotify payload => .core labelEvNotify 0 payload
  | .evTick => bareLabel labelEvTick
  | .evReset => bareLabel labelEvReset

/-- The core operation whose words an operation has: `PB.CLRPX x, y` is `PB.SET x, y, 0` and `PB.CLEAR`
is `PB.FILL 0` (R108); every other operation is its own. -/
def Instr.canonical : Instr → Instr
  | .pbClrpx x y => .pbSet x y false
  | .pbClear => .pbFill false
  | i => i

/-! ## The host's numbering of the opcode table -/

/-- The packet that `nbits` bits numbered as opcode_table.json numbers them stand for: 64 bits are a
command word, presented on the STAT port if its opcode is a STAT opcode and on the CMD port otherwise;
8 bits are a label with no operand beside it (R105). -/
def tablePacket (nbits w : Nat) : Option Packet :=
  let word := BitVec.ofNat 64 w
  if nbits = 64 then
    some (if isStatOpcode (cmdFields word).opc then .stat word else .cmd word)
  else if nbits = 8 then some (bareLabel (BitVec.ofNat 8 w))
  else none

/-- The instruction the decoder reads from a table word. -/
def decodeTableWord (nbits w : Nat) : Option Instr :=
  match tablePacket nbits w with
  | some p => (decode p).toOption
  | none => none

end Sys2Proof
end

