-- ==== Sys2Proof/Machine/State.lean ====
section
/-!
DEFINITION. The state of the machine as plain data (10_state.md), the reasons it can stop, and the
state after reset (R44).
-/

namespace Sys2Proof.Machine

/-- `STATE`, the PrintJob's lifecycle state (10_state.md R26). Values 6 and 7 "are never written by any
rule and a model need not represent them" (log 18). -/
inductive Phase where
  | idle
  | preparing
  | sending
  | awaitingAck
  | completed
  | failed
deriving DecidableEq, Repr

/-- The response and cause codes (60_exceptions.md R281). Codes 11 to 15 are never produced and not
represented (93_implementation_defined.md I12, log 18). -/
inductive Code where
  | ok
  | allocationFailure
  | compressionFailure
  | noTransport
  | ackTimeout
  | jobInProgress
  | writeFailure
  | emptyFrameList
  | aborted
  | illegalCommand
  | noEffect
deriving DecidableEq, Repr

/-- A byte memory (10_state.md R41): the bytes written since its contents last became unspecified,
addresses strictly rising, and `era`, which draw of unspecified contents the other bytes show
(R44, log 7). An address that is not listed holds no value of the model's choosing: reading it gives
the free value `Config.unwrittenByte`. -/
structure Memory where
  era : Nat
  cells : List Host.Cell
deriving DecidableEq, Repr

/-- The work memory `WM` (20_memory.md R66): the entries written since its contents last became
unspecified, as index and value, indices strictly rising; and `era` as in `Memory`. The width of an entry
is the compressor variant's (`Codec.entryBits`). Reading an entry that is not listed gives the free value
`Config.unwrittenEntry` (10_state.md R44, log 7). -/
structure WorkMemory where
  era : Nat
  cells : List (Nat × Nat)
deriving DecidableEq, Repr

/-- A logical frame as a byte sequence (30_encoding.md R110). -/
abbrev Frame := List Byte

/-- A column group (43_frame_encoder.md R201). -/
structure Group where
  col0 : Nat
  width : Nat
  fr : Nat
deriving DecidableEq, Repr

/-- What `FE.JOB` returns (43_frame_encoder.md R210): `Ok(list)`, `Fail` or `Empty`. -/
inductive JobResult where
  | ok (frames : List Frame)
  | fail
  | empty
deriving DecidableEq, Repr

/-- What a micro-operation taken as a step of its own returned (log 5). -/
inductive UopResult where
  | none
  | compressed (ok : Bool)
  | groups (list : List Group)
  | frame (bytes : Frame)
  | checksum (value : Byte)
  | slice (bytes : List Byte) (count : Nat)
  | job (result : JobResult)
deriving DecidableEq, Repr

/-- One transaction of the TX port (30_encoding.md R93): the slice presented and the transport's
answer. -/
structure TxWrite where
  bytes : List Byte
  ok : Bool
deriving DecidableEq, Repr

/-- The environment inputs of a step (00_scope.md R10; 30_encoding.md R93, R95). -/
structure Env where
  /-- input `LINK_READY` -/
  linkReady : Bool
  /-- input `MTU`, 0 meaning "not known" -/
  mtu : Half
  /-- input `ALLOC_OK` -/
  allocOk : Bool
  /-- the transport's answer to a write of this step -/
  txOk : Bool
deriving DecidableEq, Repr

/-- What a turn of the schedule offers: a packet, or the CMD port's turn to take the oldest command
that waits (70_reset_and_hazards.md R333, log 4). -/
inductive Offer where
  | packet (p : Packet)
  | waiting
deriving DecidableEq, Repr

/-- One turn of the schedule: the environment inputs in force and what is offered (log 1, log 2). -/
structure Turn where
  env : Env
  offer : Offer
deriving DecidableEq, Repr

/-- The state of one CORE: the registers and memories of 10_state.md, then the model's own fields
(ports and environment; logs 1, 2, 4, 5, 16). -/
structure State where
  /-- `CFG` (00_scope.md R8; hardwired at STAT 0x20 to 0x2F, R39); no step changes it -/
  cfg : Config
  /-- `STATE` (R26) -/
  phase : Phase
  /-- `CAUSE` (R28) -/
  cause : Code
  /-- `JOB_ID` (R27) -/
  jobId : Half
  /-- `NFRAMES` (R29) -/
  nframes : Half
  /-- `CUR` (R30) -/
  cur : Half
  /-- `SUB` (R31) -/
  sub : Half
  /-- `FRAMES` (R41) -/
  frames : List Frame
  /-- `ACK_FLAG` (R32) -/
  ackFlag : Bool
  /-- `LAST_ACK`, all `ACK_MAX` bytes (R33) -/
  lastAck : List Byte
  /-- `LAST_ACK_LEN` (R33) -/
  lastAckLen : BitVec 6
  /-- `ACK_TIMER` (R34) -/
  ackTimer : Half
  /-- `PACE_TIMER` (R35) -/
  paceTimer : Half
  /-- `MTU_L` (R36) -/
  mtuL : Half
  /-- `RESP` (R24) -/
  resp : Code
  /-- `RESULT` (R23) -/
  result : Bool
  /-- `PB` (R41) -/
  pb : Memory
  /-- `TB` (R41) -/
  tb : Memory
  /-- `CB` (R41) -/
  cb : Memory
  /-- `CB_LEN` (R41); no width is stated (log 19) -/
  cbLen : Nat
  /-- `WM` (R41, R66) -/
  wm : WorkMemory
  /-- the model's own: the 16 bits of data the STAT port answered last (30_encoding.md R90, log 16) -/
  statData : Half
  /-- the model's own: the transactions of the TX port so far, oldest first (R93, log 16) -/
  tx : List TxWrite
  /-- the model's own: the environment inputs of the step being taken (R10, log 2) -/
  env : Env
  /-- the model's own: the turns still to come (R13, log 1) -/
  schedule : List Turn
  /-- the model's own: CMD words that wait for the port, oldest first (R91, R333, log 4) -/
  cmdHeld : List CmdWord
  /-- the model's own: what the last micro-operation taken as a step returned (log 5) -/
  uop : UopResult
  /-- the model's own: the micro-operations may be taken as steps of their own, for testing one unit
  (70_reset_and_hazards.md R332). No step changes it and it is false at reset, so in the hardware's own
  runs only `CT.PREP` issues them (30_encoding.md R105, 20_memory.md R74; log 5) -/
  unitAccess : Bool
deriving DecidableEq, Repr

/-- Why the machine stops with a fault. Each is an access to something the spec says does not exist. -/
inductive Fault where
  /-- `BC.COMPRESS` was given a byte range that leaves `TB` (42_block_compressor.md R170). Raised by
  `execBcCompress`; safe (log 11). -/
  | rangeOutsideTb
  /-- `CT.WRITE` found no frame at `CUR` (10_state.md R43 d rules this out in every reachable state).
  Raised by `execCtWrite`; safe (log 12). -/
  | noSuchFrame
  /-- `CT.WRITE` found no slice `SUB` of its frame, or `MTU_L = 0` (R43 c, d rule this out in every
  reachable state). Raised by `execCtWrite`; safe (log 12). -/
  | noSuchSlice
deriving DecidableEq, Repr

/-- Why the machine refuses. -/
inductive Refusal where
  /-- The instruction has no meaning yet. Raised by an arm of `exec`; safe. -/
  | notModelled (mnemonic : String)
  /-- The configuration breaks a constraint of 00_scope.md R8 or R9: "the spec gives it no meaning".
  Raised by `step`; safe (log 13). -/
  | illegalConfig
  /-- A step of the CORE's own agents with a label that 30_encoding.md R105 does not give. Raised by
  `step`; safe (log 17). -/
  | unassignedLabel
deriving DecidableEq, Repr

/-- The environment inputs that State.reset shows before any turn (log 2). -/
def Env.quiet : Env := ⟨false, 0, false, false⟩

/-- The machine right after reset (10_state.md R44), with the default configuration (log 14) and
nothing offered yet (log 1). -/
def State.reset : State where
  cfg := Config.defaults
  phase := .idle
  cause := .ok
  jobId := 0
  nframes := 0
  cur := 0
  sub := 0
  frames := []
  ackFlag := false
  lastAck := List.replicate Config.defaults.ackMax 0
  lastAckLen := 0
  ackTimer := 0
  paceTimer := 0
  mtuL := 0
  resp := .ok
  result := false
  pb := ⟨0, []⟩
  tb := ⟨0, []⟩
  cb := ⟨0, []⟩
  cbLen := 0
  wm := ⟨0, []⟩
  statData := 0
  tx := []
  env := Env.quiet
  schedule := []
  cmdHeld := []
  uop := .none
  unitAccess := false

end Sys2Proof.Machine
end

