-- ==== Sys2Proof/Machine/Flags.lean ====
section
/-!
DEFINITION. The flags: the one stored flag is `ACK_FLAG` (10_state.md R32), and `FLAGS` is a view
(R37). Codes of the enumerated registers as the STAT port shows them.
-/

namespace Sys2Proof.Machine

/-- The 3-bit code of `STATE` (10_state.md R26). -/
def Phase.bits : Phase → BitVec 3
  | .idle => 0
  | .preparing => 1
  | .sending => 2
  | .awaitingAck => 3
  | .completed => 4
  | .failed => 5

/-- The 4-bit code of `RESP` and `CAUSE` (60_exceptions.md R281). -/
def Code.bits : Code → BitVec 4
  | .ok => 0
  | .allocationFailure => 1
  | .compressionFailure => 2
  | .noTransport => 3
  | .ackTimeout => 4
  | .jobInProgress => 5
  | .writeFailure => 6
  | .emptyFrameList => 7
  | .aborted => 8
  | .illegalCommand => 9
  | .noEffect => 10

/-- `PRINTING`: `STATE ∈ {Preparing, Sending, AwaitingAck}` (R37 bit 2, R241). -/
def Phase.printing : Phase → Bool
  | .idle => false
  | .preparing => true
  | .sending => true
  | .awaitingAck => true
  | .completed => false
  | .failed => false

/-- `CMD_BUSY`: `STATE = Preparing` (R37 bit 3, 44_transmission_controller.md R232). -/
def State.cmdBusy (s : State) : Bool := decide (s.phase = .preparing)

/-- The `FLAGS` view at STAT address 0x06 (R37): bit 0 `ACK_FLAG`, bit 1 the live `LINK_READY`, bit 2
`PRINTING`, bit 3 `CMD_BUSY`, bits 15:4 zero. -/
def State.flags (s : State) : Half :=
  (0 : BitVec 12) ++ BitVec.ofBool s.cmdBusy ++ BitVec.ofBool s.phase.printing ++
    BitVec.ofBool s.env.linkReady ++ BitVec.ofBool s.ackFlag

end Sys2Proof.Machine
end

