-- ==== Sys2Proof/Machine/Params.lean ====
section
/-!
DEFINITION. The derived parameters and the constraints of the configuration (00_scope.md R8, R9).
-/

namespace Sys2Proof

/-- `ceil(a / b)` (00_scope.md R11). -/
def ceilDiv (a b : Nat) : Nat := (a + b - 1) / b

/-- `BPC` = `BYTES_PER_COLUMN` = H / 8 (R8). -/
def Config.bpc (c : Config) : Nat := c.h / 8

/-- `BITMAP_SIZE` = W·H/8 (R8). -/
def Config.bitmapSize (c : Config) : Nat := c.w * c.h / 8

/-- `MAX_COMPRESSED_SIZE(n)` = n + floor(n/16) + 64 + 3 (R8, 42_block_compressor.md R172). -/
def maxCompressedSize (n : Nat) : Nat := n + n / 16 + 64 + 3

/-- Bytes in the largest column group, `min(W, CHUNK_W)·BPC` (R9 a). -/
def Config.largestGroup (c : Config) : Nat := min c.w c.chunkW * c.bpc

/-- Bytes in `CB`, `MAX_COMPRESSED_SIZE(min(W, CHUNK_W)·BPC)` (10_state.md R41). -/
def Config.cbSize (c : Config) : Nat := maxCompressedSize c.largestGroup

/-- Entries of REF-LZ's work memory (42_block_compressor.md R182). -/
def refLzEntries : Nat := 4096

/-- How many entries `WM` has (10_state.md R41: "fixed by the compressor variant"). -/
def Codec.entries : Codec → Nat
  | .refLz => refLzEntries
  | .refLzUpTo _ => refLzEntries
  | .custom k => Config.customEntries k

/-- How many bits an entry of `WM` has (20_memory.md R66). -/
def Codec.entryBits : Codec → Nat
  | .refLz => 16
  | .refLzUpTo _ => 16
  | .custom k => Config.customEntryBits k

/-- Does the configuration satisfy every constraint of R8 and R9? The sizes of `DEVICE_ID` and
`END_MARKER` are in their types, `BPC` is even because `H mod 16 = 0`, and every `Codec` meets the
contract of 42_block_compressor.md R171 to R175 by construction (log 9). -/
def Config.legal (c : Config) : Bool :=
  decide (1 ≤ c.w ∧ c.w ≤ 32767) &&
  decide (16 ≤ c.h ∧ c.h ≤ 32767 ∧ c.h % 16 = 0) &&
  decide (c.bitmapSize ≤ 65535) &&
  decide (1 ≤ c.chunkW ∧ c.chunkW ≤ 65535) &&
  decide (c.typeData ≠ c.typeFinal) &&
  decide (1 ≤ c.ackTimeoutTicks ∧ c.ackTimeoutTicks ≤ 65535) &&
  decide (c.pacingTicks ≤ 65535) &&
  decide (1 ≤ c.ackMax ∧ c.ackMax ≤ 32) &&
  decide (c.cbSize + 20 ≤ 65535)

end Sys2Proof
end

