-- ==== Sys2Proof/Machine/Ops.lean ====
section
/-!
DEFINITION. The named operations every meaning is built from: byte order, memories, responses, the
failure entry (60_exceptions.md R290) and the way back from it, the CMD port's hold.
-/

namespace Sys2Proof.Machine

/-! ## Byte order (00_scope.md R11, 20_memory.md R62) -/

/-- `LE16(v)` of a 16-bit value: the bytes `v mod 256`, `v div 256`. A field whose value may not fit 16 bits
gives it another value first (`lengthValue`, log 23). -/
def le16 (v : Nat) : List Byte := [BitVec.ofNat 8 (v % 256), BitVec.ofNat 8 (v / 256)]

/-- `BE16(v)` of a 16-bit value: the bytes `v div 256`, `v mod 256`. -/
def be16 (v : Nat) : List Byte := [BitVec.ofNat 8 (v / 256), BitVec.ofNat 8 (v % 256)]

/-! ## Memories (20_memory.md R63 to R66) -/

/-- The value listed at a key, if any. -/
def cellsGet {α : Type} : List (Nat × α) → Nat → Option α
  | [], _ => none
  | (k, v) :: rest, a => if k = a then some v else cellsGet rest a

/-- List `v` at key `a`, keeping the keys in rising order. -/
def cellsPut {α : Type} : List (Nat × α) → Nat → α → List (Nat × α)
  | [], a, v => [(a, v)]
  | (k, u) :: rest, a, v =>
    if a < k then (a, v) :: (k, u) :: rest
    else if a = k then (a, v) :: rest
    else (k, u) :: cellsPut rest a v

/-- Are the keys strictly rising and all above `low`, if given? -/
def cellsRising {α : Type} : List (Nat × α) → Bool
  | [] => true
  | [_] => true
  | (a, _) :: (b, v) :: rest => decide (a < b) && cellsRising ((b, v) :: rest)

/-- The canonical form of a memory: addresses strictly rising. An unlisted address has no value of
the model's choosing, so no listed entry can equal it (log 7). -/
def Memory.wf (m : Memory) : Bool := cellsRising m.cells

/-- `MEM[a]` (00_scope.md R12): the byte written there, or the free value of an unwritten byte. -/
def Memory.read (space : Space) (m : Memory) (a : Nat) : Byte :=
  (cellsGet m.cells a).getD (Config.unwrittenByte space m.era a)

/-- `MEM[a] <- v` (00_scope.md R12). -/
def Memory.write (m : Memory) (a : Nat) (v : Byte) : Memory :=
  { m with cells := cellsPut m.cells a v }

/-- `MemWrite(MEM, a, n, bytes)`: consecutive bytes from address `a` up. -/
def Memory.writeBytes (m : Memory) (a : Nat) : List Byte → Memory
  | [] => m
  | v :: rest => (m.write a v).writeBytes (a + 1) rest

/-- `MemRead(MEM, a, n)`: the bytes `MEM[a .. a+n)`. -/
def Memory.readBytes (space : Space) (m : Memory) (a n : Nat) : List Byte :=
  (List.range n).map fun k => m.read space (a + k)

/-- A memory of `size` bytes all of which are written: byte `i` is `f i`. -/
def Memory.build (m : Memory) (size : Nat) (f : Nat → Byte) : Memory :=
  { m with cells := (List.range size).map fun i => (i, f i) }

/-- The memory's contents become unspecified: nothing is listed and the unwritten bytes are a new
draw (10_state.md R44, 42_block_compressor.md R173; logs 7, 8). -/
def Memory.forget (m : Memory) : Memory := ⟨m.era + 1, []⟩

/-- `WM[e]`: the value written there, or the free value of an unwritten entry, cut to the entry's width
(20_memory.md R66). -/
def WorkMemory.read (codec : Codec) (m : WorkMemory) (e : Nat) : Nat :=
  (cellsGet m.cells e).getD (Config.unwrittenEntry m.era e % 2 ^ codec.entryBits)

/-- The work memory's contents become unspecified (10_state.md R44, log 7). -/
def WorkMemory.forget (m : WorkMemory) : WorkMemory := ⟨m.era + 1, []⟩

/-- The canonical form of the work memory: entry indices strictly rising, each below the number of
entries, and every value within the entry's width (20_memory.md R66). -/
def WorkMemory.wf (codec : Codec) (m : WorkMemory) : Bool :=
  cellsRising m.cells &&
    m.cells.all fun cell => decide (cell.1 < codec.entries) && decide (cell.2 < 2 ^ codec.entryBits)

/-! ## Register and memory writes

Each is one named update, so that Laws/State.lean says once what it leaves alone. -/

/-- `RESULT <- bit` (10_state.md R23). -/
def setResult (bit : Bool) (s : State) : State := { s with result := bit }

/-- `PACE_TIMER <- v` (10_state.md R35). -/
def setPace (v : Half) (s : State) : State := { s with paceTimer := v }

/-- New contents of `PB`. -/
def setPb (m : Memory) (s : State) : State := { s with pb := m }

/-- New contents of `TB`. -/
def setTb (m : Memory) (s : State) : State := { s with tb := m }

/-- New contents of `CB`, `CB_LEN` and `WM`, which one call of the compressor writes together. -/
def setBlock (cb : Memory) (cbLen : Nat) (wm : WorkMemory) (s : State) : State :=
  { s with cb := cb, cbLen := cbLen, wm := wm }

/-- What a micro-operation taken as a step returned (log 5). -/
def setUop (r : UopResult) (s : State) : State := { s with uop := r }

/-- The commands that wait (log 4). -/
def setHeld (queue : List CmdWord) (s : State) : State := { s with cmdHeld := queue }

/-! ## Responses, failures and the way back -/

/-- `respond(code)`: `RESP <- code` (00_scope.md R12). -/
def respond (code : Code) (s : State) : State := { s with resp := code }

/-- `fail(cause)`, the one entry to Failed (60_exceptions.md R290): `STATE`, `CAUSE`, `ACK_FLAG` and
`PACE_TIMER` are written, everything else stays. -/
def fail (cause : Code) (s : State) : State :=
  { s with phase := .failed, cause := cause, ackFlag := false, paceTimer := 0 }

/-- The return from Failed or Completed to Idle, as `TC.RELEASE` does it
(44_transmission_controller.md R239, 60_exceptions.md R297). -/
def clearJob (s : State) : State :=
  { s with frames := [], nframes := 0, cur := 0, sub := 0, ackFlag := false, paceTimer := 0,
           cause := .ok, phase := .idle }

/-! ## The ports -/

/-- A CMD word waits for the port (30_encoding.md R91, 70_reset_and_hazards.md R333). Only a packet of
the CMD port can wait. -/
def hold : Packet → State → State
  | .cmd w, s => setHeld (s.cmdHeld ++ [w]) s
  | .stat _, s => s
  | .core _ _ _, s => s

/-- A command of the CMD port: while the port is busy it "is not refused and not lost" but waits
(44_transmission_controller.md R232, 70_reset_and_hazards.md R333); otherwise it takes its effect. -/
def onCmdPort (p : Packet) (s effect : State) : State := if s.cmdBusy then hold p s else effect

/-- A step of the sequencer: when it is not enabled "the sequencer has no step" and its turn passes
with nothing changed (44_transmission_controller.md R236, 60_exceptions.md R304; log 3). -/
def whenEnabled (enabled : Bool) (s effect : State) : State := if enabled then effect else s

/-- The STAT port answers 16 bits of data (30_encoding.md R90; log 16). -/
def answerStat (data : Half) (s : State) : State := { s with statData := data }

end Sys2Proof.Machine
end

