-- ==== Sys2Proof/Machine/Operands.lean ====
section
/-!
DEFINITION. Operand assembly and the one addressing mode: pixel coordinates with a bounds check
(30_encoding.md R102, 40_pixelbuffer.md R131, 20_memory.md R60).
-/

namespace Sys2Proof.Machine

/-- A coordinate field as a signed integer, `sext_16` (30_encoding.md R102). -/
def coord (field : Half) : Int := field.toInt

/-- `inrange(x, y)` (40_pixelbuffer.md R131): each coordinate is checked separately. -/
def inRange (c : Config) (x y : Int) : Bool :=
  decide (0 ≤ x) && decide (x < c.w) && decide (0 ≤ y) && decide (y < c.h)

/-- The linear index `y*W + x` of an in-range pixel (R131). -/
def pixelIndex (c : Config) (x y : Nat) : Nat := y * c.w + x

/-- The byte address of a pixel, `idx div 8` (R131). -/
def pixelByte (c : Config) (x y : Nat) : Nat := pixelIndex c x y / 8

/-- The mask of a pixel in its byte, `0x80 >> (idx mod 8)` (R131). -/
def pixelMask (c : Config) (x y : Nat) : Byte := 0x80 >>> (pixelIndex c x y % 8)

/-- `pixel(PB, x, y)` for in-range coordinates (20_memory.md R60). -/
def pixel (c : Config) (pb : Memory) (x y : Nat) : Bool :=
  pb.read .pb (pixelByte c x y) &&& pixelMask c x y != 0

/-- Write one pixel: a read-modify-write of one byte that changes one bit (20_memory.md R64,
40_pixelbuffer.md R132). -/
def setPixel (c : Config) (pb : Memory) (x y : Nat) (v : Bool) : Memory :=
  let a := pixelByte c x y
  let m := pixelMask c x y
  let old := pb.read .pb a
  pb.write a (if v then old ||| m else old &&& (0xFF ^^^ m))

/-- The transmitted 16-bit value of two bytes, the lower-indexed one in bits 7:0 (10_state.md R38). -/
def packBytes (lo hi : Byte) : Half := hi ++ lo

end Sys2Proof.Machine
end

