-- ==== Sys2Proof/Machine/FormatTransformer.lean ====
section
/-!
DEFINITION. The FormatTransformer micro-operations (41_format_transformer.md). Each stage is a
function of its own (R332) and an operation of its own (log 5).
-/

namespace Sys2Proof.Machine

open Host (Outcome)

/-- The byte whose bit `k` (mask `1 << k`) is `f k`. -/
def byteOfBits (f : Nat → Bool) : Byte :=
  (List.range 8).foldl (fun acc k => if f k then acc ||| (1 <<< k) else acc) 0

/-- Byte `i` of stage 1's output (R151, 20_memory.md R61): it belongs to column `x = i div BPC`, and its
bit `k` is the pixel whose distance from the bottom row is `b = 8·(i mod BPC) + k`. Every bit belongs to
exactly one pixel, so building each byte from its pixels is the sparse write of R151. -/
def reorderedByte (c : Config) (pb : Memory) (i : Nat) : Byte :=
  byteOfBits fun k => pixel c pb (i / c.bpc) (c.h - 1 - (8 * (i % c.bpc) + k))

/-- The partner of byte `i` in stage 2: `i + 1` for even `i`, `i - 1` for odd `i` (R152). -/
def swapPartner (i : Nat) : Nat := if i % 2 = 0 then i + 1 else i - 1

/-- Stage 1, `PB` to `TB` (R151). -/
def reorderStage (s : State) : State :=
  setTb (s.tb.build s.cfg.bitmapSize (reorderedByte s.cfg s.pb)) s

/-- Stage 2, in place on `TB` (R152). -/
def swapStage (s : State) : State :=
  setTb (s.tb.build s.cfg.bitmapSize fun i => s.tb.read .tb (swapPartner i)) s

/-- Stage 3, in place on `TB` (R153). -/
def invertStage (s : State) : State :=
  setTb (s.tb.build s.cfg.bitmapSize fun i => s.tb.read .tb i ^^^ 0xFF) s

/-- The three stages "in that order and no other" (R154). -/
def transform (s : State) : State := invertStage (swapStage (reorderStage s))

/-- `FT.REORDER` (R151). -/
def execFtReorder (s : State) : Outcome State Fault Refusal := .next (reorderStage s)

/-- `FT.SWAP` (R152). -/
def execFtSwap (s : State) : Outcome State Fault Refusal := .next (swapStage s)

/-- `FT.INVERT` (R153). -/
def execFtInvert (s : State) : Outcome State Fault Refusal := .next (invertStage s)

/-- `FT.RUN` (R154). -/
def execFtRun (s : State) : Outcome State Fault Refusal := .next (transform s)

end Sys2Proof.Machine
end

