-- ==== Sys2Proof/Machine/RefLz.lean ====
section
/-!
DEFINITION. REF-LZ, the reference compressor, and its decoder UNLZ (42_block_compressor.md R180 to
R186).
-/

namespace Sys2Proof.Machine

/-- Byte `i` of the input; only indices inside the input are asked for. -/
def byteAt (input : List Byte) (i : Nat) : Byte := input.getD i 0

/-- The hash of the four bytes at `i` (R182): shifts on unbounded integers, `mod 4096` last. -/
def lzHash (input : List Byte) (i : Nat) : Nat :=
  ((byteAt input i).toNat ^^^ ((byteAt input (i + 1)).toNat <<< 3) ^^^
    ((byteAt input (i + 2)).toNat <<< 6) ^^^ ((byteAt input (i + 3)).toNat <<< 9)) % refLzEntries

/-- How many leading bytes two sequences share, at most `cap`. -/
def sharedPrefix : Nat → List Byte → List Byte → Nat
  | cap + 1, a :: as, b :: bs => if a = b then sharedPrefix cap as bs + 1 else 0
  | _, _, _ => 0

/-- The match length of R182 for an earlier position `p` and the current position `i`: at least 4 exactly
when the four bytes at `p` and `i` agree, and at most 131. -/
def matchLength (input : List Byte) (p i : Nat) : Nat :=
  sharedPrefix 131 (input.drop p) (input.drop i)

/-- `flush`: literal runs of 1 to 128 bytes, each led by its length minus 1 (R180, R182). `fuel` bounds
the number of runs. -/
def literalRuns : Nat → List Byte → List Byte
  | 0, _ => []
  | fuel + 1, bytes =>
    if bytes.isEmpty then []
    else
      let run := bytes.take 128
      BitVec.ofNat 8 (run.length - 1) :: (run ++ literalRuns fuel (bytes.drop 128))

/-- `flush(a, b)`: the pending literals `in[a .. b)`. -/
def flushLiterals (input : List Byte) (a b : Nat) : List Byte :=
  literalRuns (b - a) ((input.drop a).take (b - a))

/-- A match token (R180, R181): `0x80 OR (m - 4)`, then the distance `LE16`. -/
def matchToken (m d : Nat) : List Byte := (0x80 ||| BitVec.ofNat 8 (m - 4)) :: le16 d

/-- The work memory during one call: `BC.COMPRESS` has just set every entry to 0 (R170, R174), so this
lists the entries the call has written since, and the others are 0. -/
abbrev HashTable := List (Nat × Half)

/-- An entry of the work memory during a call; 0 means empty (R182). -/
def entryOf (table : HashTable) (h : Nat) : Half := (cellsGet table h).getD 0

/-- The outer loop of R182 from position `i`, with pending literals from `ls`: the rest of the stream and
the work memory at the end. `fuel` bounds the number of turns; `input.length` of them are enough. -/
def refLzLoop (input : List Byte) : Nat → Nat → Nat → HashTable → List Byte × HashTable
  | 0, _, ls, table => (flushLiterals input ls input.length, table)
  | fuel + 1, i, ls, table =>
    if i < input.length then
      if i + 4 ≤ input.length then
        let h := lzHash input i
        let c := (entryOf table h).toNat
        let table' := cellsPut table h (BitVec.ofNat 16 (i + 1))
        let m := matchLength input (c - 1) i
        if c ≠ 0 ∧ 4 ≤ m then
          let rest := refLzLoop input fuel (i + m) (i + m) table'
          (flushLiterals input ls i ++ matchToken m (i - (c - 1)) ++ rest.1, rest.2)
        else refLzLoop input fuel (i + 1) ls table'
      else refLzLoop input fuel (i + 1) ls table
    else (flushLiterals input ls input.length, table)

/-- REF-LZ (R182, R185): the stream, or none for `Fail`, exactly when the input is longer than 65535; and
what it leaves in its work memory (nothing but zeros, R174, when it fails before using it; log 22). -/
def refLz (input : List Byte) : Option (List Byte) × HashTable :=
  if input.length > 65535 then (none, [])
  else
    let r := refLzLoop input input.length 0 0 []
    (some r.1, r.2)

/-- Append `m` bytes, each the byte `d` positions before the end (R181). -/
def copyBack : Nat → Nat → List Byte → List Byte
  | 0, _, out => out
  | m + 1, d, out => copyBack m d (out ++ [out.getD (out.length - d) 0])

/-- The loop of `UNLZ` (R183): none for a malformed stream (R181). -/
def unlzLoop : Nat → List Byte → List Byte → Option (List Byte)
  | _, [], out => some out
  | 0, _ :: _, _ => none
  | fuel + 1, t :: rest, out =>
    if t.toNat < 0x80 then
      let k := t.toNat + 1
      if k ≤ rest.length then unlzLoop fuel (rest.drop k) (out ++ rest.take k) else none
    else
      match rest with
      | d0 :: d1 :: rest' =>
        let m := t.toNat % 128 + 4
        let d := d0.toNat + 256 * d1.toNat
        if 1 ≤ d ∧ d ≤ out.length then unlzLoop fuel rest' (copyBack m d out) else none
      | _ => none

/-- `UNLZ` (R183), "given for the round-trip property and for tests; the hardware does not contain
it". -/
def unlz (stream : List Byte) : Option (List Byte) := unlzLoop stream.length stream []

end Sys2Proof.Machine
end

