-- ==== Sys2Proof/Machine/BlockCompressor.lean ====
section
/-!
DEFINITION. The BlockCompressor micro-operation (42_block_compressor.md).
-/

namespace Sys2Proof.Machine

open Host (Outcome)

/-- Compressor `k` (R175, R176): what it proposes, as far as that meets the contract, the bound of R172 and
a decoder that gives the input back; otherwise `Fail`. Every compressor that meets the contract is of this
form, since nothing is lost of its proposals (log 9). -/
def conformingLz (k : Nat) (input : List Byte) : Option (List Byte) :=
  match Config.customLz k input with
  | some r =>
    if r.length ≤ maxCompressedSize input.length ∧ Config.customUnlz k r = some input then some r
    else none
  | none => none

/-- Every entry of `WM` after a call, each with the value `value` gives it, cut to its width: the call has
set all of them to 0 and then used them as scratch (R170, 20_memory.md R66). -/
def wmEntries (codec : Codec) (value : Nat → Nat) : List (Nat × Nat) :=
  (List.range codec.entries).map fun e => (e, value e % 2 ^ codec.entryBits)

/-- One call of the configured `LZ` on an input (R170, R174, R176): its result, and the entries of `WM` it
leaves. The work memory is cleared first, so both are functions of the input alone. -/
def runLz (codec : Codec) (input : List Byte) : Option (List Byte) × List (Nat × Nat) :=
  match codec with
  | .refLz =>
    let r := refLz input
    (r.1, wmEntries .refLz fun e => (entryOf r.2 e).toNat)
  | .refLzUpTo limit =>
    if input.length ≤ limit then
      let r := refLz input
      (r.1, wmEntries (.refLzUpTo limit) fun e => (entryOf r.2 e).toNat)
    else (none, wmEntries (.refLzUpTo limit) fun _ => 0)
  | .custom k => (conformingLz k input, wmEntries (.custom k) (Config.customScratch k input))

/-- The result `BC.COMPRESS` goes on with: a stream longer than `MAX_COMPRESSED_SIZE(n)` counts as `Fail`
(R170, R172, 93_implementation_defined.md I19). -/
def boundedResult (n : Nat) : Option (List Byte) → Option (List Byte)
  | some r => if r.length ≤ maxCompressedSize n then some r else none
  | none => none

/-- The state after a compressor result (R170): on `Ok` the stream goes to `CB` and its length to
`CB_LEN`; on `Fail` both are unspecified (R173, I14; log 8). -/
def storeBlock (r : Option (List Byte)) (entries : List (Nat × Nat)) (s : State) : State :=
  match r with
  | some bytes => setBlock (s.cb.writeBytes 0 bytes) bytes.length ⟨s.wm.era, entries⟩ s
  | none => setBlock s.cb.forget (Config.failedLength (s.cb.era + 1)) ⟨s.wm.era, entries⟩ s

/-- The stream `BC.COMPRESS off, n` produces in a state, or none for `Fail` (R170). -/
def compressedRange (off n : Nat) (s : State) : Option (List Byte) :=
  boundedResult n (runLz s.cfg.codec (s.tb.readBytes .tb off n)).1

/-- The state after `BC.COMPRESS off, n` (R170). -/
def compressRange (off n : Nat) (s : State) : State :=
  storeBlock (compressedRange off n s) (runLz s.cfg.codec (s.tb.readBytes .tb off n)).2 s

/-- `BC.COMPRESS off, n` (R170). A range that leaves `TB` touches bytes that do not exist (10_state.md
R41; log 11). -/
def execBcCompress (off n : Half) (s : State) : Outcome State Fault Refusal :=
  if s.cfg.bitmapSize < off.toNat + n.toNat then .fault .rangeOutsideTb
  else
    .next (setUop (.compressed (compressedRange off.toNat n.toNat s).isSome)
      (compressRange off.toNat n.toNat s))

end Sys2Proof.Machine
end

