-- ==== Sys2Proof/Machine/FrameEncoder.lean ====
section
/-!
DEFINITION. The FrameEncoder micro-operations (43_frame_encoder.md) and the frame layout
(30_encoding.md R110 to R113).
-/

namespace Sys2Proof.Machine

open Host (Outcome)

/-! ## Column groups -/

/-- `N = ceil(W / CHUNK_W)` (R201). -/
def groupCount (c : Config) : Nat := ceilDiv c.w c.chunkW

/-- Group `g` of `n` (R201). -/
def groupAt (c : Config) (n g : Nat) : Group where
  col0 := g * c.chunkW
  width := if g < n - 1 then c.chunkW else c.w - (n - 1) * c.chunkW
  fr := n - 1 - g

/-- `FE.GROUPS` (R201): the column groups, left to right. -/
def groupsOf (c : Config) : List Group :=
  (List.range (groupCount c)).map (groupAt c (groupCount c))

/-! ## The frame -/

/-- The checksum (R206): an 8-bit running sum, subtracted from 0 modulo 256. -/
def checksumOf (body : List Byte) : Byte := 0 - body.foldl (· + ·) 0

/-- The frame-type marker (R205). -/
def typeMarker (c : Config) (fr : Nat) : Byte := if fr = 0 then c.typeFinal else c.typeData

/-- The frames-remaining field (20_memory.md R62, 30_encoding.md R110). -/
def framesRemainingField (c : Config) (fr : Nat) : List Byte :=
  if c.frBigEndian then be16 fr else le16 fr

/-- The value of the length field around a payload of `n` bytes, `n + 17` (R204). "the length field never
overflows" in a job (R204, 00_scope.md R9); a longer block, which only a micro-operation taken by itself
can leave in `CB`, has a free value there (log 23). -/
def lengthValue (n : Nat) : Nat := if n + 17 ≤ 65535 then n + 17 else (Config.unstatedLength n).toNat

/-- Every byte of a logical frame before its checksum (R204, 30_encoding.md R110, R111). -/
def frameBody (c : Config) (jobId : Half) (fr : Nat) (payload : List Byte) : List Byte :=
  [0x66] ++ le16 (lengthValue payload.length) ++ c.deviceId.toList ++ le16 jobId.toNat ++
    [typeMarker c fr] ++ framesRemainingField c fr ++ payload ++ c.endMarker.toList

/-- A logical frame: body and checksum (R204). -/
def frameOf (c : Config) (jobId : Half) (fr : Nat) (payload : List Byte) : Frame :=
  frameBody c jobId fr payload ++ [checksumOf (frameBody c jobId fr payload)]

/-- `CB[0 .. CB_LEN)` (R204). -/
def blockPayload (s : State) : List Byte := s.cb.readBytes .cb 0 s.cbLen

/-- `FE.BUILD fr`: the frame around the block in `CB`; `CB` is only read (R204). -/
def buildFrame (fr : Nat) (s : State) : Frame := frameOf s.cfg s.jobId fr (blockPayload s)

/-! ## Splitting -/

/-- `nslices(frame, mtu) = ceil(len(frame) / mtu)` (R208). -/
def nslices (frame : Frame) (mtu : Nat) : Nat := ceilDiv frame.length mtu

/-- `slice(frame, mtu, k) = frame[k*mtu .. min((k+1)*mtu, len(frame)))` (R208). -/
def sliceOf (frame : Frame) (mtu k : Nat) : List Byte := (frame.drop (k * mtu)).take mtu

/-- Slice `k`, if `mtu ≥ 1` and there is a slice `k` (R208). -/
def slice? (frame : Frame) (mtu k : Nat) : Option (List Byte) :=
  if 1 ≤ mtu ∧ k < nslices frame mtu then some (sliceOf frame mtu k) else none

/-! ## The frame list of a job -/

/-- The loop of `FE.JOB` (R210) over the groups in order: compress the group's columns, frame the block;
none when a group fails, and then no frame at all. -/
def jobFrames : List Group → State → State × Option (List Frame)
  | [], s => (s, some [])
  | g :: rest, s =>
    let off := g.col0 * s.cfg.bpc
    let n := g.width * s.cfg.bpc
    let s1 := compressRange off n s
    if (compressedRange off n s).isSome then
      let r := jobFrames rest s1
      (r.1, r.2.map (buildFrame g.fr s1 :: ·))
    else (s1, none)

/-- `FE.JOB` (R210, R211): `Empty` when there is no group, `Fail` when a group fails, else the list. -/
def jobResult (groups : List Group) (frames : Option (List Frame)) : JobResult :=
  if groups.isEmpty then .empty
  else
    match frames with
    | some list => .ok list
    | none => .fail

/-- `FE.JOB` on the groups of the configuration: the state after it and its result (R210). -/
def runJob (s : State) : State × JobResult :=
  let r := jobFrames (groupsOf s.cfg) s
  (r.1, jobResult (groupsOf s.cfg) r.2)

/-! ## The micro-operations -/

/-- `FE.GROUPS` (R201). -/
def execFeGroups (s : State) : Outcome State Fault Refusal :=
  .next (setUop (.groups (groupsOf s.cfg)) s)

/-- `FE.BUILD fr` (R204). -/
def execFeBuild (fr : Half) (s : State) : Outcome State Fault Refusal :=
  .next (setUop (.frame (buildFrame fr.toNat s)) s)

/-- `FE.CSUM body` (R206). -/
def execFeCsum (body : List Byte) (s : State) : Outcome State Fault Refusal :=
  .next (setUop (.checksum (checksumOf body)) s)

/-- `FE.SPLIT frame, mtu, k` (R208); outside its operand contract what it returns is a free value
(log 10). -/
def execFeSplit (frame : List Byte) (mtu k : Half) (s : State) : Outcome State Fault Refusal :=
  .next (setUop
    (.slice
      ((slice? frame mtu.toNat k.toNat).getD (Config.unstatedSlice frame mtu.toNat k.toNat))
      (if mtu = 0 then Config.unstatedCount frame else nslices frame mtu.toNat)) s)

/-- `FE.JOB` (R210). -/
def execFeJob (s : State) : Outcome State Fault Refusal :=
  .next (setUop (.job (runJob s).2) (runJob s).1)

end Sys2Proof.Machine
end

