-- ==== Sys2Proof/Machine/StatMap.lean ====
section
/-!
DEFINITION. The STAT-port register map (10_state.md R38, R39).
-/

namespace Sys2Proof.Machine

/-- `LAST_ACK` bytes `2k` (low half) and `2k+1` (high half); bytes at and above `ACK_MAX` read 0
(R33, 93_implementation_defined.md I20). -/
def lastAckWord (s : State) (k : Nat) : Half :=
  packBytes (s.lastAck.getD (2 * k) 0) (s.lastAck.getD (2 * k + 1) 0)

/-- `DEVICE_ID` bytes `2k` and `2k+1` (R38). -/
def deviceIdWord (c : Config) (k : Nat) : Half :=
  packBytes (c.deviceId.toList.getD (2 * k) 0) (c.deviceId.toList.getD (2 * k + 1) 0)

/-- `END_MARKER` bytes `2k` and `2k+1`; there is no byte 3 (R38). -/
def endMarkerWord (c : Config) (k : Nat) : Half :=
  packBytes (c.endMarker.toList.getD (2 * k) 0) (c.endMarker.toList.getD (2 * k + 1) 0)

/-- The registers at 0x00 to 0x0C (R38). -/
def statControl (s : State) (a : Nat) : Half :=
  match a with
  | 0x00 => s.phase.bits.setWidth 16
  | 0x01 => s.cause.bits.setWidth 16
  | 0x02 => s.jobId
  | 0x03 => s.cur
  | 0x04 => s.nframes
  | 0x05 => s.sub
  | 0x06 => s.flags
  | 0x07 => s.mtuL
  | 0x08 => s.resp.bits.setWidth 16
  | 0x09 => (BitVec.ofBool s.result).setWidth 16
  | 0x0A => s.ackTimer
  | 0x0B => s.paceTimer
  | 0x0C => s.lastAckLen.setWidth 16
  | _ => 0

/-- The hardwired registers at 0x20 to 0x2F, by their distance from 0x20 (R38, R39). -/
def statConfig (c : Config) (k : Nat) : Half :=
  match k with
  | 0x0 => BitVec.ofNat 16 c.w
  | 0x1 => BitVec.ofNat 16 c.h
  | 0x2 => BitVec.ofNat 16 c.bpc
  | 0x3 => BitVec.ofNat 16 c.bitmapSize
  | 0x4 => BitVec.ofNat 16 c.chunkW
  | 0x5 => BitVec.ofNat 16 (maxCompressedSize c.bitmapSize)
  | 0x6 => BitVec.ofNat 16 c.ackTimeoutTicks
  | 0x7 => BitVec.ofNat 16 c.pacingTicks
  | 0x8 => packBytes c.typeData c.typeFinal
  | 0x9 => (BitVec.ofBool c.frBigEndian).setWidth 16
  | 0xA => deviceIdWord c 0
  | 0xB => deviceIdWord c 1
  | 0xC => deviceIdWord c 2
  | 0xD => deviceIdWord c 3
  | 0xE => endMarkerWord c 0
  | 0xF => endMarkerWord c 1
  | _ => 0

/-- The 16-bit value at a STAT address; an address not in the map reads 0 (R38, R39). -/
def statRegister (s : State) (a : Byte) : Half :=
  if a.toNat < 0x10 then statControl s a.toNat
  else if a.toNat < 0x20 then lastAckWord s (a.toNat - 0x10)
  else if a.toNat < 0x30 then statConfig s.cfg (a.toNat - 0x20)
  else 0

end Sys2Proof.Machine
end

