-- ==== Sys2Proof/Machine/Controller.lean ====
section
/-!
DEFINITION. The TransmissionController (44_transmission_controller.md): host commands, status reads
and the sequencer's steps.
-/

namespace Sys2Proof.Machine

open Host (Outcome)

/-! ## Host commands -/

/-- A job is accepted: `JOB_ID <- (JOB_ID + 1) mod 65536`, `MTU_L <- MTU`, `STATE <- Preparing` (R231). -/
def acceptJob (s : State) : State :=
  { s with jobId := s.jobId + 1, mtuL := s.env.mtu, phase := .preparing }

/-- The effect of `TC.START` (R231): JobInProgress before NoTransport, and a rejection changes nothing
but `RESP`. -/
def startJob (s : State) : State :=
  if s.phase ≠ .idle then respond .jobInProgress s
  else if s.env.linkReady = false ∨ s.env.mtu = 0 then respond .noTransport s
  else respond .ok (acceptJob s)

/-- The effect of `TC.ABORT` (R237). -/
def abortJob (s : State) : State :=
  if s.phase = .sending ∨ s.phase = .awaitingAck then respond .ok (fail .aborted s)
  else respond .noEffect s

/-- The effect of `TC.RELEASE` (R239). -/
def releaseJob (s : State) : State :=
  if s.phase = .completed ∨ s.phase = .failed then respond .ok (clearJob s)
  else respond .noEffect s

/-- `TC.START` (R231). -/
def execTcStart (s : State) : Outcome State Fault Refusal :=
  .next (onCmdPort (encode .tcStart) s (startJob s))

/-- `TC.ABORT` (R237). -/
def execTcAbort (s : State) : Outcome State Fault Refusal :=
  .next (onCmdPort (encode .tcAbort) s (abortJob s))

/-- `TC.RELEASE` (R239). -/
def execTcRelease (s : State) : Outcome State Fault Refusal :=
  .next (onCmdPort (encode .tcRelease) s (releaseJob s))

/-! ## Status reads -/

/-- A status query copies its one-bit answer into `RESULT` and answers it on the STAT port (30_encoding.md
R92). -/
def answerQuery (bit : Bool) (s : State) : State :=
  answerStat ((BitVec.ofBool bit).setWidth 16) (setResult bit s)

/-- `ST.ISCONN` (R240): the live input. -/
def execStIsconn (s : State) : Outcome State Fault Refusal := .next (answerQuery s.env.linkReady s)

/-- `ST.ISPRINT` (R241). -/
def execStIsprint (s : State) : Outcome State Fault Refusal := .next (answerQuery s.phase.printing s)

/-- `ST.RD a` (R242): it writes nothing, not even `RESULT`. -/
def execStRd (a : Byte) (s : State) : Outcome State Fault Refusal :=
  .next (answerStat (statRegister s a) s)

/-! ## Preparation -/

/-- The frames are built and the job goes to Sending (R233). -/
def startSending (list : List Frame) (s : State) : State :=
  { s with frames := list, nframes := BitVec.ofNat 16 list.length, cur := 0, sub := 0,
           ackFlag := false, phase := .sending }

/-- The end of `CT.PREP` for each result of `FE.JOB` (R233). -/
def finishPrep : JobResult → State → State
  | .fail, s => fail .compressionFailure s
  | .empty, s => fail .emptyFrameList s
  | .ok list, s => startSending list s

/-- The effect of `CT.PREP` (R233): the allocation is looked at before any stage runs. -/
def prepareJob (s : State) : State :=
  if s.env.allocOk = false then fail .allocationFailure (setPace 0 s)
  else
    let r := runJob (transform (setPace 0 s))
    finishPrep r.2 r.1

/-- `CT.PREP` is enabled exactly in Preparing (R233). -/
def execCtPrep (s : State) : Outcome State Fault Refusal :=
  .next (whenEnabled (decide (s.phase = .preparing)) s (prepareJob s))

/-! ## Writing -/

/-- Present a slice on TX (30_encoding.md R93, log 16). -/
def present (bytes : List Byte) (s : State) : State := { s with tx := s.tx ++ [⟨bytes, s.env.txOk⟩] }

/-- The batch is fully written: AwaitingAck begins (R235). -/
def enterAwaiting (s : State) : State :=
  { s with sub := s.sub + 1, ackFlag := false, ackTimer := 0, phase := .awaitingAck }

/-- More slices of the batch remain: pacing begins (R235). -/
def beginPacing (s : State) : State :=
  { s with sub := s.sub + 1, paceTimer := BitVec.ofNat 16 s.cfg.pacingTicks }

/-- After an accepted write (R235): the batch is fully written, or pacing begins. -/
def afterWrite (count : Nat) (s : State) : State :=
  if s.sub.toNat + 1 = count then enterAwaiting s else beginPacing s

/-- Write a slice of a batch of `count` slices (R235): a failed write leaves `CUR` and `SUB`. -/
def writeSlice (bytes : List Byte) (count : Nat) (s : State) : State :=
  if s.env.txOk then afterWrite count (present bytes s)
  else fail .writeFailure (present bytes s)

/-- `CT.WRITE` is enabled in Sending while `PACE_TIMER = 0` (R235). A frame or a slice that is not there
is an access to something that does not exist (log 12). -/
def execCtWrite (s : State) : Outcome State Fault Refusal :=
  if s.phase = .sending ∧ s.paceTimer = 0 then
    match s.frames[s.cur.toNat]? with
    | none => .fault .noSuchFrame
    | some frame =>
      match slice? frame s.mtuL.toNat s.sub.toNat with
      | none => .fault .noSuchSlice
      | some bytes => .next (writeSlice bytes (nslices frame s.mtuL.toNat) s)
  else .next s

/-! ## Waiting -/

/-- Is the acknowledgement deadline over? (R236) -/
def deadlineOver (s : State) : Bool := decide (s.cfg.ackTimeoutTicks ≤ s.ackTimer.toNat)

/-- `CT.WAIT` is enabled in AwaitingAck when the acknowledgement is there or the deadline is over
(R236). -/
def waitEnabled (s : State) : Bool :=
  decide (s.phase = .awaitingAck) && (s.ackFlag || deadlineOver s)

/-- The acknowledgement is consumed and the job is complete (R236). -/
def finishJob (s : State) : State := { s with ackFlag := false, phase := .completed }

/-- The acknowledgement is consumed and the next batch begins (R236). -/
def nextBatch (s : State) : State :=
  { s with ackFlag := false, sub := 0, paceTimer := 0, phase := .sending }

/-- The effect of `CT.WAIT` (R236): a set flag wins over an expired timer. -/
def consumeAck (s : State) : State :=
  if s.ackFlag then
    if s.cur = s.nframes then finishJob s else nextBatch s
  else fail .ackTimeout s

/-- `CT.WAIT` (R236). -/
def execCtWait (s : State) : Outcome State Fault Refusal :=
  .next (whenEnabled (waitEnabled s) s (consumeAck s))

end Sys2Proof.Machine
end

