-- ==== Sys2Proof/Machine/Events.lean ====
section
/-!
DEFINITION. The events: notification, tick, reset (44_transmission_controller.md R238, R243;
70_reset_and_hazards.md R320).
-/

namespace Sys2Proof.Machine

open Host (Outcome)

/-- The bytes of `LAST_ACK` after a payload: its first `ACK_MAX` bytes, then zeros (R238). -/
def keptPayload (ackMax : Nat) (payload : List Byte) : List Byte :=
  payload.take ackMax ++ List.replicate (ackMax - payload.length) 0

/-- The handler's check (R238): only in AwaitingAck and only once per batch. -/
def ackExpected (s : State) : Bool := decide (s.phase = .awaitingAck) && !s.ackFlag

/-- Accept a notification: `LAST_ACK`, `LAST_ACK_LEN`, `CUR` and `ACK_FLAG` in one step (R238). -/
def acceptAck (payload : List Byte) (s : State) : State :=
  { s with
    lastAck := keptPayload s.cfg.ackMax payload
    lastAckLen := BitVec.ofNat 6 (min payload.length s.cfg.ackMax)
    cur := s.cur + 1
    ackFlag := true }

/-- `EV.NOTIFY payload` (R238): a stale or duplicate notification changes nothing. -/
def execEvNotify (payload : List Byte) (s : State) : Outcome State Fault Refusal :=
  .next (if ackExpected s then acceptAck payload s else s)

/-- `ACK_TIMER` counts up in AwaitingAck and saturates at 65535 (R243, 10_state.md R34). -/
def tickedAckTimer (s : State) : Half :=
  if s.phase = .awaitingAck ∧ s.ackTimer.toNat < 65535 then s.ackTimer + 1 else s.ackTimer

/-- `PACE_TIMER` counts down and stops at 0 (R243, 10_state.md R35). -/
def tickedPaceTimer (s : State) : Half := if s.paceTimer = 0 then 0 else s.paceTimer - 1

/-- The effect of a tick (R243). -/
def tick (s : State) : State :=
  { s with ackTimer := tickedAckTimer s, paceTimer := tickedPaceTimer s }

/-- `EV.TICK` (R243). -/
def execEvTick (s : State) : Outcome State Fault Refusal := .next (tick s)

/-- The effect of reset (70 R320, 10_state.md R44): every register at its reset value, the memories
unspecified, the configuration unchanged. The ports and the environment are not the CORE's
(logs 1, 2, 4, 16). -/
def resetCore (s : State) : State :=
  { s with
    phase := .idle
    cause := .ok
    jobId := 0
    nframes := 0
    cur := 0
    sub := 0
    frames := []
    ackFlag := false
    lastAck := List.replicate s.cfg.ackMax 0
    lastAckLen := 0
    ackTimer := 0
    paceTimer := 0
    mtuL := 0
    resp := .ok
    result := false
    cbLen := 0
    pb := s.pb.forget
    tb := s.tb.forget
    cb := s.cb.forget
    wm := s.wm.forget }

/-- `EV.RESET` (70 R320): enabled always. -/
def execEvReset (s : State) : Outcome State Fault Refusal := .next (resetCore s)

end Sys2Proof.Machine
end

