-- ==== Sys2Proof/Machine/PixelBuffer.lean ====
section
/-!
DEFINITION. The PixelBuffer operations (40_pixelbuffer.md).
-/

namespace Sys2Proof.Machine

open Host (Outcome)

/-- The effect of a pixel write (R132): out-of-range coordinates are a no-op, and the response is OK in
both cases. -/
def pixelWrite (x y : Half) (v : Bool) (s : State) : State :=
  respond .ok
    (if inRange s.cfg (coord x) (coord y) then
      setPb (setPixel s.cfg s.pb (coord x).toNat (coord y).toNat v) s
    else s)

/-- The effect of a pixel read (R134): an out-of-range pixel reads 0. -/
def pixelRead (x y : Half) (s : State) : State :=
  respond .ok
    (setResult
      (inRange s.cfg (coord x) (coord y) && pixel s.cfg s.pb (coord x).toNat (coord y).toNat) s)

/-- The effect of a fill (R135): every byte is written, whatever it held. -/
def fillPixels (v : Bool) (s : State) : State :=
  respond .ok
    (setPb (s.pb.build s.cfg.bitmapSize fun _ => if v then 0xFF else 0x00) s)

/-- `PB.SET x, y, v` (R132). -/
def execPbSet (x y : Half) (v : Bool) (s : State) : Outcome State Fault Refusal :=
  .next (onCmdPort (encode (.pbSet x y v)) s (pixelWrite x y v s))

/-- `PB.CLRPX x, y` is `PB.SET x, y, 0` (R133). -/
def execPbClrpx (x y : Half) (s : State) : Outcome State Fault Refusal :=
  .next (onCmdPort (encode (.pbClrpx x y)) s (pixelWrite x y false s))

/-- `PB.GET x, y` (R134). -/
def execPbGet (x y : Half) (s : State) : Outcome State Fault Refusal :=
  .next (onCmdPort (encode (.pbGet x y)) s (pixelRead x y s))

/-- `PB.FILL v` (R135). -/
def execPbFill (v : Bool) (s : State) : Outcome State Fault Refusal :=
  .next (onCmdPort (encode (.pbFill v)) s (fillPixels v s))

/-- `PB.CLEAR` is `PB.FILL 0` (R136). -/
def execPbClear (s : State) : Outcome State Fault Refusal :=
  .next (onCmdPort (encode .pbClear) s (fillPixels false s))

end Sys2Proof.Machine
end

