-- ==== Sys2Proof/Machine/Dispatch.lean ====
section
/-! DEFINITION. The dispatch of every operation to its meaning, one arm per constructor of Instr. -/

namespace Sys2Proof.Machine

def exec (i : Instr) (s : State) : Host.Outcome State Fault Refusal :=
  match i with
  | .pbSet x y v => Sys2Proof.Machine.execPbSet x y v s
  | .pbClrpx x y => Sys2Proof.Machine.execPbClrpx x y s
  | .pbGet x y => Sys2Proof.Machine.execPbGet x y s
  | .pbFill v => Sys2Proof.Machine.execPbFill v s
  | .pbClear => Sys2Proof.Machine.execPbClear s
  | .tcStart => Sys2Proof.Machine.execTcStart s
  | .tcAbort => Sys2Proof.Machine.execTcAbort s
  | .tcRelease => Sys2Proof.Machine.execTcRelease s
  | .stIsconn => Sys2Proof.Machine.execStIsconn s
  | .stIsprint => Sys2Proof.Machine.execStIsprint s
  | .stRd a => Sys2Proof.Machine.execStRd a s
  | .ftReorder => Sys2Proof.Machine.execFtReorder s
  | .ftSwap => Sys2Proof.Machine.execFtSwap s
  | .ftInvert => Sys2Proof.Machine.execFtInvert s
  | .ftRun => Sys2Proof.Machine.execFtRun s
  | .bcCompress off n => Sys2Proof.Machine.execBcCompress off n s
  | .feGroups => Sys2Proof.Machine.execFeGroups s
  | .feBuild fr => Sys2Proof.Machine.execFeBuild fr s
  | .feCsum body => Sys2Proof.Machine.execFeCsum body s
  | .feSplit frame mtu k => Sys2Proof.Machine.execFeSplit frame mtu k s
  | .feJob => Sys2Proof.Machine.execFeJob s
  | .ctPrep => Sys2Proof.Machine.execCtPrep s
  | .ctWrite => Sys2Proof.Machine.execCtWrite s
  | .ctWait => Sys2Proof.Machine.execCtWait s
  | .evNotify payload => Sys2Proof.Machine.execEvNotify payload s
  | .evTick => Sys2Proof.Machine.execEvTick s
  | .evReset => Sys2Proof.Machine.execEvReset s

end Sys2Proof.Machine
end

