-- ==== Sys2Proof/Machine/Fetch.lean ====
section
/-!
DEFINITION. How the next packet reaches the machine: the schedule's turns, the commands that wait, and
what a packet that decodes to nothing does (30_encoding.md R91, R104; logs 1, 4).
-/

namespace Sys2Proof.Machine

/-- What a turn comes to: no agent has a step, or a packet is to be run. -/
inductive Fetched where
  | idle (s : State)
  | packet (p : Packet) (s : State)
deriving DecidableEq, Repr

/-- The CMD port takes the oldest of the waiting commands `queue`, if the port is free and there is one
(R91, R333). -/
def takeHeld (queue : List CmdWord) (s : State) : Fetched :=
  if s.cmdBusy then .idle s
  else
    match queue with
    | [] => .idle s
    | w :: rest => .packet (.cmd w) (setHeld rest s)

/-- A packet is offered. A CMD word offered while the port is free goes behind the commands that wait
already, and the oldest is taken ("its own commands take effect in the order issued", 20_memory.md
R69); offered while the port is busy it is run as it stands, and waits (`onCmdPort`, `rejected`). A
micro-operation is no step of any agent: "only `CT.PREP` issues them" (41_format_transformer.md,
30_encoding.md R105), and without `unitAccess` its turn passes (20_memory.md R74; log 5). -/
def offered (p : Packet) (s : State) : Fetched :=
  match p with
  | .cmd w => if s.cmdBusy then .packet (.cmd w) s else takeHeld (s.cmdHeld ++ [w]) s
  | .stat w => .packet (.stat w) s
  | .core label args data =>
    if isMicroLabel label && !s.unitAccess then .idle s else .packet (.core label args data) s

/-- The turn begins: it leaves the schedule and its environment inputs come into force. -/
def beginTurn (t : Turn) (rest : List Turn) (s : State) : State := { s with schedule := rest, env := t.env }

/-- The next turn of the schedule. With an empty schedule no agent moves. -/
def fetch (s : State) : Fetched :=
  match s.schedule with
  | [] => .idle s
  | t :: rest =>
    match t.offer with
    | .packet p => offered p (beginTurn t rest s)
    | .waiting => takeHeld s.cmdHeld (beginTurn t rest s)

/-- A packet that decodes to no operation (R104): on the CMD port the answer is IllegalCommand, once the
port is free; on the STAT port it is data 0 and nothing else changes; a label that names no step is
refused (log 17). -/
def rejected (p : Packet) (s : State) : Host.Outcome State Fault Refusal :=
  match p with
  | .cmd w => .next (onCmdPort (.cmd w) s (respond .illegalCommand s))
  | .stat _ => .next (answerStat 0 s)
  | .core _ _ _ => .refused .unassignedLabel

/-- `s` with packet `p` offered by the very next turn, under the environment inputs in force, with no older
command before it, and with access to the units where the packet is a micro-operation. -/
def offerFirst (p : Packet) (s : State) : State :=
  match p with
  | .cmd w => { s with schedule := ⟨s.env, .packet (.cmd w)⟩ :: s.schedule, cmdHeld := [] }
  | .stat w => { s with schedule := ⟨s.env, .packet (.stat w)⟩ :: s.schedule }
  | .core label args data =>
    { s with
      schedule := ⟨s.env, .packet (.core label args data)⟩ :: s.schedule
      unitAccess := isMicroLabel label || s.unitAccess }

end Sys2Proof.Machine
end

