-- ==== Sys2Proof/Machine/Step.lean ====
section
/-! DEFINITION. One step of the machine, and the host's way to offer it one table word. -/

namespace Sys2Proof.Machine

/-- Run a packet: decode it and give it its meaning, or reject it (30_encoding.md R104). -/
def runPacket (p : Packet) (s : State) : Host.Outcome State Fault Refusal :=
  match decode p with
  | .ok i => exec i s
  | .error _ => rejected p s

/-- One step (00_scope.md R13): the next turn of the schedule. A configuration that breaks R8 or R9 is
refused (log 13). -/
def step (s : State) : Host.Outcome State Fault Refusal :=
  if s.cfg.legal then
    match fetch s with
    | .idle s' => .next s'
    | .packet p s' => runPacket p s'
  else .refused .illegalConfig

/-- `s` with the instruction of a table word offered by the very next turn (log 1). -/
def State.withFetchWord (s : State) (nbits w : Nat) : State :=
  match tablePacket nbits w with
  | some p => offerFirst p s
  | none => s

end Sys2Proof.Machine
end

