-- ==== Sys2Proof/Safety.lean ====
section
/-!
DEFINITION. What counts as a good state and a good run, in the terms the claims use.
-/

namespace Sys2Proof.Machine

open Host (Outcome)

/-! ## Memories -/

/-- Every memory is in its canonical form. -/
def State.memoriesWf (s : State) : Prop :=
  s.pb.wf = true ∧ s.tb.wf = true ∧ s.cb.wf = true ∧ s.wm.wf s.cfg.codec = true

/-! ## The invariants of 10_state.md R43 -/

/-- The sum of a byte sequence modulo 256 (43_frame_encoder.md R206). -/
def byteSum (bytes : List Byte) : Nat := (bytes.map BitVec.toNat).sum % 256

/-- A byte sequence that a job may hold as a logical frame: it sums to 0 modulo 256 (R43 i), holds at
least the 20 bytes around an empty payload and fits the 16-bit counters (30_encoding.md R110,
00_scope.md R9). -/
structure GoodFrame (f : Frame) : Prop where
  sum_zero : byteSum f = 0
  long_enough : 20 ≤ f.length
  short_enough : f.length ≤ 65535

/-- The job invariants of 10_state.md R43, with the bounds of R25 and R36 that make them inductive, and what
the rules of 44_transmission_controller.md keep true of Preparing and of the pacing delay. -/
structure JobInv (s : State) : Prop where
  /-- R43 (a) -/
  cause_iff_failed : s.cause ≠ .ok ↔ s.phase = .failed
  /-- R43 (b) -/
  ack_flag_awaiting : s.ackFlag = true → s.phase = .awaitingAck
  /-- R43 (c); in every state `NFRAMES` is the length of `FRAMES` (R29) -/
  frames_counted : s.frames.length = s.nframes.toNat
  /-- R43 (c) -/
  frames_nonempty : s.phase = .sending ∨ s.phase = .awaitingAck → 1 ≤ s.nframes.toNat
  /-- R36: `MTU_L ≥ 1` whenever a job is or was in hand; R43 (c) -/
  mtu_known : s.phase ≠ .idle → 1 ≤ s.mtuL.toNat
  /-- R43 (d) -/
  sending_position : s.phase = .sending →
    ∃ f, s.frames[s.cur.toNat]? = some f ∧ s.sub.toNat < nslices f s.mtuL.toNat
  /-- R43 (e), `ACK_FLAG = 0` -/
  awaiting_position : s.phase = .awaitingAck → s.ackFlag = false →
    ∃ f, s.frames[s.cur.toNat]? = some f ∧ s.sub.toNat = nslices f s.mtuL.toNat
  /-- R43 (e), `ACK_FLAG = 1` -/
  acknowledged_position : s.phase = .awaitingAck → s.ackFlag = true →
    1 ≤ s.cur.toNat ∧ s.cur.toNat ≤ s.nframes.toNat
  /-- R43 (f) -/
  completed_position : s.phase = .completed → s.cur = s.nframes ∧ 1 ≤ s.nframes.toNat
  /-- R43 (g) -/
  idle_empty : s.phase = .idle →
    s.nframes = 0 ∧ s.cur = 0 ∧ s.sub = 0 ∧ s.frames = [] ∧ s.paceTimer = 0
  /-- 44_transmission_controller.md R233: no frame is there before `CT.PREP` has built one -/
  preparing_empty : s.phase = .preparing → s.nframes = 0 ∧ s.cur = 0 ∧ s.sub = 0 ∧ s.frames = []
  /-- R235, R236, R246 and 60_exceptions.md R290: only between two writes of a batch is a pacing delay on -/
  pace_sending : s.phase ≠ .sending → s.paceTimer = 0
  /-- R43 (i) -/
  frames_good : ∀ f ∈ s.frames, GoodFrame f
  /-- R25: `NFRAMES ≤ W ≤ 32767` -/
  frames_few : s.nframes.toNat ≤ 32767

/-! ## Compressors -/

/-- The decoder that 42_block_compressor.md R175 (d) asks of every `LZ`. -/
def decoderOf : Codec → List Byte → Option (List Byte)
  | .refLz => unlz
  | .refLzUpTo _ => unlz
  | .custom k => Config.customUnlz k

/-! ## Codes that registers may hold -/

/-- The codes `CAUSE` may hold (10_state.md R28). -/
def Code.isCause : Code → Bool
  | .ok => true
  | .allocationFailure => true
  | .compressionFailure => true
  | .ackTimeout => true
  | .writeFailure => true
  | .emptyFrameList => true
  | .aborted => true
  | .noTransport => false
  | .jobInProgress => false
  | .illegalCommand => false
  | .noEffect => false

/-- The codes `RESP` may hold (10_state.md R24). -/
def Code.isResponse : Code → Bool
  | .ok => true
  | .noTransport => true
  | .jobInProgress => true
  | .illegalCommand => true
  | .noEffect => true
  | .allocationFailure => false
  | .compressionFailure => false
  | .ackTimeout => false
  | .writeFailure => false
  | .emptyFrameList => false
  | .aborted => false

/-! ## Pixels as the spec speaks of them -/

/-- `get(PB, x, y)` for signed coordinates: an out-of-range pixel reads 0 (40_pixelbuffer.md R134). -/
def State.getPixel (s : State) (x y : Half) : Bool :=
  inRange s.cfg (coord x) (coord y) && pixel s.cfg s.pb (coord x).toNat (coord y).toNat

/-- Both coordinates are in range (40_pixelbuffer.md R131). -/
def State.pixelExists (s : State) (x y : Half) : Prop := inRange s.cfg (coord x) (coord y) = true

/-- `m` is `PB` after `PB.SET x, y, v` in `s` (40_pixelbuffer.md R132): the same when the pixel is out of
range; otherwise every byte but the pixel's own is the same, and in that byte only the pixel's bit is
set or cleared. -/
def PixelWritten (s : State) (x y : Half) (v : Bool) (m : Memory) : Prop :=
  (¬s.pixelExists x y → m = s.pb) ∧
  (s.pixelExists x y →
    (∀ a, a ≠ pixelByte s.cfg (coord x).toNat (coord y).toNat → m.read .pb a = s.pb.read .pb a) ∧
    m.read .pb (pixelByte s.cfg (coord x).toNat (coord y).toNat) =
      if v then s.pb.read .pb (pixelByte s.cfg (coord x).toNat (coord y).toNat) |||
          pixelMask s.cfg (coord x).toNat (coord y).toNat
      else s.pb.read .pb (pixelByte s.cfg (coord x).toNat (coord y).toNat) &&&
          (0xFF ^^^ pixelMask s.cfg (coord x).toNat (coord y).toNat))

/-! ## The opcode map as 30_encoding.md R103 prints it -/

/-- The `match` and `mask` columns of the CMD rows, in the order of R103. -/
def cmdRows : List (CmdWord × CmdWord) :=
  [(0x1000000000000000, 0xFFFEFFFF00000000), (0x1100000000000000, 0xFFFFFFFF00000000),
   (0x1200000000000000, 0xFFFEFFFFFFFFFFFF), (0x2000000000000000, 0xFFFFFFFFFFFFFFFF),
   (0x2100000000000000, 0xFFFFFFFFFFFFFFFF), (0x2200000000000000, 0xFFFFFFFFFFFFFFFF)]

/-- The `match` and `mask` columns of the STAT rows, in the order of R103. -/
def statRows : List (CmdWord × CmdWord) :=
  [(0x3000000000000000, 0xFFFFFFFFFFFFFFFF), (0x3100000000000000, 0xFFFFFFFFFFFFFFFF),
   (0x3200000000000000, 0xFFFFFF00FFFFFFFF)]

/-- "a word `w` selects the row iff `w AND mask = match`" (R103). -/
def selects (w : CmdWord) (row : CmdWord × CmdWord) : Prop := w &&& row.2 = row.1

/-- The opcodes R104 lists as unassigned and reserved: 0x00 to 0x0F, 0x13 to 0x1F, 0x23 to 0x2F and 0x33
to 0xFF. -/
def reservedOpcode (n : Nat) : Prop :=
  n ≤ 0x0F ∨ (0x13 ≤ n ∧ n ≤ 0x1F) ∨ (0x23 ≤ n ∧ n ≤ 0x2F) ∨ (0x33 ≤ n ∧ n ≤ 0xFF)

/-- Operation `i` has the trace label `label` and is "not host-issuable" (30_encoding.md R105): no word of
either port names it. -/
def LabelOnly (label : Byte) (i : Instr) : Prop :=
  decode (.core label 0 []) = .ok i ∧ ∀ w, decode (.cmd w) ≠ .ok i ∧ decode (.stat w) ≠ .ok i

/-! ## Transitions of STATE (44_transmission_controller.md R244) -/

/-- The rows of R244 in which `STATE` changes: an operation taken in `s` that leads to `t`. -/
inductive Transition (s t : State) : Instr → Prop where
  /-- an accepted start -/
  | start : s.phase = .idle → s.env.linkReady = true → 1 ≤ s.env.mtu.toNat → t.phase = .preparing →
      t.jobId = s.jobId + 1 → t.mtuL = s.env.mtu → Transition s t .tcStart
  /-- the frames are built -/
  | prepared : s.phase = .preparing → s.env.allocOk = true → 1 ≤ groupCount s.cfg →
      (∀ g ∈ groupsOf s.cfg,
        compressedRange (g.col0 * s.cfg.bpc) (g.width * s.cfg.bpc) (transform s) ≠ none) →
      t.frames.length = groupCount s.cfg →
      t.phase = .sending → t.cur = 0 → t.sub = 0 → Transition s t .ctPrep
  /-- preparation fails for want of memory -/
  | noAllocation : s.phase = .preparing → s.env.allocOk = false → t.phase = .failed →
      t.cause = .allocationFailure → Transition s t .ctPrep
  /-- preparation fails because `LZ` failed -/
  | noCompression : s.phase = .preparing → s.env.allocOk = true →
      (∃ g ∈ groupsOf s.cfg,
        compressedRange (g.col0 * s.cfg.bpc) (g.width * s.cfg.bpc) (transform s) = none) →
      t.phase = .failed → t.cause = .compressionFailure → Transition s t .ctPrep
  /-- preparation finds no group -/
  | noFrames : s.phase = .preparing → s.env.allocOk = true → groupCount s.cfg = 0 →
      t.phase = .failed → t.cause = .emptyFrameList → Transition s t .ctPrep
  /-- the last slice of a batch is written -/
  | batchWritten (f : Frame) : s.phase = .sending → s.env.txOk = true →
      s.frames[s.cur.toNat]? = some f → s.sub.toNat + 1 = nslices f s.mtuL.toNat →
      t.phase = .awaitingAck → t.ackTimer = 0 → Transition s t .ctWrite
  /-- a write fails -/
  | writeFailed : s.phase = .sending → s.env.txOk = false → t.phase = .failed →
      t.cause = .writeFailure → Transition s t .ctWrite
  /-- the host aborts -/
  | aborted : s.phase = .sending ∨ s.phase = .awaitingAck → t.phase = .failed →
      t.cause = .aborted → Transition s t .tcAbort
  /-- the acknowledgement is consumed, more frames remain -/
  | nextFrame : s.phase = .awaitingAck → s.ackFlag = true → s.cur ≠ s.nframes →
      t.phase = .sending → t.sub = 0 → Transition s t .ctWait
  /-- the acknowledgement is consumed, none remains -/
  | allSent : s.phase = .awaitingAck → s.ackFlag = true → s.cur = s.nframes →
      t.phase = .completed → Transition s t .ctWait
  /-- the deadline is over -/
  | timedOut : s.phase = .awaitingAck → s.ackFlag = false → deadlineOver s = true →
      t.phase = .failed → t.cause = .ackTimeout → Transition s t .ctWait
  /-- the terminal state is released -/
  | released : s.phase = .completed ∨ s.phase = .failed → t.phase = .idle → t.frames = [] →
      Transition s t .tcRelease
  /-- reset -/
  | reset : t.phase = .idle → Transition s t .evReset

/-! ## Transformed bits -/

/-- Bit `b` of a byte, `b` counted from the least significant (00_scope.md R11). -/
def bitOf (v : Byte) (b : Nat) : Bool := v.getLsbD b

/-- The bytes of group `g` in `TB` (43_frame_encoder.md R203). -/
def groupBytes (g : Group) (s : State) : List Byte :=
  s.tb.readBytes .tb (g.col0 * s.cfg.bpc) (g.width * s.cfg.bpc)

/-! ## Runs of one operation -/

/-- `n` steps of one operation from `s`, all of which lead on; the last state, if so. -/
def repeatInstr (i : Instr) : Nat → State → Option State
  | 0, s => some s
  | n + 1, s =>
    match exec i s with
    | .next t => repeatInstr i n t
    | .fault _ => none
    | .refused _ => none

end Sys2Proof.Machine
end

