-- ==== Sys2Proof/Certificates/Slice0/Obligations.lean ====
section
/-!
DEFINITION. The statements for the provers. Each docstring says which sentence of the spec it
formalises, or that it is the model's own choice and which log entry says so. A next state written
`{ s with … }` says the frame as well: every field it does not name is that of `s`.
-/

open Sys2Proof Sys2Proof.Machine

/-! ## Encoding -/

/-- 30_encoding.md R101 to R103, R105, R108: no operand bit is dropped on the way out and in. The words
of the two pseudo-instructions are those of their core operation (R108, log 15); the place of the
operands of a labelled operation is the model's (log 6). -/
def Obligations.DecodeEncodeRoundTrip : Prop :=
  (∀ i : Instr, decode (encode i) = .ok i.canonical) ∧
  (∀ i : Instr, i.wellFormed = true → (∀ x y, i ≠ .pbClrpx x y) → i ≠ .pbClear →
    decode (encode i) = .ok i) ∧
  (∀ x y, (Instr.pbClrpx x y).canonical = .pbSet x y false) ∧
  Instr.pbClear.canonical = .pbFill false

/-- 30_encoding.md R103 to R105: every packet that names an operation is the one the encoder writes for
it, so no two packets name the same operation and no bit is ignored. -/
def Obligations.EncodeOfDecodedPacket : Prop :=
  ∀ (p : Packet) (i : Instr), decode p = .ok i → encode i = p

/-- 30_encoding.md R103: the nine rows by their printed match and mask, each on its port, and no word
selects two of them. -/
def Obligations.OpcodeMapSelectsRows : Prop :=
  (∀ w : CmdWord,
    ((∃ x y v, decode (.cmd w) = .ok (.pbSet x y v)) ↔
      selects w (0x1000000000000000, 0xFFFEFFFF00000000)) ∧
    ((∃ x y, decode (.cmd w) = .ok (.pbGet x y)) ↔
      selects w (0x1100000000000000, 0xFFFFFFFF00000000)) ∧
    ((∃ v, decode (.cmd w) = .ok (.pbFill v)) ↔
      selects w (0x1200000000000000, 0xFFFEFFFFFFFFFFFF)) ∧
    (decode (.cmd w) = .ok .tcStart ↔ selects w (0x2000000000000000, 0xFFFFFFFFFFFFFFFF)) ∧
    (decode (.cmd w) = .ok .tcAbort ↔ selects w (0x2100000000000000, 0xFFFFFFFFFFFFFFFF)) ∧
    (decode (.cmd w) = .ok .tcRelease ↔ selects w (0x2200000000000000, 0xFFFFFFFFFFFFFFFF)) ∧
    (decode (.stat w) = .ok .stIsconn ↔ selects w (0x3000000000000000, 0xFFFFFFFFFFFFFFFF)) ∧
    (decode (.stat w) = .ok .stIsprint ↔ selects w (0x3100000000000000, 0xFFFFFFFFFFFFFFFF)) ∧
    ((∃ a, decode (.stat w) = .ok (.stRd a)) ↔
      selects w (0x3200000000000000, 0xFFFFFF00FFFFFFFF))) ∧
  (cmdRows ++ statRows).Pairwise fun r r' => ∀ w, ¬(selects w r ∧ selects w r')

/-- 30_encoding.md R104: what an illegal word does on each port, at every time (while the CMD port is busy
it is not answered: no field of the CORE changes), and that the reserved opcodes select no row. -/
def Obligations.IllegalWordsAnswered : Prop :=
  ∀ (w : CmdWord) (s : State),
    ((∀ r ∈ cmdRows, ¬selects w r) → s.phase ≠ .preparing →
      runPacket (.cmd w) s = .next { s with resp := .illegalCommand }) ∧
    ((∀ r ∈ cmdRows, ¬selects w r) → s.phase = .preparing →
      ∃ t, runPacket (.cmd w) s = .next t ∧ t = { s with cmdHeld := t.cmdHeld }) ∧
    ((∀ r ∈ statRows, ¬selects w r) → runPacket (.stat w) s = .next { s with statData := 0 }) ∧
    (reservedOpcode (w.toNat / 2 ^ 56) → ∀ r ∈ cmdRows ++ statRows, ¬selects w r)

/-- 95_test_vectors.md section 2.6 and the labels of 30_encoding.md R105: a few words written out. That the
payload of `EV.NOTIFY` stands beside its label is the model's (log 6). -/
def Obligations.SpecWordsDecode : Prop :=
  decode (.cmd 0x1001000000030002) = .ok (.pbSet 3 2 true) ∧
  decode (.cmd 0x10010000FFFF0000) = .ok (.pbSet (-1) 0 true) ∧
  decode (.cmd 0x1100000080000000) = .ok (.pbGet 0x8000 0) ∧
  decode (.cmd 0x1201000000000000) = .ok (.pbFill true) ∧
  decode (.cmd 0x2000000000000000) = .ok .tcStart ∧
  decode (.stat 0x3200002300000000) = .ok (.stRd 0x23) ∧
  decode (.core 0x60 0 []) = .ok .ctPrep ∧
  decode (.core 0x70 0 [0xAA, 0x55]) = .ok (.evNotify [0xAA, 0x55])

/-! ## Steps -/

/-- 00_scope.md R13 and log 1: when the next turn offers a packet that decodes to an operation, the step
is that operation, taken after the turn has left the schedule and its environment inputs are in force.
(A CMD word that finds older commands waiting is covered by `WaitingCommandsAreTaken`.) A micro-operation
is a step only with access to the units; without it, as in every run from reset, its turn passes, since
only `CT.PREP` issues micro-operations (30_encoding.md R105, 20_memory.md R74). Both are the model's form
(log 5). -/
def Obligations.StepRunsDecodedInstruction : Prop :=
  ∀ (s : State) (e : Env) (p : Packet) (rest : List Turn) (i : Instr),
    s.cfg.legal = true → s.schedule = ⟨e, .packet p⟩ :: rest → decode p = .ok i →
    (∀ w, p = .cmd w → s.cmdHeld = [] ∨ s.phase = .preparing) →
    (p.isMicro = false ∨ s.unitAccess = true →
      step s = exec i { s with schedule := rest, env := e }) ∧
    (p.isMicro = true → s.unitAccess = false →
      step s = .next { s with schedule := rest, env := e })

/-- 00_scope.md R8, "A configuration that breaks a constraint is refused", and log 1 for the empty
schedule, in which no agent moves. -/
def Obligations.StepWithoutTurnOrConfig : Prop :=
  ∀ s : State,
    (s.cfg.legal = false → step s = .refused .illegalConfig) ∧
    (s.cfg.legal = true → s.schedule = [] → step s = .next s)

/-- 44_transmission_controller.md R232 and 70_reset_and_hazards.md R333: while `STATE = Preparing` no
command of the CMD port acts; each waits with nothing else changed. That the waiting words stand in a
queue is the model's (log 4). -/
def Obligations.CommandsWaitWhilePreparing : Prop :=
  ∀ (s : State), s.phase = .preparing → ∀ (i : Instr) (w : CmdWord), encode i = .cmd w →
    exec i s = .next { s with cmdHeld := s.cmdHeld ++ [w] }

/-- 70_reset_and_hazards.md R333 and 20_memory.md R69 ("its own commands take effect in the order
issued"), in the form of log 4: once the port is free a waiting command is run, the oldest first, and a
word offered meanwhile goes behind the others. -/
def Obligations.WaitingCommandsAreTaken : Prop :=
  ∀ (s : State) (e : Env) (rest : List Turn) (w : CmdWord) (queue : List CmdWord),
    s.cfg.legal = true → s.phase ≠ .preparing → s.cmdHeld = w :: queue →
    (s.schedule = ⟨e, .waiting⟩ :: rest →
      step s = runPacket (.cmd w) { s with schedule := rest, env := e, cmdHeld := queue }) ∧
    (∀ w', s.schedule = ⟨e, .packet (.cmd w')⟩ :: rest →
      step s = runPacket (.cmd w) { s with schedule := rest, env := e, cmdHeld := queue ++ [w'] })

/-! ## PixelBuffer -/

/-- 40_pixelbuffer.md R132: encoding, effect and frame of `PB.SET`, and the property the document states
of it. -/
def Obligations.PbSetWritesOnePixel : Prop :=
  ∀ (s : State) (x y : Half) (v : Bool), s.phase ≠ .preparing →
    decode (.cmd (cmdWordOf ⟨0x10, 0, v, 0, 0, x, y⟩)) = .ok (.pbSet x y v) ∧
    ∃ m, exec (.pbSet x y v) s = .next { s with pb := m, resp := .ok } ∧ PixelWritten s x y v m ∧
      (s.pixelExists x y → State.getPixel { s with pb := m } x y = v) ∧
      (s.pixelExists x y → v = s.getPixel x y → ∀ a, m.read .pb a = s.pb.read .pb a)

/-- 40_pixelbuffer.md R133: `PB.CLRPX x, y` is `PB.SET x, y, 0`, in its words and in its effect. -/
def Obligations.PbClrpxClearsOnePixel : Prop :=
  ∀ (s : State) (x y : Half), s.phase ≠ .preparing →
    encode (.pbClrpx x y) = encode (.pbSet x y false) ∧
    ∃ m, exec (.pbClrpx x y) s = .next { s with pb := m, resp := .ok } ∧ PixelWritten s x y false m ∧
      exec (.pbClrpx x y) s = exec (.pbSet x y false) s

/-- 40_pixelbuffer.md R134: the pixel in range, 0 out of range, the response OK in both cases, and `PB`
unchanged. What an in-range read of a byte that nothing has written gives is a free value (log 7). -/
def Obligations.PbGetReadsOnePixel : Prop :=
  ∀ (s : State) (x y : Half), s.phase ≠ .preparing →
    ∃ bit, exec (.pbGet x y) s = .next { s with result := bit, resp := .ok } ∧
      (¬s.pixelExists x y → bit = false) ∧
      (s.pixelExists x y →
        bit = (s.pb.read .pb (((coord y).toNat * s.cfg.w + (coord x).toNat) / 8)).getLsbD
          (7 - ((coord y).toNat * s.cfg.w + (coord x).toNat) % 8))

/-- 40_pixelbuffer.md R135: every byte is written, whatever it held; after it every in-range pixel is
`v` and every out-of-range one reads 0. -/
def Obligations.PbFillWritesEveryByte : Prop :=
  ∀ (s : State) (v : Bool), s.phase ≠ .preparing →
    decode (.cmd (cmdWordOf ⟨0x12, 0, v, 0, 0, 0, 0⟩)) = .ok (.pbFill v) ∧
    (∀ x y, x ≠ 0 ∨ y ≠ 0 →
      decode (.cmd (cmdWordOf ⟨0x12, 0, v, 0, 0, x, y⟩)) = .error .nonzeroUnused) ∧
    ∃ m, exec (.pbFill v) s = .next { s with pb := m, resp := .ok } ∧
      (∀ a, a < s.cfg.bitmapSize → m.read .pb a = if v then 0xFF else 0x00) ∧
      (s.cfg.legal = true → ∀ x y,
        (s.pixelExists x y → State.getPixel { s with pb := m } x y = v) ∧
        (¬s.pixelExists x y → State.getPixel { s with pb := m } x y = false))

/-- 40_pixelbuffer.md R136: `PB.CLEAR` is `PB.FILL 0`, in its word and in its effect. -/
def Obligations.PbClearBlanksEveryByte : Prop :=
  ∀ s : State, s.phase ≠ .preparing →
    encode .pbClear = encode (.pbFill false) ∧
    ∃ m, exec .pbClear s = .next { s with pb := m, resp := .ok } ∧
      exec .pbClear s = exec (.pbFill false) s ∧
      (∀ a, a < s.cfg.bitmapSize → m.read .pb a = 0x00) ∧
      (s.cfg.legal = true → ∀ x y, State.getPixel { s with pb := m } x y = false)

/-- 40_pixelbuffer.md R137: a pixel written is the pixel read, other pixels are left, writes to different
pixels commute, writing twice is writing once, and different pixels have different places. -/
def Obligations.PixelLaws : Prop :=
  ∀ (s : State) (x y x' y' : Half) (v v' : Bool), s.phase ≠ .preparing →
    s.pixelExists x y → s.pixelExists x' y' →
    ∃ m m1 m2 m3 m4,
      exec (.pbSet x y v) s = .next { s with pb := m, resp := .ok } ∧
      State.getPixel { s with pb := m } x y = v ∧
      ((x', y') ≠ (x, y) → State.getPixel { s with pb := m } x' y' = s.getPixel x' y') ∧
      exec (.pbSet x y v) { s with pb := m } = .next { s with pb := m1, resp := .ok } ∧
      (∀ a, m1.read .pb a = m.read .pb a) ∧
      exec (.pbSet x' y' v') { s with pb := m } = .next { s with pb := m2, resp := .ok } ∧
      exec (.pbSet x' y' v') s = .next { s with pb := m3, resp := .ok } ∧
      exec (.pbSet x y v) { s with pb := m3 } = .next { s with pb := m4, resp := .ok } ∧
      ((x', y') ≠ (x, y) → ∀ a, m2.read .pb a = m4.read .pb a) ∧
      ((x', y') ≠ (x, y) →
        (pixelByte s.cfg (coord x').toNat (coord y').toNat,
          pixelMask s.cfg (coord x').toNat (coord y').toNat) ≠
        (pixelByte s.cfg (coord x).toNat (coord y).toNat,
          pixelMask s.cfg (coord x).toNat (coord y).toNat))

/-! ## FormatTransformer -/

/-- 41_format_transformer.md R151: where each pixel goes in stage 1, that no bit of `TB` is left over,
and that nothing but `TB` changes. -/
def Obligations.ReorderPlacesEveryPixel : Prop :=
  LabelOnly 0x40 .ftReorder ∧
  ∀ s : State, s.cfg.legal = true →
    ∃ m, exec .ftReorder s = .next { s with tb := m } ∧
      (∀ x y, x < s.cfg.w → y < s.cfg.h →
        bitOf (m.read .tb (x * s.cfg.bpc + (s.cfg.h - 1 - y) / 8)) ((s.cfg.h - 1 - y) % 8) =
          pixel s.cfg s.pb x y) ∧
      (∀ i k, i < s.cfg.bitmapSize → k < 8 → ∃ x y, x < s.cfg.w ∧ y < s.cfg.h ∧
        i = x * s.cfg.bpc + (s.cfg.h - 1 - y) / 8 ∧ k = (s.cfg.h - 1 - y) % 8)

/-- 41_format_transformer.md R152: bytes `i` and `i + 1` are exchanged for every even `i`, and twice is
the original. -/
def Obligations.SwapExchangesBytePairs : Prop :=
  LabelOnly 0x41 .ftSwap ∧
  ∀ s : State, s.cfg.legal = true →
    ∃ m, exec .ftSwap s = .next { s with tb := m } ∧
      (∀ i, i % 2 = 0 → i + 1 < s.cfg.bitmapSize →
        m.read .tb i = s.tb.read .tb (i + 1) ∧ m.read .tb (i + 1) = s.tb.read .tb i) ∧
      s.cfg.bitmapSize % 2 = 0 ∧ s.cfg.bpc % 2 = 0 ∧
      ∃ m', exec .ftSwap { s with tb := m } = .next { s with tb := m' } ∧
        ∀ i, i < s.cfg.bitmapSize → m'.read .tb i = s.tb.read .tb i

/-- 41_format_transformer.md R153: every byte is complemented, twice is the original, and it commutes
with the byte-pair swap. -/
def Obligations.InvertComplementsEveryByte : Prop :=
  LabelOnly 0x42 .ftInvert ∧
  ∀ s : State, s.cfg.legal = true →
    ∃ m, exec .ftInvert s = .next { s with tb := m } ∧
      (∀ i, i < s.cfg.bitmapSize → m.read .tb i = s.tb.read .tb i ^^^ 0xFF) ∧
      (∃ m', exec .ftInvert { s with tb := m } = .next { s with tb := m' } ∧
        ∀ i, i < s.cfg.bitmapSize → m'.read .tb i = s.tb.read .tb i) ∧
      ∀ i, i < s.cfg.bitmapSize →
        (swapStage (invertStage s)).tb.read .tb i = (invertStage (swapStage s)).tb.read .tb i

/-- 41_format_transformer.md R154, the closed form: every bit of `TB` is the complement of one pixel, at
the place the three stages give it; and two pixel buffers that give the same `TB` are the same. -/
def Obligations.TransformClosedForm : Prop :=
  ∀ s : State, s.cfg.legal = true →
    ∃ m, exec .ftRun s = .next { s with tb := m } ∧
      (∀ x y, x < s.cfg.w → y < s.cfg.h →
        bitOf (m.read .tb (x * s.cfg.bpc + ((s.cfg.h - 1 - y) / 8 ^^^ 1))) ((s.cfg.h - 1 - y) % 8) =
          !pixel s.cfg s.pb x y) ∧
      ∀ (p m' : Memory), exec .ftRun { s with pb := p } = .next { s with pb := p, tb := m' } →
        (∀ i, i < s.cfg.bitmapSize → m'.read .tb i = m.read .tb i) →
        ∀ a, a < s.cfg.bitmapSize → p.read .pb a = s.pb.read .pb a

/-! ## BlockCompressor -/

/-- 42_block_compressor.md R170, for every `LZ`: every range inside `TB` is compressed; on `Ok` the stream stands in `CB` with its length in `CB_LEN` and the rest of `CB`
is unchanged, and on `Fail`, or a stream over the bound, the call fails. `TB` and every register stay.
What it returned is reported in the model's own field (log 5). A range that leaves `TB` touches bytes
that do not exist: the model's reading of the operand contract `off + n ≤ BITMAP_SIZE` (log 11). -/
def Obligations.CompressStoresBlock : Prop :=
  (∀ (s : State) (off n : Half), s.cfg.bitmapSize < off.toNat + n.toNat →
    exec (.bcCompress off n) s = .fault .rangeOutsideTb) ∧
  ∀ (s : State) (off n : Half), off.toNat + n.toNat ≤ s.cfg.bitmapSize →
    ∃ cb cbLen wm ok,
      exec (.bcCompress off n) s =
        .next { s with cb := cb, cbLen := cbLen, wm := wm, uop := .compressed ok } ∧
      (∀ r, (runLz s.cfg.codec (s.tb.readBytes .tb off.toNat n.toNat)).1 = some r →
        r.length ≤ maxCompressedSize n.toNat →
        ok = true ∧ cbLen = r.length ∧ cb.readBytes .cb 0 cbLen = r ∧
        ∀ a, r.length ≤ a → cb.read .cb a = s.cb.read .cb a) ∧
      ((∀ r, (runLz s.cfg.codec (s.tb.readBytes .tb off.toNat n.toNat)).1 = some r →
        maxCompressedSize n.toNat < r.length) → ok = false)

/-- 42_block_compressor.md R174: whatever was compressed before, in whatever state, equal input bytes
give equal outcomes, for every `LZ`. R174 speaks of the result alone: that the outcome is reported in the
field `uop` is the model's (log 5), and so is that the entries left in `WM` are a function of the input,
which for an `LZ` other than REF-LZ is the model's choice (log 9). -/
def Obligations.CompressorIsStateless : Prop :=
  ∀ (s t s' t' : State) (off off' n : Half),
    s.cfg = t.cfg →
    s.tb.readBytes .tb off.toNat n.toNat = t.tb.readBytes .tb off'.toNat n.toNat →
    exec (.bcCompress off n) s = .next s' → exec (.bcCompress off' n) t = .next t' →
    s'.uop = t'.uop ∧
    (∀ e, e < s.cfg.codec.entries → s'.wm.read s.cfg.codec e = t'.wm.read s.cfg.codec e) ∧
    (s'.uop = .compressed true →
      s'.cbLen = t'.cbLen ∧ blockPayload s' = blockPayload t')

/-- 42_block_compressor.md R183: the decoder gives back every input REF-LZ accepts. -/
def Obligations.RefLzRoundTrip : Prop :=
  ∀ input : List Byte, input.length ≤ 65535 →
    ∃ stream, (refLz input).1 = some stream ∧ unlz stream = some input

/-- 42_block_compressor.md R184: REF-LZ's streams are at most `n + floor(n/128) + 1` bytes, so they meet
the bound of R172. -/
def Obligations.RefLzMeetsBound : Prop :=
  ∀ input stream : List Byte, (refLz input).1 = some stream →
    stream.length ≤ input.length + input.length / 128 + 1 ∧
    stream.length ≤ maxCompressedSize input.length

/-- 42_block_compressor.md R185: REF-LZ fails exactly on inputs longer than 65535, and so, in a legal
configuration, never in a job. -/
def Obligations.RefLzFailsOnlyWhenTooLong : Prop :=
  (∀ input : List Byte, (refLz input).1 = none ↔ 65535 < input.length) ∧
  ∀ s t : State, s.cfg.legal = true → s.cfg.codec = .refLz → s.cause ≠ .compressionFailure →
    exec .ctPrep s = .next t → t.cause ≠ .compressionFailure

/-! ## FrameEncoder -/

/-- 43_frame_encoder.md R201, R202: the column groups of a legal configuration. What `FE.GROUPS` returned is
reported in the model's own field (log 5). -/
def Obligations.GroupLaws : Prop :=
  ∀ s : State, s.cfg.legal = true →
    ∃ gs, exec .feGroups s = .next { s with uop := .groups gs } ∧
      gs.length = (s.cfg.w + s.cfg.chunkW - 1) / s.cfg.chunkW ∧ 1 ≤ gs.length ∧
      (gs.map Group.width).sum = s.cfg.w ∧
      (∀ g, (h : g < gs.length) →
        gs[g].col0 = g * s.cfg.chunkW ∧ gs[g].fr = gs.length - 1 - g ∧
        1 ≤ gs[g].width ∧ gs[g].width ≤ s.cfg.chunkW ∧
        (g + 1 < gs.length → gs[g].width = s.cfg.chunkW) ∧
        (g + 1 = gs.length → gs[g].col0 + gs[g].width = s.cfg.w) ∧
        (typeMarker s.cfg gs[g].fr = s.cfg.typeFinal ↔ g + 1 = gs.length)) ∧
      (∀ g, (h : g + 1 < gs.length) → gs[g + 1].col0 = gs[g].col0 + gs[g].width)

/-- 43_frame_encoder.md R204 and 30_encoding.md R110, R111: the frame, field by field. `CB` is only read,
and no register changes. What `FE.BUILD` returned is reported in the model's own field (log 5). The
length field of a block too long for it, which R204 excludes, is a free value (log 23). -/
def Obligations.FrameLayout : Prop :=
  ∀ (s : State) (fr : Half),
    ∃ f, exec (.feBuild fr) s = .next { s with uop := .frame f } ∧
      f.length = s.cbLen + 20 ∧
      f[0]? = some 0x66 ∧
      (s.cbLen + 17 ≤ 65535 → (f.drop 1).take 2 = le16 (s.cbLen + 17)) ∧
      (f.drop 3).take 8 = s.cfg.deviceId.toList ∧
      (f.drop 11).take 2 = le16 s.jobId.toNat ∧
      f[13]? = some (if fr = 0 then s.cfg.typeFinal else s.cfg.typeData) ∧
      (f.drop 14).take 2 = (if s.cfg.frBigEndian then be16 fr.toNat else le16 fr.toNat) ∧
      (f.drop 16).take s.cbLen = s.cb.readBytes .cb 0 s.cbLen ∧
      (f.drop (16 + s.cbLen)).take 3 = s.cfg.endMarker.toList ∧
      ∃ sum, f[19 + s.cbLen]? = some sum ∧
        sum.toNat = (256 - byteSum (f.take (19 + s.cbLen))) % 256

/-- 43_frame_encoder.md R206: the checksum generator, and that every frame sums to 0 modulo 256. That the
body stands beside the label 0x52 in the packet is the model's choice (log 6), and so is the field that
reports what `FE.CSUM` returned (log 5). -/
def Obligations.ChecksumMakesFrameSumZero : Prop :=
  (∀ body : List Byte, decode (.core 0x52 0 body) = .ok (.feCsum body) ∧
    ∀ w, decode (.cmd w) ≠ .ok (.feCsum body) ∧ decode (.stat w) ≠ .ok (.feCsum body)) ∧
  (∀ (s : State) (body : List Byte),
    ∃ v : Byte, exec (.feCsum body) s = .next { s with uop := .checksum v } ∧
      v.toNat = (256 - byteSum body) % 256 ∧ byteSum (body ++ [v]) = 0) ∧
  ∀ (c : Config) (jobId : Half) (fr : Nat) (payload : List Byte),
    byteSum (frameOf c jobId fr payload) = 0

/-- 43_frame_encoder.md R208: the slices of a frame: how many, how long, and that joined in order they are
the frame. Outside the operand contract the operation still runs, on free values (log 10). -/
def Obligations.SlicesJoinToFrame : Prop :=
  (∀ (s : State) (frame : List Byte) (mtu k : Half),
    ∃ r count, exec (.feSplit frame mtu k) s = .next { s with uop := .slice r count } ∧
      (1 ≤ mtu.toNat → count = (frame.length + mtu.toNat - 1) / mtu.toNat) ∧
      (1 ≤ mtu.toNat → k.toNat < count →
        r = (frame.drop (k.toNat * mtu.toNat)).take mtu.toNat ∧ 1 ≤ r.length ∧ r.length ≤ mtu.toNat ∧
        (k.toNat + 1 < count → r.length = mtu.toNat))) ∧
  ∀ (frame : List Byte) (mtu : Nat), 1 ≤ mtu →
    ((List.range (nslices frame mtu)).map (sliceOf frame mtu)).flatten = frame

/-- 43_frame_encoder.md R210: in a legal configuration, for every `LZ`: `FE.JOB` compresses the groups in
order and frames each; the list has one frame per group, or the job fails when some group fails. `TB`
and every register stay. What it returned is reported in the model's own field (log 5). -/
def Obligations.JobFramesEveryGroup : Prop :=
  ∀ s : State, s.cfg.legal = true →
    ∃ cb cbLen wm result,
      exec .feJob s = .next { s with cb := cb, cbLen := cbLen, wm := wm, uop := .job result } ∧
      ((∃ g ∈ groupsOf s.cfg, compressedRange (g.col0 * s.cfg.bpc) (g.width * s.cfg.bpc) s = none) →
        result = .fail) ∧
      ((∀ g ∈ groupsOf s.cfg, compressedRange (g.col0 * s.cfg.bpc) (g.width * s.cfg.bpc) s ≠ none) →
        ∃ list, result = .ok list ∧ list.length = (groupsOf s.cfg).length ∧
          ∀ g, (h : g < (groupsOf s.cfg).length) →
            ∃ payload,
              compressedRange ((groupsOf s.cfg)[g].col0 * s.cfg.bpc)
                ((groupsOf s.cfg)[g].width * s.cfg.bpc) s = some payload ∧
              list[g]? = some (frameOf s.cfg s.jobId (groupsOf s.cfg)[g].fr payload))

/-! ## TransmissionController -/

/-- 44_transmission_controller.md R231: the accepted start and the two rejections, in the order of the
checks. -/
def Obligations.StartAcceptsOrRejects : Prop :=
  decode (.cmd 0x2000000000000000) = .ok .tcStart ∧
  ∀ s : State, s.phase ≠ .preparing →
    (s.phase = .idle → s.env.linkReady = true → s.env.mtu ≠ 0 →
      exec .tcStart s =
        .next { s with jobId := s.jobId + 1, mtuL := s.env.mtu, phase := .preparing, resp := .ok }) ∧
    (s.phase = .idle → (s.env.linkReady = false ∨ s.env.mtu = 0) →
      exec .tcStart s = .next { s with resp := .noTransport }) ∧
    (s.phase ≠ .idle → exec .tcStart s = .next { s with resp := .jobInProgress })

/-- 44_transmission_controller.md R237: the abort of a job in flight, and NoEffect otherwise. -/
def Obligations.AbortFailsJobInFlight : Prop :=
  decode (.cmd 0x2100000000000000) = .ok .tcAbort ∧
  ∀ s : State,
    (s.phase = .sending ∨ s.phase = .awaitingAck →
      exec .tcAbort s =
        .next { s with phase := .failed, cause := .aborted, ackFlag := false, paceTimer := 0,
                       resp := .ok }) ∧
    (s.phase = .idle ∨ s.phase = .completed ∨ s.phase = .failed →
      exec .tcAbort s = .next { s with resp := .noEffect })

/-- 44_transmission_controller.md R239: the release of a terminal state, and NoEffect otherwise. -/
def Obligations.ReleaseClearsTerminalState : Prop :=
  decode (.cmd 0x2200000000000000) = .ok .tcRelease ∧
  ∀ s : State,
    (s.phase = .completed ∨ s.phase = .failed →
      exec .tcRelease s =
        .next { s with frames := [], nframes := 0, cur := 0, sub := 0, ackFlag := false,
                       paceTimer := 0, cause := .ok, phase := .idle, resp := .ok }) ∧
    (s.phase = .idle ∨ s.phase = .sending ∨ s.phase = .awaitingAck →
      exec .tcRelease s = .next { s with resp := .noEffect })

/-- 44_transmission_controller.md R240, R241: the two status queries, in every state. -/
def Obligations.StatusQueriesAnswer : Prop :=
  decode (.stat 0x3000000000000000) = .ok .stIsconn ∧
  decode (.stat 0x3100000000000000) = .ok .stIsprint ∧
  ∀ s : State,
    exec .stIsconn s =
      .next { s with result := s.env.linkReady, statData := if s.env.linkReady then 1 else 0 } ∧
    (s.phase = .preparing ∨ s.phase = .sending ∨ s.phase = .awaitingAck →
      exec .stIsprint s = .next { s with result := true, statData := 1 }) ∧
    (s.phase = .idle ∨ s.phase = .completed ∨ s.phase = .failed →
      exec .stIsprint s = .next { s with result := false, statData := 0 })

/-- 44_transmission_controller.md R242 with the register map of 10_state.md R37 to R39, the state numbers of
R26 and the codes of 60_exceptions.md R281 written out: `ST.RD` writes
nothing but the answer, and the answer is the register of the map, or 0. -/
def Obligations.StatReadFollowsRegisterMap : Prop :=
  ∀ s : State, s.cfg.legal = true →
    ∃ value : Byte → Half,
      (∀ a, decode (.stat (cmdWordOf ⟨0x32, 0, false, 0, a, 0, 0⟩)) = .ok (.stRd a) ∧
        exec (.stRd a) s = .next { s with statData := value a }) ∧
      (∀ p n, (p, n) ∈ [(Phase.idle, 0), (.preparing, 1), (.sending, 2), (.awaitingAck, 3),
          (.completed, 4), (.failed, 5)] → s.phase = p → (value 0x00).toNat = n) ∧
      (∀ c n, (c, n) ∈ [(Code.ok, 0), (.allocationFailure, 1), (.compressionFailure, 2),
          (.noTransport, 3), (.ackTimeout, 4), (.jobInProgress, 5), (.writeFailure, 6),
          (.emptyFrameList, 7), (.aborted, 8), (.illegalCommand, 9), (.noEffect, 10)] →
        (s.cause = c → (value 0x01).toNat = n) ∧ (s.resp = c → (value 0x08).toNat = n)) ∧
      value 0x02 = s.jobId ∧ value 0x03 = s.cur ∧ value 0x04 = s.nframes ∧ value 0x05 = s.sub ∧
      (∀ b, (value 0x06).getLsbD b =
        (decide (b = 0) && s.ackFlag || decide (b = 1) && s.env.linkReady ||
          decide (b = 2) && decide (s.phase = .preparing ∨ s.phase = .sending ∨ s.phase = .awaitingAck) ||
          decide (b = 3) && decide (s.phase = .preparing))) ∧
      value 0x07 = s.mtuL ∧
      value 0x09 = (if s.result then 1 else 0) ∧ value 0x0A = s.ackTimer ∧ value 0x0B = s.paceTimer ∧
      (value 0x0C).toNat = s.lastAckLen.toNat ∧
      (∀ k, k < 16 → (value (BitVec.ofNat 8 (0x10 + k))).toNat =
        (s.lastAck.getD (2 * k) 0).toNat + 256 * (s.lastAck.getD (2 * k + 1) 0).toNat) ∧
      (value 0x20).toNat = s.cfg.w ∧ (value 0x21).toNat = s.cfg.h ∧ (value 0x22).toNat = s.cfg.h / 8 ∧
      (value 0x23).toNat = s.cfg.w * s.cfg.h / 8 ∧ (value 0x24).toNat = s.cfg.chunkW ∧
      (value 0x25).toNat = (s.cfg.bitmapSize + s.cfg.bitmapSize / 16 + 67) % 65536 ∧
      (value 0x26).toNat = s.cfg.ackTimeoutTicks ∧ (value 0x27).toNat = s.cfg.pacingTicks ∧
      (value 0x28).toNat = s.cfg.typeData.toNat + 256 * s.cfg.typeFinal.toNat ∧
      value 0x29 = (if s.cfg.frBigEndian then 1 else 0) ∧
      (∀ k, (h : k < 4) → (value (BitVec.ofNat 8 (0x2A + k))).toNat =
        (s.cfg.deviceId[2 * k]).toNat + 256 * (s.cfg.deviceId[2 * k + 1]).toNat) ∧
      (value 0x2E).toNat = (s.cfg.endMarker[0]).toNat + 256 * (s.cfg.endMarker[1]).toNat ∧
      (value 0x2F).toNat = (s.cfg.endMarker[2]).toNat ∧
      ∀ a : Byte, a.toNat = 0x0D ∨ a.toNat = 0x0E ∨ a.toNat = 0x0F ∨ 0x30 ≤ a.toNat → value a = 0

/-- 44_transmission_controller.md R233 with 43_frame_encoder.md R203 to R210, 41_format_transformer.md
R154 and 42_block_compressor.md R175, R176, R183: for every `LZ`, in a legal configuration in which every
group compresses (with REF-LZ that is always so), the preparation step goes to Sending with one frame per
column group, left to right; each frame carries its frames-remaining count and the group's stream and
sums to 0, and the `LZ`'s decoder turns its payload back into the group's columns of `TB`, whose bits are
the complements of the pixels. `PB` and the transport are not touched. -/
def Obligations.PreparedFramesDecodeToTheImage : Prop :=
  ∀ s : State, s.cfg.legal = true → s.phase = .preparing → s.env.allocOk = true →
    (s.cfg.codec = .refLz ∨
      ∀ g ∈ groupsOf s.cfg,
        compressedRange (g.col0 * s.cfg.bpc) (g.width * s.cfg.bpc) (transform s) ≠ none) →
    ∃ tb cb cbLen wm frames,
      exec .ctPrep s =
        .next { s with tb := tb, cb := cb, cbLen := cbLen, wm := wm, frames := frames,
                       nframes := BitVec.ofNat 16 frames.length, cur := 0, sub := 0, ackFlag := false,
                       paceTimer := 0, phase := .sending } ∧
      (∀ x y, x < s.cfg.w → y < s.cfg.h →
        bitOf (tb.read .tb (x * s.cfg.bpc + ((s.cfg.h - 1 - y) / 8 ^^^ 1))) ((s.cfg.h - 1 - y) % 8) =
          !pixel s.cfg s.pb x y) ∧
      frames.length = (groupsOf s.cfg).length ∧ frames.length ≤ 32767 ∧
      ∀ g, (h : g < (groupsOf s.cfg).length) →
        ∃ payload,
          compressedRange ((groupsOf s.cfg)[g].col0 * s.cfg.bpc) ((groupsOf s.cfg)[g].width * s.cfg.bpc)
            (transform s) = some payload ∧
          frames[g]? = some (frameOf s.cfg s.jobId ((groupsOf s.cfg).length - 1 - g) payload) ∧
          byteSum (frameOf s.cfg s.jobId ((groupsOf s.cfg).length - 1 - g) payload) = 0 ∧
          decoderOf s.cfg.codec payload = some (tb.readBytes .tb ((groupsOf s.cfg)[g].col0 * s.cfg.bpc)
            ((groupsOf s.cfg)[g].width * s.cfg.bpc))

/-- 60_exceptions.md R282, R283: preparation without memory fails before any stage runs; when `LZ` fails
on some group the job fails before any transport write, and only the working memories have been written.
In a state with the job invariants a failed preparation leaves `FRAMES` empty and `NFRAMES`, `CUR` and `SUB`
at 0 (44_transmission_controller.md R233). -/
def Obligations.PreparationFailures : Prop :=
  ∀ s : State, s.cfg.legal = true → s.phase = .preparing →
    (s.env.allocOk = false →
      exec .ctPrep s =
        .next { s with phase := .failed, cause := .allocationFailure, ackFlag := false,
                       paceTimer := 0 }) ∧
    (s.env.allocOk = true →
      (∃ g ∈ groupsOf s.cfg,
        compressedRange (g.col0 * s.cfg.bpc) (g.width * s.cfg.bpc) (transform s) = none) →
      ∃ tb cb cbLen wm,
        exec .ctPrep s =
          .next { s with tb := tb, cb := cb, cbLen := cbLen, wm := wm, phase := .failed,
                         cause := .compressionFailure, ackFlag := false, paceTimer := 0 }) ∧
    (JobInv s →
      ∃ t, exec .ctPrep s = .next t ∧
        (t.phase = .failed → t.frames = [] ∧ t.nframes = 0 ∧ t.cur = 0 ∧ t.sub = 0))

/-- 44_transmission_controller.md R235, the write the transport accepts: one slice is presented; the last
of the batch leads to AwaitingAck, any other to pacing. -/
def Obligations.WriteAcceptedAdvances : Prop :=
  ∀ (s : State) (f : Frame), s.phase = .sending → s.paceTimer = 0 → s.env.txOk = true →
    s.frames[s.cur.toNat]? = some f → 1 ≤ s.mtuL.toNat → s.sub.toNat < nslices f s.mtuL.toNat →
    (s.sub.toNat + 1 = nslices f s.mtuL.toNat →
      exec .ctWrite s =
        .next { s with tx := s.tx ++ [⟨sliceOf f s.mtuL.toNat s.sub.toNat, true⟩], sub := s.sub + 1,
                       ackFlag := false, ackTimer := 0, phase := .awaitingAck }) ∧
    (s.sub.toNat + 1 ≠ nslices f s.mtuL.toNat →
      exec .ctWrite s =
        .next { s with tx := s.tx ++ [⟨sliceOf f s.mtuL.toNat s.sub.toNat, true⟩], sub := s.sub + 1,
                       paceTimer := BitVec.ofNat 16 s.cfg.pacingTicks })

/-- 44_transmission_controller.md R235, 60_exceptions.md R287, R290: a write the transport refuses fails
the job at once, `CUR` and `SUB` still name the slice, and no further slice is written. -/
def Obligations.WriteRefusedFails : Prop :=
  ∀ (s : State) (f : Frame), s.phase = .sending → s.paceTimer = 0 → s.env.txOk = false →
    s.frames[s.cur.toNat]? = some f → 1 ≤ s.mtuL.toNat → s.sub.toNat < nslices f s.mtuL.toNat →
    ∃ t, exec .ctWrite s = .next t ∧
      t = { s with tx := s.tx ++ [⟨sliceOf f s.mtuL.toNat s.sub.toNat, false⟩], phase := .failed,
                   cause := .writeFailure, ackFlag := false, paceTimer := 0 } ∧
      ∀ (i : Instr) (u : State), exec i t = .next u → u.tx = t.tx

/-- 44_transmission_controller.md R236: the acknowledgement wins over the timeout, leads to Completed when
the cursor is at the end and to the next batch otherwise; without one, an expired timer fails the job. -/
def Obligations.WaitConsumesAckOrTimesOut : Prop :=
  LabelOnly 0x62 .ctWait ∧
  ∀ s : State, s.phase = .awaitingAck →
    (s.ackFlag = true → s.cur = s.nframes →
      exec .ctWait s = .next { s with ackFlag := false, phase := .completed }) ∧
    (s.ackFlag = true → s.cur ≠ s.nframes →
      exec .ctWait s =
        .next { s with ackFlag := false, sub := 0, paceTimer := 0, phase := .sending }) ∧
    (s.ackFlag = false → s.cfg.ackTimeoutTicks ≤ s.ackTimer.toNat →
      exec .ctWait s =
        .next { s with phase := .failed, cause := .ackTimeout, ackFlag := false, paceTimer := 0 })

/-- 44_transmission_controller.md R233, R235, R236 (the enabling conditions) and 60_exceptions.md R304
(all state survives a wait); that a turn given to the sequencer then passes is log 3. -/
def Obligations.SequencerWaitsWhenNotEnabled : Prop :=
  ∀ s : State,
    (s.phase ≠ .preparing → exec .ctPrep s = .next s) ∧
    (s.phase ≠ .sending ∨ s.paceTimer ≠ 0 → exec .ctWrite s = .next s) ∧
    (s.phase ≠ .awaitingAck ∨ (s.ackFlag = false ∧ s.ackTimer.toNat < s.cfg.ackTimeoutTicks) →
      exec .ctWait s = .next s)

/-- 44_transmission_controller.md R238: the handler acts only in AwaitingAck and only once per batch. That
the payload stands beside the label 0x70 in the packet is the model's choice (log 6). -/
def Obligations.NotifyAcknowledgesOnce : Prop :=
  ∀ (s : State) (payload : List Byte), s.cfg.legal = true →
    decode (.core 0x70 0 payload) = .ok (.evNotify payload) ∧
    (s.phase = .awaitingAck → s.ackFlag = false →
      ∃ ack len, exec (.evNotify payload) s =
          .next { s with lastAck := ack, lastAckLen := len, cur := s.cur + 1, ackFlag := true } ∧
        len.toNat = min payload.length s.cfg.ackMax ∧ ack.length = s.cfg.ackMax ∧
        ∀ i, i < s.cfg.ackMax → ack[i]? = some (payload.getD i 0)) ∧
    (s.phase ≠ .awaitingAck ∨ s.ackFlag = true → exec (.evNotify payload) s = .next s)

/-- 44_transmission_controller.md R243: one unit of time, as its pseudocode has it. That `PACE_TIMER` counts
down outside AwaitingAck too is the model's reading (log 21). -/
def Obligations.TickAdvancesTimers : Prop :=
  LabelOnly 0x71 .evTick ∧
  ∀ s : State, ∃ ack pace,
    exec .evTick s = .next { s with ackTimer := ack, paceTimer := pace } ∧
    (s.phase = .awaitingAck → ack.toNat = min (s.ackTimer.toNat + 1) 65535) ∧
    (s.phase ≠ .awaitingAck → ack = s.ackTimer) ∧ pace.toNat = s.paceTimer.toNat - 1

/-- 70_reset_and_hazards.md R320: reset, in every state. That unspecified memory contents are held as
memories with nothing listed and a new era is the model's (log 7), and that the ports and the environment
keep what they hold is logs 1, 2, 4, 16. -/
def Obligations.ResetClearsEveryRegister : Prop :=
  ∀ s : State,
    exec .evReset s =
      .next { s with
        phase := .idle, cause := .ok, jobId := 0, nframes := 0, cur := 0, sub := 0, frames := [],
        ackFlag := false, lastAck := List.replicate s.cfg.ackMax 0, lastAckLen := 0, ackTimer := 0,
        paceTimer := 0, mtuL := 0, resp := .ok, result := false, cbLen := 0,
        pb := ⟨s.pb.era + 1, []⟩, tb := ⟨s.tb.era + 1, []⟩, cb := ⟨s.cb.era + 1, []⟩, wm := ⟨s.wm.era + 1, []⟩ }

/-- 10_state.md R44: the registers right after reset. -/
def Obligations.ResetStateValues : Prop :=
  State.reset.phase = .idle ∧ State.reset.cause = .ok ∧ State.reset.jobId = 0 ∧
  State.reset.nframes = 0 ∧ State.reset.cur = 0 ∧ State.reset.sub = 0 ∧
  State.reset.ackFlag = false ∧ State.reset.lastAckLen = 0 ∧ (∀ b ∈ State.reset.lastAck, b = 0) ∧
  State.reset.ackTimer = 0 ∧ State.reset.paceTimer = 0 ∧ State.reset.mtuL = 0 ∧
  State.reset.resp = .ok ∧ State.reset.result = false ∧ State.reset.frames = [] ∧
  State.reset.cbLen = 0

/-! ## The machine as a whole -/

/-- 10_state.md R43 holds right after reset, and so does the canonical form of the memories. -/
def Obligations.ResetMeetsInvariants : Prop :=
  JobInv State.reset ∧ State.reset.memoriesWf ∧ State.reset.cfg.legal = true

/-- 10_state.md R43: every step keeps the job invariants, from every state that has them. -/
def Obligations.StepKeepsJobInvariants : Prop :=
  ∀ s t : State, JobInv s → step s = .next t → JobInv t

/-- The canonical form of every memory (log 7), and with it that `WM` lists entries of its number and width
only (20_memory.md R66), is kept by every step. -/
def Obligations.StepKeepsMemoriesCanonical : Prop :=
  ∀ s t : State, s.memoriesWf → step s = .next t → t.memoriesWf

/-- 10_state.md R43 (c), (d): in a state that has the invariants no operation of the hardware's agents
faults or is refused; only the micro-operation `BC.COMPRESS`, taken by itself with operands outside its
contract, can. -/
def Obligations.InvariantsExcludeFaults : Prop :=
  ∀ (s : State) (i : Instr), JobInv s → (∀ off n, i ≠ .bcCompress off n) → ∃ t, exec i s = .next t

/-- 44_transmission_controller.md R244: every change of `STATE` is a row of the table, with the row's
condition: frames built, `LZ` failed, last slice and the others. -/
def Obligations.StateChangesFollowTable : Prop :=
  ∀ (s t : State) (i : Instr), exec i s = .next t → t.phase ≠ s.phase → Transition s t i

/-- 10_state.md R27: only an accepted start counts the job identifier up, and only reset clears it. -/
def Obligations.JobIdWrittenByStartOnly : Prop :=
  ∀ (s t : State) (i : Instr), exec i s = .next t → t.jobId ≠ s.jobId →
    (i = .tcStart ∧ s.phase = .idle ∧ t.phase = .preparing ∧
      t.jobId.toNat = (s.jobId.toNat + 1) % 65536) ∨
    (i = .evReset ∧ t.jobId = 0)

/-- 10_state.md R41, the column "Written by", with the rules that name the failed call (R173), the
release (R239) and reset (R320): which operations write which memory. The working memories are written
by micro-operations and by the preparation step that issues them. 20_memory.md R74: a step of the machine
writes them inside `CT.PREP` and at reset alone, as long as the model's own access to the units is off,
which it is at reset and stays (log 5). -/
def Obligations.MemoriesWrittenByTheirWriters : Prop :=
  (∀ (s t : State) (i : Instr), exec i s = .next t →
    (t.pb ≠ s.pb → (∃ x y v, i = .pbSet x y v) ∨ (∃ x y, i = .pbClrpx x y) ∨ (∃ v, i = .pbFill v) ∨
      i = .pbClear ∨ i = .evReset) ∧
    (t.tb ≠ s.tb → i = .ftReorder ∨ i = .ftSwap ∨ i = .ftInvert ∨ i = .ftRun ∨ i = .ctPrep ∨
      i = .evReset) ∧
    (t.cb ≠ s.cb ∨ t.cbLen ≠ s.cbLen ∨ t.wm ≠ s.wm →
      (∃ off n, i = .bcCompress off n) ∨ i = .feJob ∨ i = .ctPrep ∨ i = .evReset) ∧
    (t.frames ≠ s.frames → i = .ctPrep ∨ i = .tcRelease ∨ i = .evReset)) ∧
  (∀ s t : State, s.unitAccess = false → step s = .next t →
    t.tb ≠ s.tb ∨ t.cb ≠ s.cb ∨ t.cbLen ≠ s.cbLen ∨ t.wm ≠ s.wm →
    ∃ e p rest, s.schedule = ⟨e, .packet p⟩ :: rest ∧
      (decode p = .ok .ctPrep ∧ s.phase = .preparing ∨ decode p = .ok .evReset)) ∧
  (∀ s t : State, step s = .next t → t.unitAccess = s.unitAccess) ∧ State.reset.unitAccess = false

/-- 10_state.md R23, R24, R28 to R36 and 60_exceptions.md R290, R297: which operations write each register,
reset apart (`STATE` is `StateChangesFollowTable`, `JOB_ID` is `JobIdWrittenByStartOnly`). -/
def Obligations.RegistersWrittenByTheirWriters : Prop :=
  ∀ (s t : State) (i : Instr), exec i s = .next t → i ≠ .evReset →
    (t.result ≠ s.result → (∃ x y, i = .pbGet x y) ∨ i = .stIsconn ∨ i = .stIsprint) ∧
    (t.cause ≠ s.cause →
      i = .ctPrep ∨ i = .ctWrite ∨ i = .ctWait ∨ i = .tcAbort ∨ i = .tcRelease) ∧
    (t.nframes ≠ s.nframes → i = .ctPrep ∨ i = .tcRelease) ∧
    (t.cur ≠ s.cur → i = .ctPrep ∨ (∃ p, i = .evNotify p) ∨ i = .tcRelease) ∧
    (t.sub ≠ s.sub → i = .ctPrep ∨ i = .ctWrite ∨ i = .ctWait ∨ i = .tcRelease) ∧
    (t.ackFlag ≠ s.ackFlag →
      (t.ackFlag = true ∧ ∃ p, i = .evNotify p) ∨
      (t.ackFlag = false ∧
        (i = .ctPrep ∨ i = .ctWrite ∨ i = .ctWait ∨ i = .tcAbort ∨ i = .tcRelease))) ∧
    (t.lastAck ≠ s.lastAck ∨ t.lastAckLen ≠ s.lastAckLen → ∃ p, i = .evNotify p) ∧
    (t.ackTimer ≠ s.ackTimer → i = .ctWrite ∨ i = .evTick) ∧
    (t.paceTimer ≠ s.paceTimer →
      i = .ctWrite ∨ i = .evTick ∨ i = .ctPrep ∨ i = .ctWait ∨ i = .tcAbort ∨ i = .tcRelease) ∧
    (t.mtuL ≠ s.mtuL → i = .tcStart) ∧
    (t.resp ≠ s.resp → ∃ w, encode i = .cmd w)

/-- 30_encoding.md R93, 43_frame_encoder.md R208: what goes to the transport is one slice of the frame at
the cursor, 1 to `MTU_L` bytes long, presented by `CT.WRITE` in Sending and by nothing else. -/
def Obligations.OnlyWritePresentsSlices : Prop :=
  ∀ (s t : State) (i : Instr), exec i s = .next t → t.tx ≠ s.tx →
    i = .ctWrite ∧ s.phase = .sending ∧ s.paceTimer = 0 ∧
    ∃ f, s.frames[s.cur.toNat]? = some f ∧
      ∃ w : TxWrite, t.tx = s.tx ++ [w] ∧ w.ok = s.env.txOk ∧
        w.bytes = (f.drop (s.sub.toNat * s.mtuL.toNat)).take s.mtuL.toNat ∧
        1 ≤ w.bytes.length ∧ w.bytes.length ≤ s.mtuL.toNat

/-- 10_state.md R24, R28 and 60_exceptions.md R280: rejections stand in `RESP` and causes in `CAUSE`, and
they never mix. -/
def Obligations.StepKeepsCodesApart : Prop :=
  ∀ s t : State, s.cause.isCause = true → s.resp.isResponse = true → step s = .next t →
    t.cause.isCause = true ∧ t.resp.isResponse = true

/-- 10_state.md R33: `LAST_ACK` has `ACK_MAX` bytes, at most that many are valid, and the bytes at and
above `LAST_ACK_LEN` are 0. -/
def Obligations.StepKeepsLastAckShape : Prop :=
  ∀ s t : State,
    (s.lastAck.length = s.cfg.ackMax ∧ s.lastAckLen.toNat ≤ s.cfg.ackMax ∧
      ∀ i, s.lastAckLen.toNat ≤ i → s.lastAck.getD i 0 = 0) →
    step s = .next t →
    t.lastAck.length = t.cfg.ackMax ∧ t.lastAckLen.toNat ≤ t.cfg.ackMax ∧
      ∀ i, t.lastAckLen.toNat ≤ i → t.lastAck.getD i 0 = 0

/-- 00_scope.md R8, 10_state.md R39: the configuration is not state; no step changes it. -/
def Obligations.StepKeepsConfiguration : Prop :=
  ∀ s t : State, step s = .next t → t.cfg = s.cfg

/-- 44_transmission_controller.md R246: after the end of a job the sequencer, the handler and the timer
change nothing of the job, and only the release or reset leaves the terminal state. That `exec` of a
sequencer step which is not enabled leaves the state as it is is the model's choice (log 3); the timer
clause has the premise `PACE_TIMER = 0`, which the job invariants give in every reachable state, since the
model counts that timer down in every state (log 21). -/
def Obligations.TerminalStatesStay : Prop :=
  ∀ s : State, s.phase = .completed ∨ s.phase = .failed →
    exec .ctPrep s = .next s ∧ exec .ctWrite s = .next s ∧ exec .ctWait s = .next s ∧
    (∀ payload, exec (.evNotify payload) s = .next s) ∧
    (s.paceTimer = 0 → exec .evTick s = .next s) ∧ (JobInv s → exec .evTick s = .next s) ∧
    ∀ (i : Instr) (t : State), exec i s = .next t → i ≠ .tcRelease → i ≠ .evReset → t.phase = s.phase

/-- 20_memory.md R72, 70_reset_and_hazards.md R330, 43_frame_encoder.md R207: frames are immutable. A step
that finds a job's frames leaves them, byte for byte, unless it ends the job's hold on them (release,
reset) or builds a new job's (preparation); a pixel write in particular. -/
def Obligations.FramesAreImmutable : Prop :=
  ∀ s t : State, step s = .next t → s.phase ≠ .preparing →
    t.frames = s.frames ∨ t.phase = .idle

/-- 41_format_transformer.md R151 ("the previous content of `TB` has no influence"), 42_block_compressor.md
R174, 93_implementation_defined.md I14: the frames of a job are a function of the configuration, the job
identifier and the pixels alone, for every `LZ`. -/
def Obligations.FramesDependOnPixelsOnly : Prop :=
  ∀ s s' t t' : State, s.cfg.legal = true → s.phase = .preparing → s'.phase = .preparing →
    s.cfg = s'.cfg → s.jobId = s'.jobId → s.env.allocOk = s'.env.allocOk →
    (∀ a, a < s.cfg.bitmapSize → s.pb.read .pb a = s'.pb.read .pb a) →
    exec .ctPrep s = .next t → exec .ctPrep s' = .next t' →
    t.phase = t'.phase ∧ (t.phase = .failed → t.cause = t'.cause) ∧
    (t.phase = .sending → t.frames = t'.frames ∧ t.nframes = t'.nframes)

/-- 60_exceptions.md R285 (the document's scenario) and 70_reset_and_hazards.md R340 (b): with no
notification, ticks alone bring the deadline; then `CT.WAIT` fails the job with AckTimeout, and the
status query answers 0. That before the deadline a turn given to `CT.WAIT` passes is the model's choice
(log 3). -/
def Obligations.UnacknowledgedJobTimesOut : Prop :=
  ∀ (s : State) (n : Nat), s.cfg.legal = true → s.phase = .awaitingAck → s.ackFlag = false →
    s.ackTimer.toNat + n ≤ 65535 →
    ∃ u, repeatInstr .evTick n s = some u ∧
      u.phase = .awaitingAck ∧ u.ackTimer.toNat = s.ackTimer.toNat + n ∧
      (s.cfg.ackTimeoutTicks ≤ s.ackTimer.toNat + n →
        ∃ t t', exec .ctWait u = .next t ∧ t.phase = .failed ∧ t.cause = .ackTimeout ∧
          exec .stIsprint t = .next t' ∧ t'.result = false) ∧
      (s.ackTimer.toNat + n < s.cfg.ackTimeoutTicks → exec .ctWait u = .next u)
end

