-- ==== Sys2Proof/Laws/Encoding.lean ====
section
/-! SUPPORT. Cutting a word into its fields and joining the fields are inverse to each other. -/

namespace Sys2Proof

/-- Joining the fields of a word gives the word. -/
theorem cmdWordOf_cmdFields (w : CmdWord) : cmdWordOf (cmdFields w) = w := by
  apply BitVec.eq_of_getLsbD_eq
  intro i hi
  simp only [cmdWordOf, cmdFields, BitVec.getLsbD_append, BitVec.getLsbD_extractLsb',
    BitVec.getLsbD_ofBool]
  interval_cases i <;> simp

/-- The fields of a joined word are the fields it was joined from. -/
theorem cmdFields_cmdWordOf (f : CmdFields) : cmdFields (cmdWordOf f) = f := by
  obtain ⟨opc, hi, v, lo, a, x, y⟩ := f
  simp only [cmdFields, CmdFields.mk.injEq]
  refine ⟨?_, ?_, by simp only [cmdWordOf, BitVec.getLsbD_append, BitVec.getLsbD_ofBool]; simp, ?_, ?_,
    ?_, ?_⟩
  all_goals
    apply BitVec.eq_of_getLsbD_eq
    intro i hi
    simp only [cmdWordOf, BitVec.getLsbD_append, BitVec.getLsbD_extractLsb', BitVec.getLsbD_ofBool]
    interval_cases i <;> simp

/-- The first of two operand words joined. -/
theorem argLo_append (hi lo : Half) : argLo (hi ++ lo) = lo := by
  apply BitVec.eq_of_getLsbD_eq
  intro i hi
  simp only [argLo, BitVec.getLsbD_append, BitVec.getLsbD_extractLsb']
  interval_cases i <;> simp

/-- The second of two operand words joined. -/
theorem argHi_append (hi lo : Half) : argHi (hi ++ lo) = hi := by
  apply BitVec.eq_of_getLsbD_eq
  intro i hi
  simp only [argHi, BitVec.getLsbD_append, BitVec.getLsbD_extractLsb']
  interval_cases i <;> simp

/-- The two operand words joined. -/
theorem argHi_append_argLo (args : BitVec 32) : argHi args ++ argLo args = args := by
  apply BitVec.eq_of_getLsbD_eq
  intro i hi
  simp only [argHi, argLo, BitVec.getLsbD_append, BitVec.getLsbD_extractLsb']
  interval_cases i <;> simp

end Sys2Proof
end

