-- ==== Sys2Proof/Laws/Memory.lean ====
section
/-! SUPPORT. The laws of the memories: read after write, and the canonical form is kept. -/

namespace Sys2Proof.Machine

variable {α : Type}

/-! ## Listed cells -/

theorem cellsGet_put_same (l : List (Nat × α)) (a : Nat) (v : α) :
    cellsGet (cellsPut l a v) a = some v := by
  induction l with
  | nil => simp [cellsPut, cellsGet]
  | cons c rest ih =>
    obtain ⟨k, u⟩ := c
    simp only [cellsPut]
    split
    · simp [cellsGet]
    · split
      · simp [cellsGet]
      · rename_i h1 h2
        simp [cellsGet, ih, Ne.symm h2]

theorem cellsGet_put_other (l : List (Nat × α)) {a b : Nat} (v : α) (h : b ≠ a) :
    cellsGet (cellsPut l a v) b = cellsGet l b := by
  induction l with
  | nil => simp [cellsPut, cellsGet, h.symm]
  | cons c rest ih =>
    obtain ⟨k, u⟩ := c
    simp only [cellsPut]
    split
    · simp [cellsGet, h.symm]
    · split
      · rename_i h1 h2
        subst h2
        simp [cellsGet, h.symm]
      · simp [cellsGet, ih]

/-- The canonical form, as the order of the keys. -/
theorem cellsRising_iff (l : List (Nat × α)) :
    cellsRising l = true ↔ (l.map Prod.fst).Pairwise (· < ·) := by
  induction l with
  | nil => simp [cellsRising]
  | cons c rest ih =>
    cases rest with
    | nil => simp [cellsRising]
    | cons d rest =>
      obtain ⟨a, u⟩ := c
      obtain ⟨b, v⟩ := d
      simp only [cellsRising, Bool.and_eq_true, decide_eq_true_eq, ih, List.map_cons,
        List.pairwise_cons, List.mem_cons, forall_eq_or_imp, List.mem_map, Prod.exists]
      constructor
      · rintro ⟨hab, hb, hp⟩
        exact ⟨⟨hab, fun k hk => lt_trans hab (hb k hk)⟩, hb, hp⟩
      · rintro ⟨⟨hab, _⟩, hb, hp⟩
        exact ⟨hab, hb, hp⟩

theorem mem_keys_put (l : List (Nat × α)) (a : Nat) (v : α) (k : Nat) :
    k ∈ (cellsPut l a v).map Prod.fst ↔ k = a ∨ k ∈ l.map Prod.fst := by
  induction l with
  | nil => simp [cellsPut]
  | cons c rest ih =>
    obtain ⟨b, u⟩ := c
    simp only [cellsPut]
    split
    · simp
    · split
      · rename_i h1 h2
        subst h2
        simp
      · simp only [List.map_cons, List.mem_cons, ih]
        tauto

theorem cellsRising_put {l : List (Nat × α)} (h : cellsRising l = true) (a : Nat) (v : α) :
    cellsRising (cellsPut l a v) = true := by
  rw [cellsRising_iff] at h ⊢
  induction l with
  | nil => simp [cellsPut]
  | cons c rest ih =>
    obtain ⟨b, u⟩ := c
    simp only [List.map_cons, List.pairwise_cons] at h
    simp only [cellsPut]
    split
    · rename_i hab
      simp only [List.map_cons, List.pairwise_cons, List.mem_cons, forall_eq_or_imp]
      exact ⟨⟨hab, fun k hk => lt_trans hab (h.1 k hk)⟩, h⟩
    · split
      · rename_i h1 h2
        subst h2
        simpa only [List.map_cons, List.pairwise_cons] using h
      · rename_i h1 h2
        simp only [List.map_cons, List.pairwise_cons]
        refine ⟨fun k hk => ?_, ih h.2⟩
        rcases (mem_keys_put rest a v k).1 hk with rfl | hk
        · omega
        · exact h.1 k hk

theorem cellsGet_map (keys : List Nat) (f : Nat → α) (a : Nat) :
    cellsGet (keys.map fun i => (i, f i)) a = if a ∈ keys then some (f a) else none := by
  induction keys with
  | nil => simp [cellsGet]
  | cons k rest ih =>
    by_cases h : k = a
    · subst h
      simp [cellsGet]
    · simp [cellsGet, ih, h, Ne.symm h]

theorem cellsRising_map_range (n : Nat) (f : Nat → α) :
    cellsRising ((List.range n).map fun i => (i, f i)) = true := by
  rw [cellsRising_iff, List.map_map]
  have : (Prod.fst ∘ fun i => (i, f i)) = id := rfl
  rw [this, List.map_id]
  exact List.pairwise_lt_range

/-! ## Byte memories -/

@[simp] theorem Memory.write_era (m : Memory) (a : Nat) (v : Byte) : (m.write a v).era = m.era := rfl

@[simp] theorem Memory.build_era (m : Memory) (n : Nat) (f : Nat → Byte) :
    (m.build n f).era = m.era := rfl

@[simp] theorem Memory.forget_era (m : Memory) : m.forget.era = m.era + 1 := rfl

@[simp] theorem Memory.read_write_same (sp : Space) (m : Memory) (a : Nat) (v : Byte) :
    (m.write a v).read sp a = v := by
  simp [Memory.read, Memory.write, cellsGet_put_same]

theorem Memory.read_write_other (sp : Space) (m : Memory) {a b : Nat} (v : Byte) (h : b ≠ a) :
    (m.write a v).read sp b = m.read sp b := by
  simp [Memory.read, Memory.write, cellsGet_put_other _ _ h]

theorem Memory.read_build (sp : Space) (m : Memory) {n a : Nat} (f : Nat → Byte) (h : a < n) :
    (m.build n f).read sp a = f a := by
  simp [Memory.read, Memory.build, cellsGet_map, h]

theorem Memory.read_forget (sp : Space) (m : Memory) (a : Nat) :
    m.forget.read sp a = Config.unwrittenByte sp (m.era + 1) a := by
  simp [Memory.read, Memory.forget, cellsGet]

theorem Memory.read_writeBytes (sp : Space) (bytes : List Byte) : ∀ (m : Memory) (a b : Nat),
    (m.writeBytes a bytes).read sp b =
      if h : a ≤ b ∧ b - a < bytes.length then bytes[b - a]'h.2 else m.read sp b := by
  induction bytes with
  | nil => intro m a b; simp [Memory.writeBytes]
  | cons v rest ih =>
    intro m a b
    rw [Memory.writeBytes, ih]
    by_cases hb : b = a
    · subst hb
      simp
    · by_cases hlt : a ≤ b
      · have : b - a = (b - (a + 1)) + 1 := by omega
        have h1 : a + 1 ≤ b := by omega
        simp [h1, hlt, this, Memory.read_write_other sp m v hb]
      · have : ¬ a + 1 ≤ b := by omega
        simp [hlt, this, Memory.read_write_other sp m v hb]

/-- What was written as a block is read back as that block. -/
theorem Memory.readBytes_writeBytes (sp : Space) (m : Memory) (a : Nat) (bytes : List Byte) :
    (m.writeBytes a bytes).readBytes sp a bytes.length = bytes := by
  apply List.ext_getElem
  · simp [Memory.readBytes]
  · intro i h1 h2
    simp [Memory.readBytes, Memory.read_writeBytes, h2]

@[simp] theorem Memory.readBytes_length (sp : Space) (m : Memory) (a n : Nat) :
    (m.readBytes sp a n).length = n := by simp [Memory.readBytes]

theorem Memory.readBytes_congr (sp : Space) (m m' : Memory) (a n : Nat)
    (h : ∀ k, k < n → m.read sp (a + k) = m'.read sp (a + k)) :
    m.readBytes sp a n = m'.readBytes sp a n := by
  apply List.map_congr_left
  intro k hk
  exact h k (List.mem_range.1 hk)

/-! ## The canonical form is kept by every memory operation -/

theorem Memory.wf_write {m : Memory} (h : m.wf = true) (a : Nat) (v : Byte) :
    (m.write a v).wf = true := cellsRising_put h a v

theorem Memory.wf_writeBytes (bytes : List Byte) : ∀ {m : Memory}, m.wf = true → ∀ a,
    (m.writeBytes a bytes).wf = true := by
  induction bytes with
  | nil => intro m h a; exact h
  | cons v rest ih => intro m h a; exact ih (Memory.wf_write h a v) (a + 1)

@[simp] theorem Memory.wf_build (m : Memory) (n : Nat) (f : Nat → Byte) : (m.build n f).wf = true :=
  cellsRising_map_range n f

@[simp] theorem Memory.wf_forget (m : Memory) : m.forget.wf = true := rfl

end Sys2Proof.Machine
end

