-- ==== Sys2Proof/Laws/State.lean ====
section
/-! SUPPORT. What each named update of the state leaves in each field: one lemma per field per update,
so that no proof unfolds a record update. -/

namespace Sys2Proof.Machine

/-! ## respond -/

@[simp] theorem respond_cfg (code : Code) (s : State) : (respond code s).cfg = s.cfg := rfl
@[simp] theorem respond_phase (code : Code) (s : State) : (respond code s).phase = s.phase := rfl
@[simp] theorem respond_cause (code : Code) (s : State) : (respond code s).cause = s.cause := rfl
@[simp] theorem respond_jobId (code : Code) (s : State) : (respond code s).jobId = s.jobId := rfl
@[simp] theorem respond_nframes (code : Code) (s : State) : (respond code s).nframes = s.nframes := rfl
@[simp] theorem respond_cur (code : Code) (s : State) : (respond code s).cur = s.cur := rfl
@[simp] theorem respond_sub (code : Code) (s : State) : (respond code s).sub = s.sub := rfl
@[simp] theorem respond_frames (code : Code) (s : State) : (respond code s).frames = s.frames := rfl
@[simp] theorem respond_ackFlag (code : Code) (s : State) : (respond code s).ackFlag = s.ackFlag := rfl
@[simp] theorem respond_lastAck (code : Code) (s : State) : (respond code s).lastAck = s.lastAck := rfl
@[simp] theorem respond_lastAckLen (code : Code) (s : State) : (respond code s).lastAckLen = s.lastAckLen := rfl
@[simp] theorem respond_ackTimer (code : Code) (s : State) : (respond code s).ackTimer = s.ackTimer := rfl
@[simp] theorem respond_paceTimer (code : Code) (s : State) : (respond code s).paceTimer = s.paceTimer := rfl
@[simp] theorem respond_mtuL (code : Code) (s : State) : (respond code s).mtuL = s.mtuL := rfl
@[simp] theorem respond_resp (code : Code) (s : State) : (respond code s).resp = code := rfl
@[simp] theorem respond_result (code : Code) (s : State) : (respond code s).result = s.result := rfl
@[simp] theorem respond_pb (code : Code) (s : State) : (respond code s).pb = s.pb := rfl
@[simp] theorem respond_tb (code : Code) (s : State) : (respond code s).tb = s.tb := rfl
@[simp] theorem respond_cb (code : Code) (s : State) : (respond code s).cb = s.cb := rfl
@[simp] theorem respond_cbLen (code : Code) (s : State) : (respond code s).cbLen = s.cbLen := rfl
@[simp] theorem respond_wm (code : Code) (s : State) : (respond code s).wm = s.wm := rfl
@[simp] theorem respond_statData (code : Code) (s : State) : (respond code s).statData = s.statData := rfl
@[simp] theorem respond_tx (code : Code) (s : State) : (respond code s).tx = s.tx := rfl
@[simp] theorem respond_env (code : Code) (s : State) : (respond code s).env = s.env := rfl
@[simp] theorem respond_schedule (code : Code) (s : State) : (respond code s).schedule = s.schedule := rfl
@[simp] theorem respond_cmdHeld (code : Code) (s : State) : (respond code s).cmdHeld = s.cmdHeld := rfl
@[simp] theorem respond_uop (code : Code) (s : State) : (respond code s).uop = s.uop := rfl
@[simp] theorem respond_unitAccess (code : Code) (s : State) : (respond code s).unitAccess = s.unitAccess := rfl

/-! ## fail -/

@[simp] theorem fail_cfg (cause : Code) (s : State) : (fail cause s).cfg = s.cfg := rfl
@[simp] theorem fail_phase (cause : Code) (s : State) : (fail cause s).phase = .failed := rfl
@[simp] theorem fail_cause (cause : Code) (s : State) : (fail cause s).cause = cause := rfl
@[simp] theorem fail_jobId (cause : Code) (s : State) : (fail cause s).jobId = s.jobId := rfl
@[simp] theorem fail_nframes (cause : Code) (s : State) : (fail cause s).nframes = s.nframes := rfl
@[simp] theorem fail_cur (cause : Code) (s : State) : (fail cause s).cur = s.cur := rfl
@[simp] theorem fail_sub (cause : Code) (s : State) : (fail cause s).sub = s.sub := rfl
@[simp] theorem fail_frames (cause : Code) (s : State) : (fail cause s).frames = s.frames := rfl
@[simp] theorem fail_ackFlag (cause : Code) (s : State) : (fail cause s).ackFlag = false := rfl
@[simp] theorem fail_lastAck (cause : Code) (s : State) : (fail cause s).lastAck = s.lastAck := rfl
@[simp] theorem fail_lastAckLen (cause : Code) (s : State) : (fail cause s).lastAckLen = s.lastAckLen := rfl
@[simp] theorem fail_ackTimer (cause : Code) (s : State) : (fail cause s).ackTimer = s.ackTimer := rfl
@[simp] theorem fail_paceTimer (cause : Code) (s : State) : (fail cause s).paceTimer = 0 := rfl
@[simp] theorem fail_mtuL (cause : Code) (s : State) : (fail cause s).mtuL = s.mtuL := rfl
@[simp] theorem fail_resp (cause : Code) (s : State) : (fail cause s).resp = s.resp := rfl
@[simp] theorem fail_result (cause : Code) (s : State) : (fail cause s).result = s.result := rfl
@[simp] theorem fail_pb (cause : Code) (s : State) : (fail cause s).pb = s.pb := rfl
@[simp] theorem fail_tb (cause : Code) (s : State) : (fail cause s).tb = s.tb := rfl
@[simp] theorem fail_cb (cause : Code) (s : State) : (fail cause s).cb = s.cb := rfl
@[simp] theorem fail_cbLen (cause : Code) (s : State) : (fail cause s).cbLen = s.cbLen := rfl
@[simp] theorem fail_wm (cause : Code) (s : State) : (fail cause s).wm = s.wm := rfl
@[simp] theorem fail_statData (cause : Code) (s : State) : (fail cause s).statData = s.statData := rfl
@[simp] theorem fail_tx (cause : Code) (s : State) : (fail cause s).tx = s.tx := rfl
@[simp] theorem fail_env (cause : Code) (s : State) : (fail cause s).env = s.env := rfl
@[simp] theorem fail_schedule (cause : Code) (s : State) : (fail cause s).schedule = s.schedule := rfl
@[simp] theorem fail_cmdHeld (cause : Code) (s : State) : (fail cause s).cmdHeld = s.cmdHeld := rfl
@[simp] theorem fail_uop (cause : Code) (s : State) : (fail cause s).uop = s.uop := rfl
@[simp] theorem fail_unitAccess (cause : Code) (s : State) : (fail cause s).unitAccess = s.unitAccess := rfl

/-! ## clearJob -/

@[simp] theorem clearJob_cfg (s : State) : (clearJob s).cfg = s.cfg := rfl
@[simp] theorem clearJob_phase (s : State) : (clearJob s).phase = .idle := rfl
@[simp] theorem clearJob_cause (s : State) : (clearJob s).cause = .ok := rfl
@[simp] theorem clearJob_jobId (s : State) : (clearJob s).jobId = s.jobId := rfl
@[simp] theorem clearJob_nframes (s : State) : (clearJob s).nframes = 0 := rfl
@[simp] theorem clearJob_cur (s : State) : (clearJob s).cur = 0 := rfl
@[simp] theorem clearJob_sub (s : State) : (clearJob s).sub = 0 := rfl
@[simp] theorem clearJob_frames (s : State) : (clearJob s).frames = [] := rfl
@[simp] theorem clearJob_ackFlag (s : State) : (clearJob s).ackFlag = false := rfl
@[simp] theorem clearJob_lastAck (s : State) : (clearJob s).lastAck = s.lastAck := rfl
@[simp] theorem clearJob_lastAckLen (s : State) : (clearJob s).lastAckLen = s.lastAckLen := rfl
@[simp] theorem clearJob_ackTimer (s : State) : (clearJob s).ackTimer = s.ackTimer := rfl
@[simp] theorem clearJob_paceTimer (s : State) : (clearJob s).paceTimer = 0 := rfl
@[simp] theorem clearJob_mtuL (s : State) : (clearJob s).mtuL = s.mtuL := rfl
@[simp] theorem clearJob_resp (s : State) : (clearJob s).resp = s.resp := rfl
@[simp] theorem clearJob_result (s : State) : (clearJob s).result = s.result := rfl
@[simp] theorem clearJob_pb (s : State) : (clearJob s).pb = s.pb := rfl
@[simp] theorem clearJob_tb (s : State) : (clearJob s).tb = s.tb := rfl
@[simp] theorem clearJob_cb (s : State) : (clearJob s).cb = s.cb := rfl
@[simp] theorem clearJob_cbLen (s : State) : (clearJob s).cbLen = s.cbLen := rfl
@[simp] theorem clearJob_wm (s : State) : (clearJob s).wm = s.wm := rfl
@[simp] theorem clearJob_statData (s : State) : (clearJob s).statData = s.statData := rfl
@[simp] theorem clearJob_tx (s : State) : (clearJob s).tx = s.tx := rfl
@[simp] theorem clearJob_env (s : State) : (clearJob s).env = s.env := rfl
@[simp] theorem clearJob_schedule (s : State) : (clearJob s).schedule = s.schedule := rfl
@[simp] theorem clearJob_cmdHeld (s : State) : (clearJob s).cmdHeld = s.cmdHeld := rfl
@[simp] theorem clearJob_uop (s : State) : (clearJob s).uop = s.uop := rfl
@[simp] theorem clearJob_unitAccess (s : State) : (clearJob s).unitAccess = s.unitAccess := rfl

/-! ## answerStat -/

@[simp] theorem answerStat_cfg (data : Half) (s : State) : (answerStat data s).cfg = s.cfg := rfl
@[simp] theorem answerStat_phase (data : Half) (s : State) : (answerStat data s).phase = s.phase := rfl
@[simp] theorem answerStat_cause (data : Half) (s : State) : (answerStat data s).cause = s.cause := rfl
@[simp] theorem answerStat_jobId (data : Half) (s : State) : (answerStat data s).jobId = s.jobId := rfl
@[simp] theorem answerStat_nframes (data : Half) (s : State) : (answerStat data s).nframes = s.nframes := rfl
@[simp] theorem answerStat_cur (data : Half) (s : State) : (answerStat data s).cur = s.cur := rfl
@[simp] theorem answerStat_sub (data : Half) (s : State) : (answerStat data s).sub = s.sub := rfl
@[simp] theorem answerStat_frames (data : Half) (s : State) : (answerStat data s).frames = s.frames := rfl
@[simp] theorem answerStat_ackFlag (data : Half) (s : State) : (answerStat data s).ackFlag = s.ackFlag := rfl
@[simp] theorem answerStat_lastAck (data : Half) (s : State) : (answerStat data s).lastAck = s.lastAck := rfl
@[simp] theorem answerStat_lastAckLen (data : Half) (s : State) : (answerStat data s).lastAckLen = s.lastAckLen := rfl
@[simp] theorem answerStat_ackTimer (data : Half) (s : State) : (answerStat data s).ackTimer = s.ackTimer := rfl
@[simp] theorem answerStat_paceTimer (data : Half) (s : State) : (answerStat data s).paceTimer = s.paceTimer := rfl
@[simp] theorem answerStat_mtuL (data : Half) (s : State) : (answerStat data s).mtuL = s.mtuL := rfl
@[simp] theorem answerStat_resp (data : Half) (s : State) : (answerStat data s).resp = s.resp := rfl
@[simp] theorem answerStat_result (data : Half) (s : State) : (answerStat data s).result = s.result := rfl
@[simp] theorem answerStat_pb (data : Half) (s : State) : (answerStat data s).pb = s.pb := rfl
@[simp] theorem answerStat_tb (data : Half) (s : State) : (answerStat data s).tb = s.tb := rfl
@[simp] theorem answerStat_cb (data : Half) (s : State) : (answerStat data s).cb = s.cb := rfl
@[simp] theorem answerStat_cbLen (data : Half) (s : State) : (answerStat data s).cbLen = s.cbLen := rfl
@[simp] theorem answerStat_wm (data : Half) (s : State) : (answerStat data s).wm = s.wm := rfl
@[simp] theorem answerStat_statData (data : Half) (s : State) : (answerStat data s).statData = data := rfl
@[simp] theorem answerStat_tx (data : Half) (s : State) : (answerStat data s).tx = s.tx := rfl
@[simp] theorem answerStat_env (data : Half) (s : State) : (answerStat data s).env = s.env := rfl
@[simp] theorem answerStat_schedule (data : Half) (s : State) : (answerStat data s).schedule = s.schedule := rfl
@[simp] theorem answerStat_cmdHeld (data : Half) (s : State) : (answerStat data s).cmdHeld = s.cmdHeld := rfl
@[simp] theorem answerStat_uop (data : Half) (s : State) : (answerStat data s).uop = s.uop := rfl
@[simp] theorem answerStat_unitAccess (data : Half) (s : State) : (answerStat data s).unitAccess = s.unitAccess := rfl

/-! ## answerQuery -/

@[simp] theorem answerQuery_cfg (bit : Bool) (s : State) : (answerQuery bit s).cfg = s.cfg := rfl
@[simp] theorem answerQuery_phase (bit : Bool) (s : State) : (answerQuery bit s).phase = s.phase := rfl
@[simp] theorem answerQuery_cause (bit : Bool) (s : State) : (answerQuery bit s).cause = s.cause := rfl
@[simp] theorem answerQuery_jobId (bit : Bool) (s : State) : (answerQuery bit s).jobId = s.jobId := rfl
@[simp] theorem answerQuery_nframes (bit : Bool) (s : State) : (answerQuery bit s).nframes = s.nframes := rfl
@[simp] theorem answerQuery_cur (bit : Bool) (s : State) : (answerQuery bit s).cur = s.cur := rfl
@[simp] theorem answerQuery_sub (bit : Bool) (s : State) : (answerQuery bit s).sub = s.sub := rfl
@[simp] theorem answerQuery_frames (bit : Bool) (s : State) : (answerQuery bit s).frames = s.frames := rfl
@[simp] theorem answerQuery_ackFlag (bit : Bool) (s : State) : (answerQuery bit s).ackFlag = s.ackFlag := rfl
@[simp] theorem answerQuery_lastAck (bit : Bool) (s : State) : (answerQuery bit s).lastAck = s.lastAck := rfl
@[simp] theorem answerQuery_lastAckLen (bit : Bool) (s : State) : (answerQuery bit s).lastAckLen = s.lastAckLen := rfl
@[simp] theorem answerQuery_ackTimer (bit : Bool) (s : State) : (answerQuery bit s).ackTimer = s.ackTimer := rfl
@[simp] theorem answerQuery_paceTimer (bit : Bool) (s : State) : (answerQuery bit s).paceTimer = s.paceTimer := rfl
@[simp] theorem answerQuery_mtuL (bit : Bool) (s : State) : (answerQuery bit s).mtuL = s.mtuL := rfl
@[simp] theorem answerQuery_resp (bit : Bool) (s : State) : (answerQuery bit s).resp = s.resp := rfl
@[simp] theorem answerQuery_result (bit : Bool) (s : State) : (answerQuery bit s).result = bit := rfl
@[simp] theorem answerQuery_pb (bit : Bool) (s : State) : (answerQuery bit s).pb = s.pb := rfl
@[simp] theorem answerQuery_tb (bit : Bool) (s : State) : (answerQuery bit s).tb = s.tb := rfl
@[simp] theorem answerQuery_cb (bit : Bool) (s : State) : (answerQuery bit s).cb = s.cb := rfl
@[simp] theorem answerQuery_cbLen (bit : Bool) (s : State) : (answerQuery bit s).cbLen = s.cbLen := rfl
@[simp] theorem answerQuery_wm (bit : Bool) (s : State) : (answerQuery bit s).wm = s.wm := rfl
@[simp] theorem answerQuery_statData (bit : Bool) (s : State) : (answerQuery bit s).statData = (BitVec.ofBool bit).setWidth 16 := rfl
@[simp] theorem answerQuery_tx (bit : Bool) (s : State) : (answerQuery bit s).tx = s.tx := rfl
@[simp] theorem answerQuery_env (bit : Bool) (s : State) : (answerQuery bit s).env = s.env := rfl
@[simp] theorem answerQuery_schedule (bit : Bool) (s : State) : (answerQuery bit s).schedule = s.schedule := rfl
@[simp] theorem answerQuery_cmdHeld (bit : Bool) (s : State) : (answerQuery bit s).cmdHeld = s.cmdHeld := rfl
@[simp] theorem answerQuery_uop (bit : Bool) (s : State) : (answerQuery bit s).uop = s.uop := rfl
@[simp] theorem answerQuery_unitAccess (bit : Bool) (s : State) : (answerQuery bit s).unitAccess = s.unitAccess := rfl

/-! ## present -/

@[simp] theorem present_cfg (bytes : List Byte) (s : State) : (present bytes s).cfg = s.cfg := rfl
@[simp] theorem present_phase (bytes : List Byte) (s : State) : (present bytes s).phase = s.phase := rfl
@[simp] theorem present_cause (bytes : List Byte) (s : State) : (present bytes s).cause = s.cause := rfl
@[simp] theorem present_jobId (bytes : List Byte) (s : State) : (present bytes s).jobId = s.jobId := rfl
@[simp] theorem present_nframes (bytes : List Byte) (s : State) : (present bytes s).nframes = s.nframes := rfl
@[simp] theorem present_cur (bytes : List Byte) (s : State) : (present bytes s).cur = s.cur := rfl
@[simp] theorem present_sub (bytes : List Byte) (s : State) : (present bytes s).sub = s.sub := rfl
@[simp] theorem present_frames (bytes : List Byte) (s : State) : (present bytes s).frames = s.frames := rfl
@[simp] theorem present_ackFlag (bytes : List Byte) (s : State) : (present bytes s).ackFlag = s.ackFlag := rfl
@[simp] theorem present_lastAck (bytes : List Byte) (s : State) : (present bytes s).lastAck = s.lastAck := rfl
@[simp] theorem present_lastAckLen (bytes : List Byte) (s : State) : (present bytes s).lastAckLen = s.lastAckLen := rfl
@[simp] theorem present_ackTimer (bytes : List Byte) (s : State) : (present bytes s).ackTimer = s.ackTimer := rfl
@[simp] theorem present_paceTimer (bytes : List Byte) (s : State) : (present bytes s).paceTimer = s.paceTimer := rfl
@[simp] theorem present_mtuL (bytes : List Byte) (s : State) : (present bytes s).mtuL = s.mtuL := rfl
@[simp] theorem present_resp (bytes : List Byte) (s : State) : (present bytes s).resp = s.resp := rfl
@[simp] theorem present_result (bytes : List Byte) (s : State) : (present bytes s).result = s.result := rfl
@[simp] theorem present_pb (bytes : List Byte) (s : State) : (present bytes s).pb = s.pb := rfl
@[simp] theorem present_tb (bytes : List Byte) (s : State) : (present bytes s).tb = s.tb := rfl
@[simp] theorem present_cb (bytes : List Byte) (s : State) : (present bytes s).cb = s.cb := rfl
@[simp] theorem present_cbLen (bytes : List Byte) (s : State) : (present bytes s).cbLen = s.cbLen := rfl
@[simp] theorem present_wm (bytes : List Byte) (s : State) : (present bytes s).wm = s.wm := rfl
@[simp] theorem present_statData (bytes : List Byte) (s : State) : (present bytes s).statData = s.statData := rfl
@[simp] theorem present_tx (bytes : List Byte) (s : State) : (present bytes s).tx = s.tx ++ [⟨bytes, s.env.txOk⟩] := rfl
@[simp] theorem present_env (bytes : List Byte) (s : State) : (present bytes s).env = s.env := rfl
@[simp] theorem present_schedule (bytes : List Byte) (s : State) : (present bytes s).schedule = s.schedule := rfl
@[simp] theorem present_cmdHeld (bytes : List Byte) (s : State) : (present bytes s).cmdHeld = s.cmdHeld := rfl
@[simp] theorem present_uop (bytes : List Byte) (s : State) : (present bytes s).uop = s.uop := rfl
@[simp] theorem present_unitAccess (bytes : List Byte) (s : State) : (present bytes s).unitAccess = s.unitAccess := rfl

/-! ## acceptAck -/

@[simp] theorem acceptAck_cfg (payload : List Byte) (s : State) : (acceptAck payload s).cfg = s.cfg := rfl
@[simp] theorem acceptAck_phase (payload : List Byte) (s : State) : (acceptAck payload s).phase = s.phase := rfl
@[simp] theorem acceptAck_cause (payload : List Byte) (s : State) : (acceptAck payload s).cause = s.cause := rfl
@[simp] theorem acceptAck_jobId (payload : List Byte) (s : State) : (acceptAck payload s).jobId = s.jobId := rfl
@[simp] theorem acceptAck_nframes (payload : List Byte) (s : State) : (acceptAck payload s).nframes = s.nframes := rfl
@[simp] theorem acceptAck_cur (payload : List Byte) (s : State) : (acceptAck payload s).cur = s.cur + 1 := rfl
@[simp] theorem acceptAck_sub (payload : List Byte) (s : State) : (acceptAck payload s).sub = s.sub := rfl
@[simp] theorem acceptAck_frames (payload : List Byte) (s : State) : (acceptAck payload s).frames = s.frames := rfl
@[simp] theorem acceptAck_ackFlag (payload : List Byte) (s : State) : (acceptAck payload s).ackFlag = true := rfl
@[simp] theorem acceptAck_lastAck (payload : List Byte) (s : State) : (acceptAck payload s).lastAck = keptPayload s.cfg.ackMax payload := rfl
@[simp] theorem acceptAck_lastAckLen (payload : List Byte) (s : State) : (acceptAck payload s).lastAckLen = BitVec.ofNat 6 (min payload.length s.cfg.ackMax) := rfl
@[simp] theorem acceptAck_ackTimer (payload : List Byte) (s : State) : (acceptAck payload s).ackTimer = s.ackTimer := rfl
@[simp] theorem acceptAck_paceTimer (payload : List Byte) (s : State) : (acceptAck payload s).paceTimer = s.paceTimer := rfl
@[simp] theorem acceptAck_mtuL (payload : List Byte) (s : State) : (acceptAck payload s).mtuL = s.mtuL := rfl
@[simp] theorem acceptAck_resp (payload : List Byte) (s : State) : (acceptAck payload s).resp = s.resp := rfl
@[simp] theorem acceptAck_result (payload : List Byte) (s : State) : (acceptAck payload s).result = s.result := rfl
@[simp] theorem acceptAck_pb (payload : List Byte) (s : State) : (acceptAck payload s).pb = s.pb := rfl
@[simp] theorem acceptAck_tb (payload : List Byte) (s : State) : (acceptAck payload s).tb = s.tb := rfl
@[simp] theorem acceptAck_cb (payload : List Byte) (s : State) : (acceptAck payload s).cb = s.cb := rfl
@[simp] theorem acceptAck_cbLen (payload : List Byte) (s : State) : (acceptAck payload s).cbLen = s.cbLen := rfl
@[simp] theorem acceptAck_wm (payload : List Byte) (s : State) : (acceptAck payload s).wm = s.wm := rfl
@[simp] theorem acceptAck_statData (payload : List Byte) (s : State) : (acceptAck payload s).statData = s.statData := rfl
@[simp] theorem acceptAck_tx (payload : List Byte) (s : State) : (acceptAck payload s).tx = s.tx := rfl
@[simp] theorem acceptAck_env (payload : List Byte) (s : State) : (acceptAck payload s).env = s.env := rfl
@[simp] theorem acceptAck_schedule (payload : List Byte) (s : State) : (acceptAck payload s).schedule = s.schedule := rfl
@[simp] theorem acceptAck_cmdHeld (payload : List Byte) (s : State) : (acceptAck payload s).cmdHeld = s.cmdHeld := rfl
@[simp] theorem acceptAck_uop (payload : List Byte) (s : State) : (acceptAck payload s).uop = s.uop := rfl
@[simp] theorem acceptAck_unitAccess (payload : List Byte) (s : State) : (acceptAck payload s).unitAccess = s.unitAccess := rfl

/-! ## resetCore -/

@[simp] theorem resetCore_cfg (s : State) : (resetCore s).cfg = s.cfg := rfl
@[simp] theorem resetCore_phase (s : State) : (resetCore s).phase = .idle := rfl
@[simp] theorem resetCore_cause (s : State) : (resetCore s).cause = .ok := rfl
@[simp] theorem resetCore_jobId (s : State) : (resetCore s).jobId = 0 := rfl
@[simp] theorem resetCore_nframes (s : State) : (resetCore s).nframes = 0 := rfl
@[simp] theorem resetCore_cur (s : State) : (resetCore s).cur = 0 := rfl
@[simp] theorem resetCore_sub (s : State) : (resetCore s).sub = 0 := rfl
@[simp] theorem resetCore_frames (s : State) : (resetCore s).frames = [] := rfl
@[simp] theorem resetCore_ackFlag (s : State) : (resetCore s).ackFlag = false := rfl
@[simp] theorem resetCore_lastAck (s : State) : (resetCore s).lastAck = List.replicate s.cfg.ackMax 0 := rfl
@[simp] theorem resetCore_lastAckLen (s : State) : (resetCore s).lastAckLen = 0 := rfl
@[simp] theorem resetCore_ackTimer (s : State) : (resetCore s).ackTimer = 0 := rfl
@[simp] theorem resetCore_paceTimer (s : State) : (resetCore s).paceTimer = 0 := rfl
@[simp] theorem resetCore_mtuL (s : State) : (resetCore s).mtuL = 0 := rfl
@[simp] theorem resetCore_resp (s : State) : (resetCore s).resp = .ok := rfl
@[simp] theorem resetCore_result (s : State) : (resetCore s).result = false := rfl
@[simp] theorem resetCore_pb (s : State) : (resetCore s).pb = s.pb.forget := rfl
@[simp] theorem resetCore_tb (s : State) : (resetCore s).tb = s.tb.forget := rfl
@[simp] theorem resetCore_cb (s : State) : (resetCore s).cb = s.cb.forget := rfl
@[simp] theorem resetCore_cbLen (s : State) : (resetCore s).cbLen = 0 := rfl
@[simp] theorem resetCore_wm (s : State) : (resetCore s).wm = s.wm.forget := rfl
@[simp] theorem resetCore_statData (s : State) : (resetCore s).statData = s.statData := rfl
@[simp] theorem resetCore_tx (s : State) : (resetCore s).tx = s.tx := rfl
@[simp] theorem resetCore_env (s : State) : (resetCore s).env = s.env := rfl
@[simp] theorem resetCore_schedule (s : State) : (resetCore s).schedule = s.schedule := rfl
@[simp] theorem resetCore_cmdHeld (s : State) : (resetCore s).cmdHeld = s.cmdHeld := rfl
@[simp] theorem resetCore_uop (s : State) : (resetCore s).uop = s.uop := rfl
@[simp] theorem resetCore_unitAccess (s : State) : (resetCore s).unitAccess = s.unitAccess := rfl

/-! ## reorderStage -/

@[simp] theorem reorderStage_cfg (s : State) : (reorderStage s).cfg = s.cfg := rfl
@[simp] theorem reorderStage_phase (s : State) : (reorderStage s).phase = s.phase := rfl
@[simp] theorem reorderStage_cause (s : State) : (reorderStage s).cause = s.cause := rfl
@[simp] theorem reorderStage_jobId (s : State) : (reorderStage s).jobId = s.jobId := rfl
@[simp] theorem reorderStage_nframes (s : State) : (reorderStage s).nframes = s.nframes := rfl
@[simp] theorem reorderStage_cur (s : State) : (reorderStage s).cur = s.cur := rfl
@[simp] theorem reorderStage_sub (s : State) : (reorderStage s).sub = s.sub := rfl
@[simp] theorem reorderStage_frames (s : State) : (reorderStage s).frames = s.frames := rfl
@[simp] theorem reorderStage_ackFlag (s : State) : (reorderStage s).ackFlag = s.ackFlag := rfl
@[simp] theorem reorderStage_lastAck (s : State) : (reorderStage s).lastAck = s.lastAck := rfl
@[simp] theorem reorderStage_lastAckLen (s : State) : (reorderStage s).lastAckLen = s.lastAckLen := rfl
@[simp] theorem reorderStage_ackTimer (s : State) : (reorderStage s).ackTimer = s.ackTimer := rfl
@[simp] theorem reorderStage_paceTimer (s : State) : (reorderStage s).paceTimer = s.paceTimer := rfl
@[simp] theorem reorderStage_mtuL (s : State) : (reorderStage s).mtuL = s.mtuL := rfl
@[simp] theorem reorderStage_resp (s : State) : (reorderStage s).resp = s.resp := rfl
@[simp] theorem reorderStage_result (s : State) : (reorderStage s).result = s.result := rfl
@[simp] theorem reorderStage_pb (s : State) : (reorderStage s).pb = s.pb := rfl
@[simp] theorem reorderStage_tb (s : State) : (reorderStage s).tb = s.tb.build s.cfg.bitmapSize (reorderedByte s.cfg s.pb) := rfl
@[simp] theorem reorderStage_cb (s : State) : (reorderStage s).cb = s.cb := rfl
@[simp] theorem reorderStage_cbLen (s : State) : (reorderStage s).cbLen = s.cbLen := rfl
@[simp] theorem reorderStage_wm (s : State) : (reorderStage s).wm = s.wm := rfl
@[simp] theorem reorderStage_statData (s : State) : (reorderStage s).statData = s.statData := rfl
@[simp] theorem reorderStage_tx (s : State) : (reorderStage s).tx = s.tx := rfl
@[simp] theorem reorderStage_env (s : State) : (reorderStage s).env = s.env := rfl
@[simp] theorem reorderStage_schedule (s : State) : (reorderStage s).schedule = s.schedule := rfl
@[simp] theorem reorderStage_cmdHeld (s : State) : (reorderStage s).cmdHeld = s.cmdHeld := rfl
@[simp] theorem reorderStage_uop (s : State) : (reorderStage s).uop = s.uop := rfl
@[simp] theorem reorderStage_unitAccess (s : State) : (reorderStage s).unitAccess = s.unitAccess := rfl

/-! ## swapStage -/

@[simp] theorem swapStage_cfg (s : State) : (swapStage s).cfg = s.cfg := rfl
@[simp] theorem swapStage_phase (s : State) : (swapStage s).phase = s.phase := rfl
@[simp] theorem swapStage_cause (s : State) : (swapStage s).cause = s.cause := rfl
@[simp] theorem swapStage_jobId (s : State) : (swapStage s).jobId = s.jobId := rfl
@[simp] theorem swapStage_nframes (s : State) : (swapStage s).nframes = s.nframes := rfl
@[simp] theorem swapStage_cur (s : State) : (swapStage s).cur = s.cur := rfl
@[simp] theorem swapStage_sub (s : State) : (swapStage s).sub = s.sub := rfl
@[simp] theorem swapStage_frames (s : State) : (swapStage s).frames = s.frames := rfl
@[simp] theorem swapStage_ackFlag (s : State) : (swapStage s).ackFlag = s.ackFlag := rfl
@[simp] theorem swapStage_lastAck (s : State) : (swapStage s).lastAck = s.lastAck := rfl
@[simp] theorem swapStage_lastAckLen (s : State) : (swapStage s).lastAckLen = s.lastAckLen := rfl
@[simp] theorem swapStage_ackTimer (s : State) : (swapStage s).ackTimer = s.ackTimer := rfl
@[simp] theorem swapStage_paceTimer (s : State) : (swapStage s).paceTimer = s.paceTimer := rfl
@[simp] theorem swapStage_mtuL (s : State) : (swapStage s).mtuL = s.mtuL := rfl
@[simp] theorem swapStage_resp (s : State) : (swapStage s).resp = s.resp := rfl
@[simp] theorem swapStage_result (s : State) : (swapStage s).result = s.result := rfl
@[simp] theorem swapStage_pb (s : State) : (swapStage s).pb = s.pb := rfl
@[simp] theorem swapStage_tb (s : State) : (swapStage s).tb = s.tb.build s.cfg.bitmapSize fun i => s.tb.read .tb (swapPartner i) := rfl
@[simp] theorem swapStage_cb (s : State) : (swapStage s).cb = s.cb := rfl
@[simp] theorem swapStage_cbLen (s : State) : (swapStage s).cbLen = s.cbLen := rfl
@[simp] theorem swapStage_wm (s : State) : (swapStage s).wm = s.wm := rfl
@[simp] theorem swapStage_statData (s : State) : (swapStage s).statData = s.statData := rfl
@[simp] theorem swapStage_tx (s : State) : (swapStage s).tx = s.tx := rfl
@[simp] theorem swapStage_env (s : State) : (swapStage s).env = s.env := rfl
@[simp] theorem swapStage_schedule (s : State) : (swapStage s).schedule = s.schedule := rfl
@[simp] theorem swapStage_cmdHeld (s : State) : (swapStage s).cmdHeld = s.cmdHeld := rfl
@[simp] theorem swapStage_uop (s : State) : (swapStage s).uop = s.uop := rfl
@[simp] theorem swapStage_unitAccess (s : State) : (swapStage s).unitAccess = s.unitAccess := rfl

/-! ## invertStage -/

@[simp] theorem invertStage_cfg (s : State) : (invertStage s).cfg = s.cfg := rfl
@[simp] theorem invertStage_phase (s : State) : (invertStage s).phase = s.phase := rfl
@[simp] theorem invertStage_cause (s : State) : (invertStage s).cause = s.cause := rfl
@[simp] theorem invertStage_jobId (s : State) : (invertStage s).jobId = s.jobId := rfl
@[simp] theorem invertStage_nframes (s : State) : (invertStage s).nframes = s.nframes := rfl
@[simp] theorem invertStage_cur (s : State) : (invertStage s).cur = s.cur := rfl
@[simp] theorem invertStage_sub (s : State) : (invertStage s).sub = s.sub := rfl
@[simp] theorem invertStage_frames (s : State) : (invertStage s).frames = s.frames := rfl
@[simp] theorem invertStage_ackFlag (s : State) : (invertStage s).ackFlag = s.ackFlag := rfl
@[simp] theorem invertStage_lastAck (s : State) : (invertStage s).lastAck = s.lastAck := rfl
@[simp] theorem invertStage_lastAckLen (s : State) : (invertStage s).lastAckLen = s.lastAckLen := rfl
@[simp] theorem invertStage_ackTimer (s : State) : (invertStage s).ackTimer = s.ackTimer := rfl
@[simp] theorem invertStage_paceTimer (s : State) : (invertStage s).paceTimer = s.paceTimer := rfl
@[simp] theorem invertStage_mtuL (s : State) : (invertStage s).mtuL = s.mtuL := rfl
@[simp] theorem invertStage_resp (s : State) : (invertStage s).resp = s.resp := rfl
@[simp] theorem invertStage_result (s : State) : (invertStage s).result = s.result := rfl
@[simp] theorem invertStage_pb (s : State) : (invertStage s).pb = s.pb := rfl
@[simp] theorem invertStage_tb (s : State) : (invertStage s).tb = s.tb.build s.cfg.bitmapSize fun i => s.tb.read .tb i ^^^ 0xFF := rfl
@[simp] theorem invertStage_cb (s : State) : (invertStage s).cb = s.cb := rfl
@[simp] theorem invertStage_cbLen (s : State) : (invertStage s).cbLen = s.cbLen := rfl
@[simp] theorem invertStage_wm (s : State) : (invertStage s).wm = s.wm := rfl
@[simp] theorem invertStage_statData (s : State) : (invertStage s).statData = s.statData := rfl
@[simp] theorem invertStage_tx (s : State) : (invertStage s).tx = s.tx := rfl
@[simp] theorem invertStage_env (s : State) : (invertStage s).env = s.env := rfl
@[simp] theorem invertStage_schedule (s : State) : (invertStage s).schedule = s.schedule := rfl
@[simp] theorem invertStage_cmdHeld (s : State) : (invertStage s).cmdHeld = s.cmdHeld := rfl
@[simp] theorem invertStage_uop (s : State) : (invertStage s).uop = s.uop := rfl
@[simp] theorem invertStage_unitAccess (s : State) : (invertStage s).unitAccess = s.unitAccess := rfl

/-! ## beginTurn -/

@[simp] theorem beginTurn_cfg (turn : Turn) (rest : List Turn) (s : State) : (beginTurn turn rest s).cfg = s.cfg := rfl
@[simp] theorem beginTurn_phase (turn : Turn) (rest : List Turn) (s : State) : (beginTurn turn rest s).phase = s.phase := rfl
@[simp] theorem beginTurn_cause (turn : Turn) (rest : List Turn) (s : State) : (beginTurn turn rest s).cause = s.cause := rfl
@[simp] theorem beginTurn_jobId (turn : Turn) (rest : List Turn) (s : State) : (beginTurn turn rest s).jobId = s.jobId := rfl
@[simp] theorem beginTurn_nframes (turn : Turn) (rest : List Turn) (s : State) : (beginTurn turn rest s).nframes = s.nframes := rfl
@[simp] theorem beginTurn_cur (turn : Turn) (rest : List Turn) (s : State) : (beginTurn turn rest s).cur = s.cur := rfl
@[simp] theorem beginTurn_sub (turn : Turn) (rest : List Turn) (s : State) : (beginTurn turn rest s).sub = s.sub := rfl
@[simp] theorem beginTurn_frames (turn : Turn) (rest : List Turn) (s : State) : (beginTurn turn rest s).frames = s.frames := rfl
@[simp] theorem beginTurn_ackFlag (turn : Turn) (rest : List Turn) (s : State) : (beginTurn turn rest s).ackFlag = s.ackFlag := rfl
@[simp] theorem beginTurn_lastAck (turn : Turn) (rest : List Turn) (s : State) : (beginTurn turn rest s).lastAck = s.lastAck := rfl
@[simp] theorem beginTurn_lastAckLen (turn : Turn) (rest : List Turn) (s : State) : (beginTurn turn rest s).lastAckLen = s.lastAckLen := rfl
@[simp] theorem beginTurn_ackTimer (turn : Turn) (rest : List Turn) (s : State) : (beginTurn turn rest s).ackTimer = s.ackTimer := rfl
@[simp] theorem beginTurn_paceTimer (turn : Turn) (rest : List Turn) (s : State) : (beginTurn turn rest s).paceTimer = s.paceTimer := rfl
@[simp] theorem beginTurn_mtuL (turn : Turn) (rest : List Turn) (s : State) : (beginTurn turn rest s).mtuL = s.mtuL := rfl
@[simp] theorem beginTurn_resp (turn : Turn) (rest : List Turn) (s : State) : (beginTurn turn rest s).resp = s.resp := rfl
@[simp] theorem beginTurn_result (turn : Turn) (rest : List Turn) (s : State) : (beginTurn turn rest s).result = s.result := rfl
@[simp] theorem beginTurn_pb (turn : Turn) (rest : List Turn) (s : State) : (beginTurn turn rest s).pb = s.pb := rfl
@[simp] theorem beginTurn_tb (turn : Turn) (rest : List Turn) (s : State) : (beginTurn turn rest s).tb = s.tb := rfl
@[simp] theorem beginTurn_cb (turn : Turn) (rest : List Turn) (s : State) : (beginTurn turn rest s).cb = s.cb := rfl
@[simp] theorem beginTurn_cbLen (turn : Turn) (rest : List Turn) (s : State) : (beginTurn turn rest s).cbLen = s.cbLen := rfl
@[simp] theorem beginTurn_wm (turn : Turn) (rest : List Turn) (s : State) : (beginTurn turn rest s).wm = s.wm := rfl
@[simp] theorem beginTurn_statData (turn : Turn) (rest : List Turn) (s : State) : (beginTurn turn rest s).statData = s.statData := rfl
@[simp] theorem beginTurn_tx (turn : Turn) (rest : List Turn) (s : State) : (beginTurn turn rest s).tx = s.tx := rfl
@[simp] theorem beginTurn_env (turn : Turn) (rest : List Turn) (s : State) : (beginTurn turn rest s).env = turn.env := rfl
@[simp] theorem beginTurn_schedule (turn : Turn) (rest : List Turn) (s : State) : (beginTurn turn rest s).schedule = rest := rfl
@[simp] theorem beginTurn_cmdHeld (turn : Turn) (rest : List Turn) (s : State) : (beginTurn turn rest s).cmdHeld = s.cmdHeld := rfl
@[simp] theorem beginTurn_uop (turn : Turn) (rest : List Turn) (s : State) : (beginTurn turn rest s).uop = s.uop := rfl
@[simp] theorem beginTurn_unitAccess (turn : Turn) (rest : List Turn) (s : State) : (beginTurn turn rest s).unitAccess = s.unitAccess := rfl

/-! ## setResult -/

@[simp] theorem setResult_cfg (bit : Bool) (s : State) : (setResult bit s).cfg = s.cfg := rfl
@[simp] theorem setResult_phase (bit : Bool) (s : State) : (setResult bit s).phase = s.phase := rfl
@[simp] theorem setResult_cause (bit : Bool) (s : State) : (setResult bit s).cause = s.cause := rfl
@[simp] theorem setResult_jobId (bit : Bool) (s : State) : (setResult bit s).jobId = s.jobId := rfl
@[simp] theorem setResult_nframes (bit : Bool) (s : State) : (setResult bit s).nframes = s.nframes := rfl
@[simp] theorem setResult_cur (bit : Bool) (s : State) : (setResult bit s).cur = s.cur := rfl
@[simp] theorem setResult_sub (bit : Bool) (s : State) : (setResult bit s).sub = s.sub := rfl
@[simp] theorem setResult_frames (bit : Bool) (s : State) : (setResult bit s).frames = s.frames := rfl
@[simp] theorem setResult_ackFlag (bit : Bool) (s : State) : (setResult bit s).ackFlag = s.ackFlag := rfl
@[simp] theorem setResult_lastAck (bit : Bool) (s : State) : (setResult bit s).lastAck = s.lastAck := rfl
@[simp] theorem setResult_lastAckLen (bit : Bool) (s : State) : (setResult bit s).lastAckLen = s.lastAckLen := rfl
@[simp] theorem setResult_ackTimer (bit : Bool) (s : State) : (setResult bit s).ackTimer = s.ackTimer := rfl
@[simp] theorem setResult_paceTimer (bit : Bool) (s : State) : (setResult bit s).paceTimer = s.paceTimer := rfl
@[simp] theorem setResult_mtuL (bit : Bool) (s : State) : (setResult bit s).mtuL = s.mtuL := rfl
@[simp] theorem setResult_resp (bit : Bool) (s : State) : (setResult bit s).resp = s.resp := rfl
@[simp] theorem setResult_result (bit : Bool) (s : State) : (setResult bit s).result = bit := rfl
@[simp] theorem setResult_pb (bit : Bool) (s : State) : (setResult bit s).pb = s.pb := rfl
@[simp] theorem setResult_tb (bit : Bool) (s : State) : (setResult bit s).tb = s.tb := rfl
@[simp] theorem setResult_cb (bit : Bool) (s : State) : (setResult bit s).cb = s.cb := rfl
@[simp] theorem setResult_cbLen (bit : Bool) (s : State) : (setResult bit s).cbLen = s.cbLen := rfl
@[simp] theorem setResult_wm (bit : Bool) (s : State) : (setResult bit s).wm = s.wm := rfl
@[simp] theorem setResult_statData (bit : Bool) (s : State) : (setResult bit s).statData = s.statData := rfl
@[simp] theorem setResult_tx (bit : Bool) (s : State) : (setResult bit s).tx = s.tx := rfl
@[simp] theorem setResult_env (bit : Bool) (s : State) : (setResult bit s).env = s.env := rfl
@[simp] theorem setResult_schedule (bit : Bool) (s : State) : (setResult bit s).schedule = s.schedule := rfl
@[simp] theorem setResult_cmdHeld (bit : Bool) (s : State) : (setResult bit s).cmdHeld = s.cmdHeld := rfl
@[simp] theorem setResult_uop (bit : Bool) (s : State) : (setResult bit s).uop = s.uop := rfl
@[simp] theorem setResult_unitAccess (bit : Bool) (s : State) : (setResult bit s).unitAccess = s.unitAccess := rfl

/-! ## setPace -/

@[simp] theorem setPace_cfg (v : Half) (s : State) : (setPace v s).cfg = s.cfg := rfl
@[simp] theorem setPace_phase (v : Half) (s : State) : (setPace v s).phase = s.phase := rfl
@[simp] theorem setPace_cause (v : Half) (s : State) : (setPace v s).cause = s.cause := rfl
@[simp] theorem setPace_jobId (v : Half) (s : State) : (setPace v s).jobId = s.jobId := rfl
@[simp] theorem setPace_nframes (v : Half) (s : State) : (setPace v s).nframes = s.nframes := rfl
@[simp] theorem setPace_cur (v : Half) (s : State) : (setPace v s).cur = s.cur := rfl
@[simp] theorem setPace_sub (v : Half) (s : State) : (setPace v s).sub = s.sub := rfl
@[simp] theorem setPace_frames (v : Half) (s : State) : (setPace v s).frames = s.frames := rfl
@[simp] theorem setPace_ackFlag (v : Half) (s : State) : (setPace v s).ackFlag = s.ackFlag := rfl
@[simp] theorem setPace_lastAck (v : Half) (s : State) : (setPace v s).lastAck = s.lastAck := rfl
@[simp] theorem setPace_lastAckLen (v : Half) (s : State) : (setPace v s).lastAckLen = s.lastAckLen := rfl
@[simp] theorem setPace_ackTimer (v : Half) (s : State) : (setPace v s).ackTimer = s.ackTimer := rfl
@[simp] theorem setPace_paceTimer (v : Half) (s : State) : (setPace v s).paceTimer = v := rfl
@[simp] theorem setPace_mtuL (v : Half) (s : State) : (setPace v s).mtuL = s.mtuL := rfl
@[simp] theorem setPace_resp (v : Half) (s : State) : (setPace v s).resp = s.resp := rfl
@[simp] theorem setPace_result (v : Half) (s : State) : (setPace v s).result = s.result := rfl
@[simp] theorem setPace_pb (v : Half) (s : State) : (setPace v s).pb = s.pb := rfl
@[simp] theorem setPace_tb (v : Half) (s : State) : (setPace v s).tb = s.tb := rfl
@[simp] theorem setPace_cb (v : Half) (s : State) : (setPace v s).cb = s.cb := rfl
@[simp] theorem setPace_cbLen (v : Half) (s : State) : (setPace v s).cbLen = s.cbLen := rfl
@[simp] theorem setPace_wm (v : Half) (s : State) : (setPace v s).wm = s.wm := rfl
@[simp] theorem setPace_statData (v : Half) (s : State) : (setPace v s).statData = s.statData := rfl
@[simp] theorem setPace_tx (v : Half) (s : State) : (setPace v s).tx = s.tx := rfl
@[simp] theorem setPace_env (v : Half) (s : State) : (setPace v s).env = s.env := rfl
@[simp] theorem setPace_schedule (v : Half) (s : State) : (setPace v s).schedule = s.schedule := rfl
@[simp] theorem setPace_cmdHeld (v : Half) (s : State) : (setPace v s).cmdHeld = s.cmdHeld := rfl
@[simp] theorem setPace_uop (v : Half) (s : State) : (setPace v s).uop = s.uop := rfl
@[simp] theorem setPace_unitAccess (v : Half) (s : State) : (setPace v s).unitAccess = s.unitAccess := rfl

/-! ## setPb -/

@[simp] theorem setPb_cfg (m : Memory) (s : State) : (setPb m s).cfg = s.cfg := rfl
@[simp] theorem setPb_phase (m : Memory) (s : State) : (setPb m s).phase = s.phase := rfl
@[simp] theorem setPb_cause (m : Memory) (s : State) : (setPb m s).cause = s.cause := rfl
@[simp] theorem setPb_jobId (m : Memory) (s : State) : (setPb m s).jobId = s.jobId := rfl
@[simp] theorem setPb_nframes (m : Memory) (s : State) : (setPb m s).nframes = s.nframes := rfl
@[simp] theorem setPb_cur (m : Memory) (s : State) : (setPb m s).cur = s.cur := rfl
@[simp] theorem setPb_sub (m : Memory) (s : State) : (setPb m s).sub = s.sub := rfl
@[simp] theorem setPb_frames (m : Memory) (s : State) : (setPb m s).frames = s.frames := rfl
@[simp] theorem setPb_ackFlag (m : Memory) (s : State) : (setPb m s).ackFlag = s.ackFlag := rfl
@[simp] theorem setPb_lastAck (m : Memory) (s : State) : (setPb m s).lastAck = s.lastAck := rfl
@[simp] theorem setPb_lastAckLen (m : Memory) (s : State) : (setPb m s).lastAckLen = s.lastAckLen := rfl
@[simp] theorem setPb_ackTimer (m : Memory) (s : State) : (setPb m s).ackTimer = s.ackTimer := rfl
@[simp] theorem setPb_paceTimer (m : Memory) (s : State) : (setPb m s).paceTimer = s.paceTimer := rfl
@[simp] theorem setPb_mtuL (m : Memory) (s : State) : (setPb m s).mtuL = s.mtuL := rfl
@[simp] theorem setPb_resp (m : Memory) (s : State) : (setPb m s).resp = s.resp := rfl
@[simp] theorem setPb_result (m : Memory) (s : State) : (setPb m s).result = s.result := rfl
@[simp] theorem setPb_pb (m : Memory) (s : State) : (setPb m s).pb = m := rfl
@[simp] theorem setPb_tb (m : Memory) (s : State) : (setPb m s).tb = s.tb := rfl
@[simp] theorem setPb_cb (m : Memory) (s : State) : (setPb m s).cb = s.cb := rfl
@[simp] theorem setPb_cbLen (m : Memory) (s : State) : (setPb m s).cbLen = s.cbLen := rfl
@[simp] theorem setPb_wm (m : Memory) (s : State) : (setPb m s).wm = s.wm := rfl
@[simp] theorem setPb_statData (m : Memory) (s : State) : (setPb m s).statData = s.statData := rfl
@[simp] theorem setPb_tx (m : Memory) (s : State) : (setPb m s).tx = s.tx := rfl
@[simp] theorem setPb_env (m : Memory) (s : State) : (setPb m s).env = s.env := rfl
@[simp] theorem setPb_schedule (m : Memory) (s : State) : (setPb m s).schedule = s.schedule := rfl
@[simp] theorem setPb_cmdHeld (m : Memory) (s : State) : (setPb m s).cmdHeld = s.cmdHeld := rfl
@[simp] theorem setPb_uop (m : Memory) (s : State) : (setPb m s).uop = s.uop := rfl
@[simp] theorem setPb_unitAccess (m : Memory) (s : State) : (setPb m s).unitAccess = s.unitAccess := rfl

/-! ## setTb -/

@[simp] theorem setTb_cfg (m : Memory) (s : State) : (setTb m s).cfg = s.cfg := rfl
@[simp] theorem setTb_phase (m : Memory) (s : State) : (setTb m s).phase = s.phase := rfl
@[simp] theorem setTb_cause (m : Memory) (s : State) : (setTb m s).cause = s.cause := rfl
@[simp] theorem setTb_jobId (m : Memory) (s : State) : (setTb m s).jobId = s.jobId := rfl
@[simp] theorem setTb_nframes (m : Memory) (s : State) : (setTb m s).nframes = s.nframes := rfl
@[simp] theorem setTb_cur (m : Memory) (s : State) : (setTb m s).cur = s.cur := rfl
@[simp] theorem setTb_sub (m : Memory) (s : State) : (setTb m s).sub = s.sub := rfl
@[simp] theorem setTb_frames (m : Memory) (s : State) : (setTb m s).frames = s.frames := rfl
@[simp] theorem setTb_ackFlag (m : Memory) (s : State) : (setTb m s).ackFlag = s.ackFlag := rfl
@[simp] theorem setTb_lastAck (m : Memory) (s : State) : (setTb m s).lastAck = s.lastAck := rfl
@[simp] theorem setTb_lastAckLen (m : Memory) (s : State) : (setTb m s).lastAckLen = s.lastAckLen := rfl
@[simp] theorem setTb_ackTimer (m : Memory) (s : State) : (setTb m s).ackTimer = s.ackTimer := rfl
@[simp] theorem setTb_paceTimer (m : Memory) (s : State) : (setTb m s).paceTimer = s.paceTimer := rfl
@[simp] theorem setTb_mtuL (m : Memory) (s : State) : (setTb m s).mtuL = s.mtuL := rfl
@[simp] theorem setTb_resp (m : Memory) (s : State) : (setTb m s).resp = s.resp := rfl
@[simp] theorem setTb_result (m : Memory) (s : State) : (setTb m s).result = s.result := rfl
@[simp] theorem setTb_pb (m : Memory) (s : State) : (setTb m s).pb = s.pb := rfl
@[simp] theorem setTb_tb (m : Memory) (s : State) : (setTb m s).tb = m := rfl
@[simp] theorem setTb_cb (m : Memory) (s : State) : (setTb m s).cb = s.cb := rfl
@[simp] theorem setTb_cbLen (m : Memory) (s : State) : (setTb m s).cbLen = s.cbLen := rfl
@[simp] theorem setTb_wm (m : Memory) (s : State) : (setTb m s).wm = s.wm := rfl
@[simp] theorem setTb_statData (m : Memory) (s : State) : (setTb m s).statData = s.statData := rfl
@[simp] theorem setTb_tx (m : Memory) (s : State) : (setTb m s).tx = s.tx := rfl
@[simp] theorem setTb_env (m : Memory) (s : State) : (setTb m s).env = s.env := rfl
@[simp] theorem setTb_schedule (m : Memory) (s : State) : (setTb m s).schedule = s.schedule := rfl
@[simp] theorem setTb_cmdHeld (m : Memory) (s : State) : (setTb m s).cmdHeld = s.cmdHeld := rfl
@[simp] theorem setTb_uop (m : Memory) (s : State) : (setTb m s).uop = s.uop := rfl
@[simp] theorem setTb_unitAccess (m : Memory) (s : State) : (setTb m s).unitAccess = s.unitAccess := rfl

/-! ## setBlock -/

@[simp] theorem setBlock_cfg (cb : Memory) (n : Nat) (wm : WorkMemory) (s : State) : (setBlock cb n wm s).cfg = s.cfg := rfl
@[simp] theorem setBlock_phase (cb : Memory) (n : Nat) (wm : WorkMemory) (s : State) : (setBlock cb n wm s).phase = s.phase := rfl
@[simp] theorem setBlock_cause (cb : Memory) (n : Nat) (wm : WorkMemory) (s : State) : (setBlock cb n wm s).cause = s.cause := rfl
@[simp] theorem setBlock_jobId (cb : Memory) (n : Nat) (wm : WorkMemory) (s : State) : (setBlock cb n wm s).jobId = s.jobId := rfl
@[simp] theorem setBlock_nframes (cb : Memory) (n : Nat) (wm : WorkMemory) (s : State) : (setBlock cb n wm s).nframes = s.nframes := rfl
@[simp] theorem setBlock_cur (cb : Memory) (n : Nat) (wm : WorkMemory) (s : State) : (setBlock cb n wm s).cur = s.cur := rfl
@[simp] theorem setBlock_sub (cb : Memory) (n : Nat) (wm : WorkMemory) (s : State) : (setBlock cb n wm s).sub = s.sub := rfl
@[simp] theorem setBlock_frames (cb : Memory) (n : Nat) (wm : WorkMemory) (s : State) : (setBlock cb n wm s).frames = s.frames := rfl
@[simp] theorem setBlock_ackFlag (cb : Memory) (n : Nat) (wm : WorkMemory) (s : State) : (setBlock cb n wm s).ackFlag = s.ackFlag := rfl
@[simp] theorem setBlock_lastAck (cb : Memory) (n : Nat) (wm : WorkMemory) (s : State) : (setBlock cb n wm s).lastAck = s.lastAck := rfl
@[simp] theorem setBlock_lastAckLen (cb : Memory) (n : Nat) (wm : WorkMemory) (s : State) : (setBlock cb n wm s).lastAckLen = s.lastAckLen := rfl
@[simp] theorem setBlock_ackTimer (cb : Memory) (n : Nat) (wm : WorkMemory) (s : State) : (setBlock cb n wm s).ackTimer = s.ackTimer := rfl
@[simp] theorem setBlock_paceTimer (cb : Memory) (n : Nat) (wm : WorkMemory) (s : State) : (setBlock cb n wm s).paceTimer = s.paceTimer := rfl
@[simp] theorem setBlock_mtuL (cb : Memory) (n : Nat) (wm : WorkMemory) (s : State) : (setBlock cb n wm s).mtuL = s.mtuL := rfl
@[simp] theorem setBlock_resp (cb : Memory) (n : Nat) (wm : WorkMemory) (s : State) : (setBlock cb n wm s).resp = s.resp := rfl
@[simp] theorem setBlock_result (cb : Memory) (n : Nat) (wm : WorkMemory) (s : State) : (setBlock cb n wm s).result = s.result := rfl
@[simp] theorem setBlock_pb (cb : Memory) (n : Nat) (wm : WorkMemory) (s : State) : (setBlock cb n wm s).pb = s.pb := rfl
@[simp] theorem setBlock_tb (cb : Memory) (n : Nat) (wm : WorkMemory) (s : State) : (setBlock cb n wm s).tb = s.tb := rfl
@[simp] theorem setBlock_cb (cb : Memory) (n : Nat) (wm : WorkMemory) (s : State) : (setBlock cb n wm s).cb = cb := rfl
@[simp] theorem setBlock_cbLen (cb : Memory) (n : Nat) (wm : WorkMemory) (s : State) : (setBlock cb n wm s).cbLen = n := rfl
@[simp] theorem setBlock_wm (cb : Memory) (n : Nat) (wm : WorkMemory) (s : State) : (setBlock cb n wm s).wm = wm := rfl
@[simp] theorem setBlock_statData (cb : Memory) (n : Nat) (wm : WorkMemory) (s : State) : (setBlock cb n wm s).statData = s.statData := rfl
@[simp] theorem setBlock_tx (cb : Memory) (n : Nat) (wm : WorkMemory) (s : State) : (setBlock cb n wm s).tx = s.tx := rfl
@[simp] theorem setBlock_env (cb : Memory) (n : Nat) (wm : WorkMemory) (s : State) : (setBlock cb n wm s).env = s.env := rfl
@[simp] theorem setBlock_schedule (cb : Memory) (n : Nat) (wm : WorkMemory) (s : State) : (setBlock cb n wm s).schedule = s.schedule := rfl
@[simp] theorem setBlock_cmdHeld (cb : Memory) (n : Nat) (wm : WorkMemory) (s : State) : (setBlock cb n wm s).cmdHeld = s.cmdHeld := rfl
@[simp] theorem setBlock_uop (cb : Memory) (n : Nat) (wm : WorkMemory) (s : State) : (setBlock cb n wm s).uop = s.uop := rfl
@[simp] theorem setBlock_unitAccess (cb : Memory) (n : Nat) (wm : WorkMemory) (s : State) : (setBlock cb n wm s).unitAccess = s.unitAccess := rfl

/-! ## setUop -/

@[simp] theorem setUop_cfg (r : UopResult) (s : State) : (setUop r s).cfg = s.cfg := rfl
@[simp] theorem setUop_phase (r : UopResult) (s : State) : (setUop r s).phase = s.phase := rfl
@[simp] theorem setUop_cause (r : UopResult) (s : State) : (setUop r s).cause = s.cause := rfl
@[simp] theorem setUop_jobId (r : UopResult) (s : State) : (setUop r s).jobId = s.jobId := rfl
@[simp] theorem setUop_nframes (r : UopResult) (s : State) : (setUop r s).nframes = s.nframes := rfl
@[simp] theorem setUop_cur (r : UopResult) (s : State) : (setUop r s).cur = s.cur := rfl
@[simp] theorem setUop_sub (r : UopResult) (s : State) : (setUop r s).sub = s.sub := rfl
@[simp] theorem setUop_frames (r : UopResult) (s : State) : (setUop r s).frames = s.frames := rfl
@[simp] theorem setUop_ackFlag (r : UopResult) (s : State) : (setUop r s).ackFlag = s.ackFlag := rfl
@[simp] theorem setUop_lastAck (r : UopResult) (s : State) : (setUop r s).lastAck = s.lastAck := rfl
@[simp] theorem setUop_lastAckLen (r : UopResult) (s : State) : (setUop r s).lastAckLen = s.lastAckLen := rfl
@[simp] theorem setUop_ackTimer (r : UopResult) (s : State) : (setUop r s).ackTimer = s.ackTimer := rfl
@[simp] theorem setUop_paceTimer (r : UopResult) (s : State) : (setUop r s).paceTimer = s.paceTimer := rfl
@[simp] theorem setUop_mtuL (r : UopResult) (s : State) : (setUop r s).mtuL = s.mtuL := rfl
@[simp] theorem setUop_resp (r : UopResult) (s : State) : (setUop r s).resp = s.resp := rfl
@[simp] theorem setUop_result (r : UopResult) (s : State) : (setUop r s).result = s.result := rfl
@[simp] theorem setUop_pb (r : UopResult) (s : State) : (setUop r s).pb = s.pb := rfl
@[simp] theorem setUop_tb (r : UopResult) (s : State) : (setUop r s).tb = s.tb := rfl
@[simp] theorem setUop_cb (r : UopResult) (s : State) : (setUop r s).cb = s.cb := rfl
@[simp] theorem setUop_cbLen (r : UopResult) (s : State) : (setUop r s).cbLen = s.cbLen := rfl
@[simp] theorem setUop_wm (r : UopResult) (s : State) : (setUop r s).wm = s.wm := rfl
@[simp] theorem setUop_statData (r : UopResult) (s : State) : (setUop r s).statData = s.statData := rfl
@[simp] theorem setUop_tx (r : UopResult) (s : State) : (setUop r s).tx = s.tx := rfl
@[simp] theorem setUop_env (r : UopResult) (s : State) : (setUop r s).env = s.env := rfl
@[simp] theorem setUop_schedule (r : UopResult) (s : State) : (setUop r s).schedule = s.schedule := rfl
@[simp] theorem setUop_cmdHeld (r : UopResult) (s : State) : (setUop r s).cmdHeld = s.cmdHeld := rfl
@[simp] theorem setUop_uop (r : UopResult) (s : State) : (setUop r s).uop = r := rfl
@[simp] theorem setUop_unitAccess (r : UopResult) (s : State) : (setUop r s).unitAccess = s.unitAccess := rfl

/-! ## setHeld -/

@[simp] theorem setHeld_cfg (queue : List CmdWord) (s : State) : (setHeld queue s).cfg = s.cfg := rfl
@[simp] theorem setHeld_phase (queue : List CmdWord) (s : State) : (setHeld queue s).phase = s.phase := rfl
@[simp] theorem setHeld_cause (queue : List CmdWord) (s : State) : (setHeld queue s).cause = s.cause := rfl
@[simp] theorem setHeld_jobId (queue : List CmdWord) (s : State) : (setHeld queue s).jobId = s.jobId := rfl
@[simp] theorem setHeld_nframes (queue : List CmdWord) (s : State) : (setHeld queue s).nframes = s.nframes := rfl
@[simp] theorem setHeld_cur (queue : List CmdWord) (s : State) : (setHeld queue s).cur = s.cur := rfl
@[simp] theorem setHeld_sub (queue : List CmdWord) (s : State) : (setHeld queue s).sub = s.sub := rfl
@[simp] theorem setHeld_frames (queue : List CmdWord) (s : State) : (setHeld queue s).frames = s.frames := rfl
@[simp] theorem setHeld_ackFlag (queue : List CmdWord) (s : State) : (setHeld queue s).ackFlag = s.ackFlag := rfl
@[simp] theorem setHeld_lastAck (queue : List CmdWord) (s : State) : (setHeld queue s).lastAck = s.lastAck := rfl
@[simp] theorem setHeld_lastAckLen (queue : List CmdWord) (s : State) : (setHeld queue s).lastAckLen = s.lastAckLen := rfl
@[simp] theorem setHeld_ackTimer (queue : List CmdWord) (s : State) : (setHeld queue s).ackTimer = s.ackTimer := rfl
@[simp] theorem setHeld_paceTimer (queue : List CmdWord) (s : State) : (setHeld queue s).paceTimer = s.paceTimer := rfl
@[simp] theorem setHeld_mtuL (queue : List CmdWord) (s : State) : (setHeld queue s).mtuL = s.mtuL := rfl
@[simp] theorem setHeld_resp (queue : List CmdWord) (s : State) : (setHeld queue s).resp = s.resp := rfl
@[simp] theorem setHeld_result (queue : List CmdWord) (s : State) : (setHeld queue s).result = s.result := rfl
@[simp] theorem setHeld_pb (queue : List CmdWord) (s : State) : (setHeld queue s).pb = s.pb := rfl
@[simp] theorem setHeld_tb (queue : List CmdWord) (s : State) : (setHeld queue s).tb = s.tb := rfl
@[simp] theorem setHeld_cb (queue : List CmdWord) (s : State) : (setHeld queue s).cb = s.cb := rfl
@[simp] theorem setHeld_cbLen (queue : List CmdWord) (s : State) : (setHeld queue s).cbLen = s.cbLen := rfl
@[simp] theorem setHeld_wm (queue : List CmdWord) (s : State) : (setHeld queue s).wm = s.wm := rfl
@[simp] theorem setHeld_statData (queue : List CmdWord) (s : State) : (setHeld queue s).statData = s.statData := rfl
@[simp] theorem setHeld_tx (queue : List CmdWord) (s : State) : (setHeld queue s).tx = s.tx := rfl
@[simp] theorem setHeld_env (queue : List CmdWord) (s : State) : (setHeld queue s).env = s.env := rfl
@[simp] theorem setHeld_schedule (queue : List CmdWord) (s : State) : (setHeld queue s).schedule = s.schedule := rfl
@[simp] theorem setHeld_cmdHeld (queue : List CmdWord) (s : State) : (setHeld queue s).cmdHeld = queue := rfl
@[simp] theorem setHeld_uop (queue : List CmdWord) (s : State) : (setHeld queue s).uop = s.uop := rfl
@[simp] theorem setHeld_unitAccess (queue : List CmdWord) (s : State) : (setHeld queue s).unitAccess = s.unitAccess := rfl

/-! ## acceptJob -/

@[simp] theorem acceptJob_cfg (s : State) : (acceptJob s).cfg = s.cfg := rfl
@[simp] theorem acceptJob_phase (s : State) : (acceptJob s).phase = .preparing := rfl
@[simp] theorem acceptJob_cause (s : State) : (acceptJob s).cause = s.cause := rfl
@[simp] theorem acceptJob_jobId (s : State) : (acceptJob s).jobId = s.jobId + 1 := rfl
@[simp] theorem acceptJob_nframes (s : State) : (acceptJob s).nframes = s.nframes := rfl
@[simp] theorem acceptJob_cur (s : State) : (acceptJob s).cur = s.cur := rfl
@[simp] theorem acceptJob_sub (s : State) : (acceptJob s).sub = s.sub := rfl
@[simp] theorem acceptJob_frames (s : State) : (acceptJob s).frames = s.frames := rfl
@[simp] theorem acceptJob_ackFlag (s : State) : (acceptJob s).ackFlag = s.ackFlag := rfl
@[simp] theorem acceptJob_lastAck (s : State) : (acceptJob s).lastAck = s.lastAck := rfl
@[simp] theorem acceptJob_lastAckLen (s : State) : (acceptJob s).lastAckLen = s.lastAckLen := rfl
@[simp] theorem acceptJob_ackTimer (s : State) : (acceptJob s).ackTimer = s.ackTimer := rfl
@[simp] theorem acceptJob_paceTimer (s : State) : (acceptJob s).paceTimer = s.paceTimer := rfl
@[simp] theorem acceptJob_mtuL (s : State) : (acceptJob s).mtuL = s.env.mtu := rfl
@[simp] theorem acceptJob_resp (s : State) : (acceptJob s).resp = s.resp := rfl
@[simp] theorem acceptJob_result (s : State) : (acceptJob s).result = s.result := rfl
@[simp] theorem acceptJob_pb (s : State) : (acceptJob s).pb = s.pb := rfl
@[simp] theorem acceptJob_tb (s : State) : (acceptJob s).tb = s.tb := rfl
@[simp] theorem acceptJob_cb (s : State) : (acceptJob s).cb = s.cb := rfl
@[simp] theorem acceptJob_cbLen (s : State) : (acceptJob s).cbLen = s.cbLen := rfl
@[simp] theorem acceptJob_wm (s : State) : (acceptJob s).wm = s.wm := rfl
@[simp] theorem acceptJob_statData (s : State) : (acceptJob s).statData = s.statData := rfl
@[simp] theorem acceptJob_tx (s : State) : (acceptJob s).tx = s.tx := rfl
@[simp] theorem acceptJob_env (s : State) : (acceptJob s).env = s.env := rfl
@[simp] theorem acceptJob_schedule (s : State) : (acceptJob s).schedule = s.schedule := rfl
@[simp] theorem acceptJob_cmdHeld (s : State) : (acceptJob s).cmdHeld = s.cmdHeld := rfl
@[simp] theorem acceptJob_uop (s : State) : (acceptJob s).uop = s.uop := rfl
@[simp] theorem acceptJob_unitAccess (s : State) : (acceptJob s).unitAccess = s.unitAccess := rfl

/-! ## startSending -/

@[simp] theorem startSending_cfg (list : List Frame) (s : State) : (startSending list s).cfg = s.cfg := rfl
@[simp] theorem startSending_phase (list : List Frame) (s : State) : (startSending list s).phase = .sending := rfl
@[simp] theorem startSending_cause (list : List Frame) (s : State) : (startSending list s).cause = s.cause := rfl
@[simp] theorem startSending_jobId (list : List Frame) (s : State) : (startSending list s).jobId = s.jobId := rfl
@[simp] theorem startSending_nframes (list : List Frame) (s : State) : (startSending list s).nframes = BitVec.ofNat 16 list.length := rfl
@[simp] theorem startSending_cur (list : List Frame) (s : State) : (startSending list s).cur = 0 := rfl
@[simp] theorem startSending_sub (list : List Frame) (s : State) : (startSending list s).sub = 0 := rfl
@[simp] theorem startSending_frames (list : List Frame) (s : State) : (startSending list s).frames = list := rfl
@[simp] theorem startSending_ackFlag (list : List Frame) (s : State) : (startSending list s).ackFlag = false := rfl
@[simp] theorem startSending_lastAck (list : List Frame) (s : State) : (startSending list s).lastAck = s.lastAck := rfl
@[simp] theorem startSending_lastAckLen (list : List Frame) (s : State) : (startSending list s).lastAckLen = s.lastAckLen := rfl
@[simp] theorem startSending_ackTimer (list : List Frame) (s : State) : (startSending list s).ackTimer = s.ackTimer := rfl
@[simp] theorem startSending_paceTimer (list : List Frame) (s : State) : (startSending list s).paceTimer = s.paceTimer := rfl
@[simp] theorem startSending_mtuL (list : List Frame) (s : State) : (startSending list s).mtuL = s.mtuL := rfl
@[simp] theorem startSending_resp (list : List Frame) (s : State) : (startSending list s).resp = s.resp := rfl
@[simp] theorem startSending_result (list : List Frame) (s : State) : (startSending list s).result = s.result := rfl
@[simp] theorem startSending_pb (list : List Frame) (s : State) : (startSending list s).pb = s.pb := rfl
@[simp] theorem startSending_tb (list : List Frame) (s : State) : (startSending list s).tb = s.tb := rfl
@[simp] theorem startSending_cb (list : List Frame) (s : State) : (startSending list s).cb = s.cb := rfl
@[simp] theorem startSending_cbLen (list : List Frame) (s : State) : (startSending list s).cbLen = s.cbLen := rfl
@[simp] theorem startSending_wm (list : List Frame) (s : State) : (startSending list s).wm = s.wm := rfl
@[simp] theorem startSending_statData (list : List Frame) (s : State) : (startSending list s).statData = s.statData := rfl
@[simp] theorem startSending_tx (list : List Frame) (s : State) : (startSending list s).tx = s.tx := rfl
@[simp] theorem startSending_env (list : List Frame) (s : State) : (startSending list s).env = s.env := rfl
@[simp] theorem startSending_schedule (list : List Frame) (s : State) : (startSending list s).schedule = s.schedule := rfl
@[simp] theorem startSending_cmdHeld (list : List Frame) (s : State) : (startSending list s).cmdHeld = s.cmdHeld := rfl
@[simp] theorem startSending_uop (list : List Frame) (s : State) : (startSending list s).uop = s.uop := rfl
@[simp] theorem startSending_unitAccess (list : List Frame) (s : State) : (startSending list s).unitAccess = s.unitAccess := rfl

/-! ## enterAwaiting -/

@[simp] theorem enterAwaiting_cfg (s : State) : (enterAwaiting s).cfg = s.cfg := rfl
@[simp] theorem enterAwaiting_phase (s : State) : (enterAwaiting s).phase = .awaitingAck := rfl
@[simp] theorem enterAwaiting_cause (s : State) : (enterAwaiting s).cause = s.cause := rfl
@[simp] theorem enterAwaiting_jobId (s : State) : (enterAwaiting s).jobId = s.jobId := rfl
@[simp] theorem enterAwaiting_nframes (s : State) : (enterAwaiting s).nframes = s.nframes := rfl
@[simp] theorem enterAwaiting_cur (s : State) : (enterAwaiting s).cur = s.cur := rfl
@[simp] theorem enterAwaiting_sub (s : State) : (enterAwaiting s).sub = s.sub + 1 := rfl
@[simp] theorem enterAwaiting_frames (s : State) : (enterAwaiting s).frames = s.frames := rfl
@[simp] theorem enterAwaiting_ackFlag (s : State) : (enterAwaiting s).ackFlag = false := rfl
@[simp] theorem enterAwaiting_lastAck (s : State) : (enterAwaiting s).lastAck = s.lastAck := rfl
@[simp] theorem enterAwaiting_lastAckLen (s : State) : (enterAwaiting s).lastAckLen = s.lastAckLen := rfl
@[simp] theorem enterAwaiting_ackTimer (s : State) : (enterAwaiting s).ackTimer = 0 := rfl
@[simp] theorem enterAwaiting_paceTimer (s : State) : (enterAwaiting s).paceTimer = s.paceTimer := rfl
@[simp] theorem enterAwaiting_mtuL (s : State) : (enterAwaiting s).mtuL = s.mtuL := rfl
@[simp] theorem enterAwaiting_resp (s : State) : (enterAwaiting s).resp = s.resp := rfl
@[simp] theorem enterAwaiting_result (s : State) : (enterAwaiting s).result = s.result := rfl
@[simp] theorem enterAwaiting_pb (s : State) : (enterAwaiting s).pb = s.pb := rfl
@[simp] theorem enterAwaiting_tb (s : State) : (enterAwaiting s).tb = s.tb := rfl
@[simp] theorem enterAwaiting_cb (s : State) : (enterAwaiting s).cb = s.cb := rfl
@[simp] theorem enterAwaiting_cbLen (s : State) : (enterAwaiting s).cbLen = s.cbLen := rfl
@[simp] theorem enterAwaiting_wm (s : State) : (enterAwaiting s).wm = s.wm := rfl
@[simp] theorem enterAwaiting_statData (s : State) : (enterAwaiting s).statData = s.statData := rfl
@[simp] theorem enterAwaiting_tx (s : State) : (enterAwaiting s).tx = s.tx := rfl
@[simp] theorem enterAwaiting_env (s : State) : (enterAwaiting s).env = s.env := rfl
@[simp] theorem enterAwaiting_schedule (s : State) : (enterAwaiting s).schedule = s.schedule := rfl
@[simp] theorem enterAwaiting_cmdHeld (s : State) : (enterAwaiting s).cmdHeld = s.cmdHeld := rfl
@[simp] theorem enterAwaiting_uop (s : State) : (enterAwaiting s).uop = s.uop := rfl
@[simp] theorem enterAwaiting_unitAccess (s : State) : (enterAwaiting s).unitAccess = s.unitAccess := rfl

/-! ## beginPacing -/

@[simp] theorem beginPacing_cfg (s : State) : (beginPacing s).cfg = s.cfg := rfl
@[simp] theorem beginPacing_phase (s : State) : (beginPacing s).phase = s.phase := rfl
@[simp] theorem beginPacing_cause (s : State) : (beginPacing s).cause = s.cause := rfl
@[simp] theorem beginPacing_jobId (s : State) : (beginPacing s).jobId = s.jobId := rfl
@[simp] theorem beginPacing_nframes (s : State) : (beginPacing s).nframes = s.nframes := rfl
@[simp] theorem beginPacing_cur (s : State) : (beginPacing s).cur = s.cur := rfl
@[simp] theorem beginPacing_sub (s : State) : (beginPacing s).sub = s.sub + 1 := rfl
@[simp] theorem beginPacing_frames (s : State) : (beginPacing s).frames = s.frames := rfl
@[simp] theorem beginPacing_ackFlag (s : State) : (beginPacing s).ackFlag = s.ackFlag := rfl
@[simp] theorem beginPacing_lastAck (s : State) : (beginPacing s).lastAck = s.lastAck := rfl
@[simp] theorem beginPacing_lastAckLen (s : State) : (beginPacing s).lastAckLen = s.lastAckLen := rfl
@[simp] theorem beginPacing_ackTimer (s : State) : (beginPacing s).ackTimer = s.ackTimer := rfl
@[simp] theorem beginPacing_paceTimer (s : State) : (beginPacing s).paceTimer = BitVec.ofNat 16 s.cfg.pacingTicks := rfl
@[simp] theorem beginPacing_mtuL (s : State) : (beginPacing s).mtuL = s.mtuL := rfl
@[simp] theorem beginPacing_resp (s : State) : (beginPacing s).resp = s.resp := rfl
@[simp] theorem beginPacing_result (s : State) : (beginPacing s).result = s.result := rfl
@[simp] theorem beginPacing_pb (s : State) : (beginPacing s).pb = s.pb := rfl
@[simp] theorem beginPacing_tb (s : State) : (beginPacing s).tb = s.tb := rfl
@[simp] theorem beginPacing_cb (s : State) : (beginPacing s).cb = s.cb := rfl
@[simp] theorem beginPacing_cbLen (s : State) : (beginPacing s).cbLen = s.cbLen := rfl
@[simp] theorem beginPacing_wm (s : State) : (beginPacing s).wm = s.wm := rfl
@[simp] theorem beginPacing_statData (s : State) : (beginPacing s).statData = s.statData := rfl
@[simp] theorem beginPacing_tx (s : State) : (beginPacing s).tx = s.tx := rfl
@[simp] theorem beginPacing_env (s : State) : (beginPacing s).env = s.env := rfl
@[simp] theorem beginPacing_schedule (s : State) : (beginPacing s).schedule = s.schedule := rfl
@[simp] theorem beginPacing_cmdHeld (s : State) : (beginPacing s).cmdHeld = s.cmdHeld := rfl
@[simp] theorem beginPacing_uop (s : State) : (beginPacing s).uop = s.uop := rfl
@[simp] theorem beginPacing_unitAccess (s : State) : (beginPacing s).unitAccess = s.unitAccess := rfl

/-! ## finishJob -/

@[simp] theorem finishJob_cfg (s : State) : (finishJob s).cfg = s.cfg := rfl
@[simp] theorem finishJob_phase (s : State) : (finishJob s).phase = .completed := rfl
@[simp] theorem finishJob_cause (s : State) : (finishJob s).cause = s.cause := rfl
@[simp] theorem finishJob_jobId (s : State) : (finishJob s).jobId = s.jobId := rfl
@[simp] theorem finishJob_nframes (s : State) : (finishJob s).nframes = s.nframes := rfl
@[simp] theorem finishJob_cur (s : State) : (finishJob s).cur = s.cur := rfl
@[simp] theorem finishJob_sub (s : State) : (finishJob s).sub = s.sub := rfl
@[simp] theorem finishJob_frames (s : State) : (finishJob s).frames = s.frames := rfl
@[simp] theorem finishJob_ackFlag (s : State) : (finishJob s).ackFlag = false := rfl
@[simp] theorem finishJob_lastAck (s : State) : (finishJob s).lastAck = s.lastAck := rfl
@[simp] theorem finishJob_lastAckLen (s : State) : (finishJob s).lastAckLen = s.lastAckLen := rfl
@[simp] theorem finishJob_ackTimer (s : State) : (finishJob s).ackTimer = s.ackTimer := rfl
@[simp] theorem finishJob_paceTimer (s : State) : (finishJob s).paceTimer = s.paceTimer := rfl
@[simp] theorem finishJob_mtuL (s : State) : (finishJob s).mtuL = s.mtuL := rfl
@[simp] theorem finishJob_resp (s : State) : (finishJob s).resp = s.resp := rfl
@[simp] theorem finishJob_result (s : State) : (finishJob s).result = s.result := rfl
@[simp] theorem finishJob_pb (s : State) : (finishJob s).pb = s.pb := rfl
@[simp] theorem finishJob_tb (s : State) : (finishJob s).tb = s.tb := rfl
@[simp] theorem finishJob_cb (s : State) : (finishJob s).cb = s.cb := rfl
@[simp] theorem finishJob_cbLen (s : State) : (finishJob s).cbLen = s.cbLen := rfl
@[simp] theorem finishJob_wm (s : State) : (finishJob s).wm = s.wm := rfl
@[simp] theorem finishJob_statData (s : State) : (finishJob s).statData = s.statData := rfl
@[simp] theorem finishJob_tx (s : State) : (finishJob s).tx = s.tx := rfl
@[simp] theorem finishJob_env (s : State) : (finishJob s).env = s.env := rfl
@[simp] theorem finishJob_schedule (s : State) : (finishJob s).schedule = s.schedule := rfl
@[simp] theorem finishJob_cmdHeld (s : State) : (finishJob s).cmdHeld = s.cmdHeld := rfl
@[simp] theorem finishJob_uop (s : State) : (finishJob s).uop = s.uop := rfl
@[simp] theorem finishJob_unitAccess (s : State) : (finishJob s).unitAccess = s.unitAccess := rfl

/-! ## nextBatch -/

@[simp] theorem nextBatch_cfg (s : State) : (nextBatch s).cfg = s.cfg := rfl
@[simp] theorem nextBatch_phase (s : State) : (nextBatch s).phase = .sending := rfl
@[simp] theorem nextBatch_cause (s : State) : (nextBatch s).cause = s.cause := rfl
@[simp] theorem nextBatch_jobId (s : State) : (nextBatch s).jobId = s.jobId := rfl
@[simp] theorem nextBatch_nframes (s : State) : (nextBatch s).nframes = s.nframes := rfl
@[simp] theorem nextBatch_cur (s : State) : (nextBatch s).cur = s.cur := rfl
@[simp] theorem nextBatch_sub (s : State) : (nextBatch s).sub = 0 := rfl
@[simp] theorem nextBatch_frames (s : State) : (nextBatch s).frames = s.frames := rfl
@[simp] theorem nextBatch_ackFlag (s : State) : (nextBatch s).ackFlag = false := rfl
@[simp] theorem nextBatch_lastAck (s : State) : (nextBatch s).lastAck = s.lastAck := rfl
@[simp] theorem nextBatch_lastAckLen (s : State) : (nextBatch s).lastAckLen = s.lastAckLen := rfl
@[simp] theorem nextBatch_ackTimer (s : State) : (nextBatch s).ackTimer = s.ackTimer := rfl
@[simp] theorem nextBatch_paceTimer (s : State) : (nextBatch s).paceTimer = 0 := rfl
@[simp] theorem nextBatch_mtuL (s : State) : (nextBatch s).mtuL = s.mtuL := rfl
@[simp] theorem nextBatch_resp (s : State) : (nextBatch s).resp = s.resp := rfl
@[simp] theorem nextBatch_result (s : State) : (nextBatch s).result = s.result := rfl
@[simp] theorem nextBatch_pb (s : State) : (nextBatch s).pb = s.pb := rfl
@[simp] theorem nextBatch_tb (s : State) : (nextBatch s).tb = s.tb := rfl
@[simp] theorem nextBatch_cb (s : State) : (nextBatch s).cb = s.cb := rfl
@[simp] theorem nextBatch_cbLen (s : State) : (nextBatch s).cbLen = s.cbLen := rfl
@[simp] theorem nextBatch_wm (s : State) : (nextBatch s).wm = s.wm := rfl
@[simp] theorem nextBatch_statData (s : State) : (nextBatch s).statData = s.statData := rfl
@[simp] theorem nextBatch_tx (s : State) : (nextBatch s).tx = s.tx := rfl
@[simp] theorem nextBatch_env (s : State) : (nextBatch s).env = s.env := rfl
@[simp] theorem nextBatch_schedule (s : State) : (nextBatch s).schedule = s.schedule := rfl
@[simp] theorem nextBatch_cmdHeld (s : State) : (nextBatch s).cmdHeld = s.cmdHeld := rfl
@[simp] theorem nextBatch_uop (s : State) : (nextBatch s).uop = s.uop := rfl
@[simp] theorem nextBatch_unitAccess (s : State) : (nextBatch s).unitAccess = s.unitAccess := rfl

/-! ## tick -/

@[simp] theorem tick_cfg (s : State) : (tick s).cfg = s.cfg := rfl
@[simp] theorem tick_phase (s : State) : (tick s).phase = s.phase := rfl
@[simp] theorem tick_cause (s : State) : (tick s).cause = s.cause := rfl
@[simp] theorem tick_jobId (s : State) : (tick s).jobId = s.jobId := rfl
@[simp] theorem tick_nframes (s : State) : (tick s).nframes = s.nframes := rfl
@[simp] theorem tick_cur (s : State) : (tick s).cur = s.cur := rfl
@[simp] theorem tick_sub (s : State) : (tick s).sub = s.sub := rfl
@[simp] theorem tick_frames (s : State) : (tick s).frames = s.frames := rfl
@[simp] theorem tick_ackFlag (s : State) : (tick s).ackFlag = s.ackFlag := rfl
@[simp] theorem tick_lastAck (s : State) : (tick s).lastAck = s.lastAck := rfl
@[simp] theorem tick_lastAckLen (s : State) : (tick s).lastAckLen = s.lastAckLen := rfl
@[simp] theorem tick_ackTimer (s : State) : (tick s).ackTimer = tickedAckTimer s := rfl
@[simp] theorem tick_paceTimer (s : State) : (tick s).paceTimer = tickedPaceTimer s := rfl
@[simp] theorem tick_mtuL (s : State) : (tick s).mtuL = s.mtuL := rfl
@[simp] theorem tick_resp (s : State) : (tick s).resp = s.resp := rfl
@[simp] theorem tick_result (s : State) : (tick s).result = s.result := rfl
@[simp] theorem tick_pb (s : State) : (tick s).pb = s.pb := rfl
@[simp] theorem tick_tb (s : State) : (tick s).tb = s.tb := rfl
@[simp] theorem tick_cb (s : State) : (tick s).cb = s.cb := rfl
@[simp] theorem tick_cbLen (s : State) : (tick s).cbLen = s.cbLen := rfl
@[simp] theorem tick_wm (s : State) : (tick s).wm = s.wm := rfl
@[simp] theorem tick_statData (s : State) : (tick s).statData = s.statData := rfl
@[simp] theorem tick_tx (s : State) : (tick s).tx = s.tx := rfl
@[simp] theorem tick_env (s : State) : (tick s).env = s.env := rfl
@[simp] theorem tick_schedule (s : State) : (tick s).schedule = s.schedule := rfl
@[simp] theorem tick_cmdHeld (s : State) : (tick s).cmdHeld = s.cmdHeld := rfl
@[simp] theorem tick_uop (s : State) : (tick s).uop = s.uop := rfl
@[simp] theorem tick_unitAccess (s : State) : (tick s).unitAccess = s.unitAccess := rfl

/-! ## transform -/

@[simp] theorem transform_cfg (s : State) : (transform s).cfg = s.cfg := by
  rw [transform, invertStage_cfg, swapStage_cfg, reorderStage_cfg]
@[simp] theorem transform_phase (s : State) : (transform s).phase = s.phase := by
  rw [transform, invertStage_phase, swapStage_phase, reorderStage_phase]
@[simp] theorem transform_cause (s : State) : (transform s).cause = s.cause := by
  rw [transform, invertStage_cause, swapStage_cause, reorderStage_cause]
@[simp] theorem transform_jobId (s : State) : (transform s).jobId = s.jobId := by
  rw [transform, invertStage_jobId, swapStage_jobId, reorderStage_jobId]
@[simp] theorem transform_nframes (s : State) : (transform s).nframes = s.nframes := by
  rw [transform, invertStage_nframes, swapStage_nframes, reorderStage_nframes]
@[simp] theorem transform_cur (s : State) : (transform s).cur = s.cur := by
  rw [transform, invertStage_cur, swapStage_cur, reorderStage_cur]
@[simp] theorem transform_sub (s : State) : (transform s).sub = s.sub := by
  rw [transform, invertStage_sub, swapStage_sub, reorderStage_sub]
@[simp] theorem transform_frames (s : State) : (transform s).frames = s.frames := by
  rw [transform, invertStage_frames, swapStage_frames, reorderStage_frames]
@[simp] theorem transform_ackFlag (s : State) : (transform s).ackFlag = s.ackFlag := by
  rw [transform, invertStage_ackFlag, swapStage_ackFlag, reorderStage_ackFlag]
@[simp] theorem transform_lastAck (s : State) : (transform s).lastAck = s.lastAck := by
  rw [transform, invertStage_lastAck, swapStage_lastAck, reorderStage_lastAck]
@[simp] theorem transform_lastAckLen (s : State) : (transform s).lastAckLen = s.lastAckLen := by
  rw [transform, invertStage_lastAckLen, swapStage_lastAckLen, reorderStage_lastAckLen]
@[simp] theorem transform_ackTimer (s : State) : (transform s).ackTimer = s.ackTimer := by
  rw [transform, invertStage_ackTimer, swapStage_ackTimer, reorderStage_ackTimer]
@[simp] theorem transform_paceTimer (s : State) : (transform s).paceTimer = s.paceTimer := by
  rw [transform, invertStage_paceTimer, swapStage_paceTimer, reorderStage_paceTimer]
@[simp] theorem transform_mtuL (s : State) : (transform s).mtuL = s.mtuL := by
  rw [transform, invertStage_mtuL, swapStage_mtuL, reorderStage_mtuL]
@[simp] theorem transform_resp (s : State) : (transform s).resp = s.resp := by
  rw [transform, invertStage_resp, swapStage_resp, reorderStage_resp]
@[simp] theorem transform_result (s : State) : (transform s).result = s.result := by
  rw [transform, invertStage_result, swapStage_result, reorderStage_result]
@[simp] theorem transform_pb (s : State) : (transform s).pb = s.pb := by
  rw [transform, invertStage_pb, swapStage_pb, reorderStage_pb]
@[simp] theorem transform_cb (s : State) : (transform s).cb = s.cb := by
  rw [transform, invertStage_cb, swapStage_cb, reorderStage_cb]
@[simp] theorem transform_cbLen (s : State) : (transform s).cbLen = s.cbLen := by
  rw [transform, invertStage_cbLen, swapStage_cbLen, reorderStage_cbLen]
@[simp] theorem transform_wm (s : State) : (transform s).wm = s.wm := by
  rw [transform, invertStage_wm, swapStage_wm, reorderStage_wm]
@[simp] theorem transform_statData (s : State) : (transform s).statData = s.statData := by
  rw [transform, invertStage_statData, swapStage_statData, reorderStage_statData]
@[simp] theorem transform_tx (s : State) : (transform s).tx = s.tx := by
  rw [transform, invertStage_tx, swapStage_tx, reorderStage_tx]
@[simp] theorem transform_env (s : State) : (transform s).env = s.env := by
  rw [transform, invertStage_env, swapStage_env, reorderStage_env]
@[simp] theorem transform_schedule (s : State) : (transform s).schedule = s.schedule := by
  rw [transform, invertStage_schedule, swapStage_schedule, reorderStage_schedule]
@[simp] theorem transform_cmdHeld (s : State) : (transform s).cmdHeld = s.cmdHeld := by
  rw [transform, invertStage_cmdHeld, swapStage_cmdHeld, reorderStage_cmdHeld]
@[simp] theorem transform_uop (s : State) : (transform s).uop = s.uop := by
  rw [transform, invertStage_uop, swapStage_uop, reorderStage_uop]
@[simp] theorem transform_unitAccess (s : State) : (transform s).unitAccess = s.unitAccess := by
  rw [transform, invertStage_unitAccess, swapStage_unitAccess, reorderStage_unitAccess]

/-! ## hold -/

@[simp] theorem hold_cfg (p : Packet) (s : State) : (hold p s).cfg = s.cfg := by cases p <;> rfl
@[simp] theorem hold_phase (p : Packet) (s : State) : (hold p s).phase = s.phase := by cases p <;> rfl
@[simp] theorem hold_cause (p : Packet) (s : State) : (hold p s).cause = s.cause := by cases p <;> rfl
@[simp] theorem hold_jobId (p : Packet) (s : State) : (hold p s).jobId = s.jobId := by cases p <;> rfl
@[simp] theorem hold_nframes (p : Packet) (s : State) : (hold p s).nframes = s.nframes := by cases p <;> rfl
@[simp] theorem hold_cur (p : Packet) (s : State) : (hold p s).cur = s.cur := by cases p <;> rfl
@[simp] theorem hold_sub (p : Packet) (s : State) : (hold p s).sub = s.sub := by cases p <;> rfl
@[simp] theorem hold_frames (p : Packet) (s : State) : (hold p s).frames = s.frames := by cases p <;> rfl
@[simp] theorem hold_ackFlag (p : Packet) (s : State) : (hold p s).ackFlag = s.ackFlag := by cases p <;> rfl
@[simp] theorem hold_lastAck (p : Packet) (s : State) : (hold p s).lastAck = s.lastAck := by cases p <;> rfl
@[simp] theorem hold_lastAckLen (p : Packet) (s : State) : (hold p s).lastAckLen = s.lastAckLen := by cases p <;> rfl
@[simp] theorem hold_ackTimer (p : Packet) (s : State) : (hold p s).ackTimer = s.ackTimer := by cases p <;> rfl
@[simp] theorem hold_paceTimer (p : Packet) (s : State) : (hold p s).paceTimer = s.paceTimer := by cases p <;> rfl
@[simp] theorem hold_mtuL (p : Packet) (s : State) : (hold p s).mtuL = s.mtuL := by cases p <;> rfl
@[simp] theorem hold_resp (p : Packet) (s : State) : (hold p s).resp = s.resp := by cases p <;> rfl
@[simp] theorem hold_result (p : Packet) (s : State) : (hold p s).result = s.result := by cases p <;> rfl
@[simp] theorem hold_pb (p : Packet) (s : State) : (hold p s).pb = s.pb := by cases p <;> rfl
@[simp] theorem hold_tb (p : Packet) (s : State) : (hold p s).tb = s.tb := by cases p <;> rfl
@[simp] theorem hold_cb (p : Packet) (s : State) : (hold p s).cb = s.cb := by cases p <;> rfl
@[simp] theorem hold_cbLen (p : Packet) (s : State) : (hold p s).cbLen = s.cbLen := by cases p <;> rfl
@[simp] theorem hold_wm (p : Packet) (s : State) : (hold p s).wm = s.wm := by cases p <;> rfl
@[simp] theorem hold_statData (p : Packet) (s : State) : (hold p s).statData = s.statData := by cases p <;> rfl
@[simp] theorem hold_tx (p : Packet) (s : State) : (hold p s).tx = s.tx := by cases p <;> rfl
@[simp] theorem hold_env (p : Packet) (s : State) : (hold p s).env = s.env := by cases p <;> rfl
@[simp] theorem hold_schedule (p : Packet) (s : State) : (hold p s).schedule = s.schedule := by cases p <;> rfl
@[simp] theorem hold_uop (p : Packet) (s : State) : (hold p s).uop = s.uop := by cases p <;> rfl
@[simp] theorem hold_unitAccess (p : Packet) (s : State) : (hold p s).unitAccess = s.unitAccess := by cases p <;> rfl

/-- Only a CMD word waits. -/
@[simp] theorem hold_cmd_cmdHeld (w : CmdWord) (s : State) : (hold (.cmd w) s).cmdHeld = s.cmdHeld ++ [w] := rfl

/-! ## storeBlock and compressRange -/

@[simp] theorem storeBlock_cfg (r : Option (List Byte)) (entries : List (Nat × Nat)) (s : State) :
    (storeBlock r entries s).cfg = s.cfg := by cases r <;> rfl
@[simp] theorem storeBlock_phase (r : Option (List Byte)) (entries : List (Nat × Nat)) (s : State) :
    (storeBlock r entries s).phase = s.phase := by cases r <;> rfl
@[simp] theorem storeBlock_cause (r : Option (List Byte)) (entries : List (Nat × Nat)) (s : State) :
    (storeBlock r entries s).cause = s.cause := by cases r <;> rfl
@[simp] theorem storeBlock_jobId (r : Option (List Byte)) (entries : List (Nat × Nat)) (s : State) :
    (storeBlock r entries s).jobId = s.jobId := by cases r <;> rfl
@[simp] theorem storeBlock_nframes (r : Option (List Byte)) (entries : List (Nat × Nat)) (s : State) :
    (storeBlock r entries s).nframes = s.nframes := by cases r <;> rfl
@[simp] theorem storeBlock_cur (r : Option (List Byte)) (entries : List (Nat × Nat)) (s : State) :
    (storeBlock r entries s).cur = s.cur := by cases r <;> rfl
@[simp] theorem storeBlock_sub (r : Option (List Byte)) (entries : List (Nat × Nat)) (s : State) :
    (storeBlock r entries s).sub = s.sub := by cases r <;> rfl
@[simp] theorem storeBlock_frames (r : Option (List Byte)) (entries : List (Nat × Nat)) (s : State) :
    (storeBlock r entries s).frames = s.frames := by cases r <;> rfl
@[simp] theorem storeBlock_ackFlag (r : Option (List Byte)) (entries : List (Nat × Nat)) (s : State) :
    (storeBlock r entries s).ackFlag = s.ackFlag := by cases r <;> rfl
@[simp] theorem storeBlock_lastAck (r : Option (List Byte)) (entries : List (Nat × Nat)) (s : State) :
    (storeBlock r entries s).lastAck = s.lastAck := by cases r <;> rfl
@[simp] theorem storeBlock_lastAckLen (r : Option (List Byte)) (entries : List (Nat × Nat)) (s : State) :
    (storeBlock r entries s).lastAckLen = s.lastAckLen := by cases r <;> rfl
@[simp] theorem storeBlock_ackTimer (r : Option (List Byte)) (entries : List (Nat × Nat)) (s : State) :
    (storeBlock r entries s).ackTimer = s.ackTimer := by cases r <;> rfl
@[simp] theorem storeBlock_paceTimer (r : Option (List Byte)) (entries : List (Nat × Nat)) (s : State) :
    (storeBlock r entries s).paceTimer = s.paceTimer := by cases r <;> rfl
@[simp] theorem storeBlock_mtuL (r : Option (List Byte)) (entries : List (Nat × Nat)) (s : State) :
    (storeBlock r entries s).mtuL = s.mtuL := by cases r <;> rfl
@[simp] theorem storeBlock_resp (r : Option (List Byte)) (entries : List (Nat × Nat)) (s : State) :
    (storeBlock r entries s).resp = s.resp := by cases r <;> rfl
@[simp] theorem storeBlock_result (r : Option (List Byte)) (entries : List (Nat × Nat)) (s : State) :
    (storeBlock r entries s).result = s.result := by cases r <;> rfl
@[simp] theorem storeBlock_pb (r : Option (List Byte)) (entries : List (Nat × Nat)) (s : State) :
    (storeBlock r entries s).pb = s.pb := by cases r <;> rfl
@[simp] theorem storeBlock_tb (r : Option (List Byte)) (entries : List (Nat × Nat)) (s : State) :
    (storeBlock r entries s).tb = s.tb := by cases r <;> rfl
@[simp] theorem storeBlock_statData (r : Option (List Byte)) (entries : List (Nat × Nat)) (s : State) :
    (storeBlock r entries s).statData = s.statData := by cases r <;> rfl
@[simp] theorem storeBlock_tx (r : Option (List Byte)) (entries : List (Nat × Nat)) (s : State) :
    (storeBlock r entries s).tx = s.tx := by cases r <;> rfl
@[simp] theorem storeBlock_env (r : Option (List Byte)) (entries : List (Nat × Nat)) (s : State) :
    (storeBlock r entries s).env = s.env := by cases r <;> rfl
@[simp] theorem storeBlock_schedule (r : Option (List Byte)) (entries : List (Nat × Nat)) (s : State) :
    (storeBlock r entries s).schedule = s.schedule := by cases r <;> rfl
@[simp] theorem storeBlock_cmdHeld (r : Option (List Byte)) (entries : List (Nat × Nat)) (s : State) :
    (storeBlock r entries s).cmdHeld = s.cmdHeld := by cases r <;> rfl
@[simp] theorem storeBlock_uop (r : Option (List Byte)) (entries : List (Nat × Nat)) (s : State) :
    (storeBlock r entries s).uop = s.uop := by cases r <;> rfl
@[simp] theorem storeBlock_unitAccess (r : Option (List Byte)) (entries : List (Nat × Nat)) (s : State) :
    (storeBlock r entries s).unitAccess = s.unitAccess := by cases r <;> rfl

@[simp] theorem storeBlock_wm (r : Option (List Byte)) (entries : List (Nat × Nat)) (s : State) :
    (storeBlock r entries s).wm = ⟨s.wm.era, entries⟩ := by cases r <;> rfl

@[simp] theorem compressRange_cfg (off n : Nat) (s : State) : (compressRange off n s).cfg = s.cfg := by
  simp [compressRange]
@[simp] theorem compressRange_phase (off n : Nat) (s : State) : (compressRange off n s).phase = s.phase := by
  simp [compressRange]
@[simp] theorem compressRange_cause (off n : Nat) (s : State) : (compressRange off n s).cause = s.cause := by
  simp [compressRange]
@[simp] theorem compressRange_jobId (off n : Nat) (s : State) : (compressRange off n s).jobId = s.jobId := by
  simp [compressRange]
@[simp] theorem compressRange_nframes (off n : Nat) (s : State) : (compressRange off n s).nframes = s.nframes := by
  simp [compressRange]
@[simp] theorem compressRange_cur (off n : Nat) (s : State) : (compressRange off n s).cur = s.cur := by
  simp [compressRange]
@[simp] theorem compressRange_sub (off n : Nat) (s : State) : (compressRange off n s).sub = s.sub := by
  simp [compressRange]
@[simp] theorem compressRange_frames (off n : Nat) (s : State) : (compressRange off n s).frames = s.frames := by
  simp [compressRange]
@[simp] theorem compressRange_ackFlag (off n : Nat) (s : State) : (compressRange off n s).ackFlag = s.ackFlag := by
  simp [compressRange]
@[simp] theorem compressRange_lastAck (off n : Nat) (s : State) : (compressRange off n s).lastAck = s.lastAck := by
  simp [compressRange]
@[simp] theorem compressRange_lastAckLen (off n : Nat) (s : State) : (compressRange off n s).lastAckLen = s.lastAckLen := by
  simp [compressRange]
@[simp] theorem compressRange_ackTimer (off n : Nat) (s : State) : (compressRange off n s).ackTimer = s.ackTimer := by
  simp [compressRange]
@[simp] theorem compressRange_paceTimer (off n : Nat) (s : State) : (compressRange off n s).paceTimer = s.paceTimer := by
  simp [compressRange]
@[simp] theorem compressRange_mtuL (off n : Nat) (s : State) : (compressRange off n s).mtuL = s.mtuL := by
  simp [compressRange]
@[simp] theorem compressRange_resp (off n : Nat) (s : State) : (compressRange off n s).resp = s.resp := by
  simp [compressRange]
@[simp] theorem compressRange_result (off n : Nat) (s : State) : (compressRange off n s).result = s.result := by
  simp [compressRange]
@[simp] theorem compressRange_pb (off n : Nat) (s : State) : (compressRange off n s).pb = s.pb := by
  simp [compressRange]
@[simp] theorem compressRange_tb (off n : Nat) (s : State) : (compressRange off n s).tb = s.tb := by
  simp [compressRange]
@[simp] theorem compressRange_statData (off n : Nat) (s : State) : (compressRange off n s).statData = s.statData := by
  simp [compressRange]
@[simp] theorem compressRange_tx (off n : Nat) (s : State) : (compressRange off n s).tx = s.tx := by
  simp [compressRange]
@[simp] theorem compressRange_env (off n : Nat) (s : State) : (compressRange off n s).env = s.env := by
  simp [compressRange]
@[simp] theorem compressRange_schedule (off n : Nat) (s : State) : (compressRange off n s).schedule = s.schedule := by
  simp [compressRange]
@[simp] theorem compressRange_cmdHeld (off n : Nat) (s : State) : (compressRange off n s).cmdHeld = s.cmdHeld := by
  simp [compressRange]
@[simp] theorem compressRange_uop (off n : Nat) (s : State) : (compressRange off n s).uop = s.uop := by
  simp [compressRange]
@[simp] theorem compressRange_unitAccess (off n : Nat) (s : State) : (compressRange off n s).unitAccess = s.unitAccess := by
  simp [compressRange]

end Sys2Proof.Machine
end

