-- ==== Sys2Proof/Laws/Ops.lean ====
section
/-! SUPPORT. What each shared operation can do, said once. -/

namespace Sys2Proof.Machine

open Host (Outcome)

/-! ## The ports -/

theorem onCmdPort_free {p : Packet} {s t : State} (h : s.phase ≠ .preparing) : onCmdPort p s t = t := by
  simp [onCmdPort, State.cmdBusy, h]

theorem onCmdPort_busy {p : Packet} {s t : State} (h : s.phase = .preparing) :
    onCmdPort p s t = hold p s := by
  simp [onCmdPort, State.cmdBusy, h]

/-- A CMD-port operation either waits, with nothing else changed, or takes its effect. -/
theorem onCmdPort_cases (p : Packet) (s t : State) :
    (s.phase = .preparing ∧ onCmdPort p s t = hold p s) ∨
      (s.phase ≠ .preparing ∧ onCmdPort p s t = t) := by
  by_cases h : s.phase = .preparing
  · exact .inl ⟨h, onCmdPort_busy h⟩
  · exact .inr ⟨h, onCmdPort_free h⟩

/-- A sequencer's turn either passes or takes its effect. -/
theorem whenEnabled_cases (b : Bool) (s t : State) :
    (b = false ∧ whenEnabled b s t = s) ∨ (b = true ∧ whenEnabled b s t = t) := by
  cases b <;> simp [whenEnabled]

/-! ## Fetching -/

theorem takeHeld_cases (queue : List CmdWord) (s : State) :
    takeHeld queue s = .idle s ∨
      ∃ w rest, queue = w :: rest ∧ s.phase ≠ .preparing ∧
        takeHeld queue s = .packet (.cmd w) (setHeld rest s) := by
  unfold takeHeld State.cmdBusy
  cases queue <;> by_cases h : s.phase = .preparing <;> simp [h]

/-- Fetching changes the environment side of the state only. -/
theorem fetch_keeps {s : State} :
    (∀ t, fetch s = .idle t →
      t = { s with schedule := t.schedule, env := t.env, cmdHeld := t.cmdHeld }) ∧
    (∀ p t, fetch s = .packet p t →
      t = { s with schedule := t.schedule, env := t.env, cmdHeld := t.cmdHeld }) := by
  unfold fetch
  split
  · constructor
    · intro t h
      cases h
      rfl
    · intro p t h
      cases h
  · rename_i turn rest hs
    split
    · rename_i p hp
      cases p with
      | cmd w =>
        simp only [offered]
        split
        · constructor
          · intro t h
            cases h
          · intro q t h
            cases h
            rfl
        · rcases takeHeld_cases ((beginTurn turn rest s).cmdHeld ++ [w]) (beginTurn turn rest s) with
            h' | ⟨w', rest', -, -, h'⟩ <;> rw [h'] <;> constructor
          · intro t h; cases h; rfl
          · intro q t h; cases h
          · intro t h; cases h
          · intro q t h; cases h; rfl
      | stat w =>
        constructor
        · intro t h; cases h
        · intro q t h; cases h; rfl
      | core l a d =>
        simp only [offered]
        split
        · constructor
          · intro t h; cases h; rfl
          · intro q t h; cases h
        · constructor
          · intro t h; cases h
          · intro q t h; cases h; rfl
    · rcases takeHeld_cases s.cmdHeld (beginTurn turn rest s) with
        h' | ⟨w', rest', -, -, h'⟩ <;> rw [h'] <;> constructor
      · intro t h; cases h; rfl
      · intro q t h; cases h
      · intro t h; cases h
      · intro q t h; cases h; rfl

/-- What a step that answers a next state did: the configuration is legal, and either no agent moved, or a
packet was run as the operation it decodes to, or rejected. -/
theorem step_cases {s t : State} (h : step s = .next t) :
    s.cfg.legal = true ∧
      (fetch s = .idle t ∨
        ∃ p s', fetch s = .packet p s' ∧
          ((∃ i, decode p = .ok i ∧ exec i s' = .next t) ∨
            ((∃ e, decode p = .error e) ∧ rejected p s' = .next t))) := by
  unfold step at h
  split at h
  · rename_i hc
    refine ⟨hc, ?_⟩
    cases hf : fetch s with
    | idle s' =>
      rw [hf] at h
      exact .inl (by simpa using h)
    | packet p s' =>
      rw [hf] at h
      refine .inr ⟨p, s', rfl, ?_⟩
      simp only [runPacket] at h
      cases hd : decode p with
      | ok i => rw [hd] at h; exact .inl ⟨i, rfl, h⟩
      | error e => rw [hd] at h; exact .inr ⟨⟨e, rfl⟩, h⟩
  · cases h

/-- A rejected packet: on the CMD port it waits or is answered, on the STAT port it is answered 0. -/
theorem rejected_cases {p : Packet} {s t : State} (h : rejected p s = .next t) :
    (∃ w, p = .cmd w ∧ s.phase = .preparing ∧ t = hold (.cmd w) s) ∨
      (∃ w, p = .cmd w ∧ s.phase ≠ .preparing ∧ t = respond .illegalCommand s) ∨
        ∃ w, p = .stat w ∧ t = answerStat 0 s := by
  cases p with
  | cmd w =>
    simp only [rejected, Outcome.next.injEq] at h
    rcases onCmdPort_cases (.cmd w) s (respond .illegalCommand s) with ⟨hp, he⟩ | ⟨hp, he⟩
    · exact .inl ⟨w, rfl, hp, by rw [← h, he]⟩
    · exact .inr (.inl ⟨w, rfl, hp, by rw [← h, he]⟩)
  | stat w =>
    simp only [rejected, Outcome.next.injEq] at h
    exact .inr (.inr ⟨w, rfl, h.symm⟩)
  | core l a d => simp [rejected] at h

/-! ## The compressor's call and the frame list of a job -/

/-- What a call goes on with never exceeds the bound of 42_block_compressor.md R172. -/
theorem boundedResult_le {n : Nat} {r : Option (List Byte)} {bytes : List Byte}
    (h : boundedResult n r = some bytes) : bytes.length ≤ maxCompressedSize n := by
  cases r with
  | none => simp [boundedResult] at h
  | some b =>
    simp only [boundedResult] at h
    split at h
    · rename_i hb
      cases h
      exact hb
    · cases h

theorem compressedRange_le {off n : Nat} {s : State} {bytes : List Byte}
    (h : compressedRange off n s = some bytes) : bytes.length ≤ maxCompressedSize n :=
  boundedResult_le h

/-- After a call that succeeds, `CB[0 .. CB_LEN)` is the stream. -/
theorem blockPayload_compressRange {off n : Nat} {s : State} {bytes : List Byte}
    (h : compressedRange off n s = some bytes) : blockPayload (compressRange off n s) = bytes := by
  have : compressRange off n s = storeBlock (some bytes) (runLz s.cfg.codec (s.tb.readBytes .tb off n)).2 s := by
    simp [compressRange, h]
  rw [this]
  exact Memory.readBytes_writeBytes .cb s.cb 0 bytes

/-- A call of the compressor writes `CB`, `CB_LEN` and `WM` only. -/
theorem compressRange_keeps (off n : Nat) (s : State) :
    ∃ cb cbLen wm, compressRange off n s = setBlock cb cbLen wm s := by
  unfold compressRange
  cases compressedRange off n s <;> exact ⟨_, _, _, rfl⟩

/-- The loop of `FE.JOB` writes `CB`, `CB_LEN` and `WM` only. -/
theorem jobFrames_keeps (groups : List Group) : ∀ s : State,
    ∃ cb cbLen wm, (jobFrames groups s).1 = setBlock cb cbLen wm s := by
  induction groups with
  | nil => intro s; exact ⟨s.cb, s.cbLen, s.wm, rfl⟩
  | cons g rest ih =>
    intro s
    obtain ⟨cb, cbLen, wm, hc⟩ := compressRange_keeps (g.col0 * s.cfg.bpc) (g.width * s.cfg.bpc) s
    simp only [jobFrames]
    split
    · obtain ⟨cb', cbLen', wm', h'⟩ := ih (compressRange (g.col0 * s.cfg.bpc) (g.width * s.cfg.bpc) s)
      exact ⟨cb', cbLen', wm', by rw [h', hc]; rfl⟩
    · exact ⟨cb, cbLen, wm, hc⟩

theorem runJob_keeps (s : State) :
    ∃ cb cbLen wm, (runJob s).1 = setBlock cb cbLen wm s := jobFrames_keeps (groupsOf s.cfg) s

/-- The frame a group gets, from the bytes of `TB` alone (43_frame_encoder.md R203, R210). -/
def groupFrame (s : State) (g : Group) : Option Frame :=
  (compressedRange (g.col0 * s.cfg.bpc) (g.width * s.cfg.bpc) s).map
    (frameOf s.cfg s.jobId g.fr)

theorem compressedRange_congr {off n : Nat} {s t : State} (hc : t.cfg = s.cfg) (ht : t.tb = s.tb) :
    compressedRange off n t = compressedRange off n s := by
  simp [compressedRange, hc, ht]

theorem groupFrame_congr {s t : State} (hc : t.cfg = s.cfg) (hj : t.jobId = s.jobId)
    (ht : t.tb = s.tb) : groupFrame t = groupFrame s := by
  funext g
  simp [groupFrame, hc, hj, compressedRange_congr hc ht]

/-- The frame list of `FE.JOB` is the list of the groups' frames, or none when some group has none. -/
theorem jobFrames_eq (groups : List Group) : ∀ s : State,
    (jobFrames groups s).2 = groups.mapM (groupFrame s) := by
  induction groups with
  | nil => intro s; rfl
  | cons g rest ih =>
    intro s
    simp only [jobFrames, List.mapM_cons]
    cases hr : compressedRange (g.col0 * s.cfg.bpc) (g.width * s.cfg.bpc) s with
    | none => simp [groupFrame, hr]
    | some bytes =>
      have hb := blockPayload_compressRange hr
      simp only [Option.isSome_some, if_true, ih, groupFrame, hr, Option.map_some]
      rw [show groupFrame (compressRange (g.col0 * s.cfg.bpc) (g.width * s.cfg.bpc) s) = groupFrame s from
        groupFrame_congr (by simp) (by simp) (by simp)]
      have hf : buildFrame g.fr (compressRange (g.col0 * s.cfg.bpc) (g.width * s.cfg.bpc) s) =
          frameOf s.cfg s.jobId g.fr bytes := by
        simp [buildFrame, hb]
      simp only [hf]
      cases rest.mapM (groupFrame s) <;> rfl

/-- The result of `FE.JOB`, from the groups' frames. -/
theorem runJob_result (s : State) :
    (runJob s).2 = jobResult (groupsOf s.cfg) ((groupsOf s.cfg).mapM (groupFrame s)) := by
  simp only [runJob, jobFrames_eq]

/-- What `CT.PREP` can do (44_transmission_controller.md R233). -/
theorem prepareJob_cases (s : State) :
    (s.env.allocOk = false ∧ prepareJob s = fail .allocationFailure (setPace 0 s)) ∨
    (s.env.allocOk = true ∧ ∃ cb cbLen wm,
      (groupsOf s.cfg = [] ∧
        prepareJob s = fail .emptyFrameList (setBlock cb cbLen wm (transform (setPace 0 s)))) ∨
      (groupsOf s.cfg ≠ [] ∧ (groupsOf s.cfg).mapM (groupFrame (transform s)) = none ∧
        prepareJob s = fail .compressionFailure (setBlock cb cbLen wm (transform (setPace 0 s)))) ∨
      ∃ list, groupsOf s.cfg ≠ [] ∧ (groupsOf s.cfg).mapM (groupFrame (transform s)) = some list ∧
        prepareJob s = startSending list (setBlock cb cbLen wm (transform (setPace 0 s)))) := by
  by_cases ha : s.env.allocOk = false
  · exact .inl ⟨ha, by simp only [prepareJob, ha, if_true]⟩
  · refine .inr ⟨by simpa using ha, ?_⟩
    obtain ⟨cb, cbLen, wm, hk⟩ := runJob_keeps (transform (setPace 0 s))
    refine ⟨cb, cbLen, wm, ?_⟩
    have hg : groupFrame (transform (setPace 0 s)) = groupFrame (transform s) :=
      groupFrame_congr rfl rfl rfl
    have hp : prepareJob s = finishPrep
        (jobResult (groupsOf s.cfg) ((groupsOf s.cfg).mapM (groupFrame (transform s))))
        (setBlock cb cbLen wm (transform (setPace 0 s))) := by
      have hr := runJob_result (transform (setPace 0 s))
      rw [hg] at hr
      simp only [prepareJob, ha, hk, hr]
      rfl
    rw [hp]
    by_cases hn : groupsOf s.cfg = []
    · exact .inl ⟨hn, by simp [hn, jobResult, finishPrep]⟩
    · have he : (groupsOf s.cfg).isEmpty = false := by simpa using hn
      cases hm : (groupsOf s.cfg).mapM (groupFrame (transform s)) with
      | none => exact .inr (.inl ⟨hn, rfl, by simp [jobResult, he, finishPrep]⟩)
      | some list => exact .inr (.inr ⟨list, hn, rfl, by simp [jobResult, he, finishPrep]⟩)

/-- What `CT.WRITE` can do when it answers a next state (44_transmission_controller.md R235). -/
theorem execCtWrite_cases {s t : State} (h : execCtWrite s = .next t) :
    (¬(s.phase = .sending ∧ s.paceTimer = 0) ∧ t = s) ∨
    (s.phase = .sending ∧ s.paceTimer = 0 ∧ ∃ f bytes, s.frames[s.cur.toNat]? = some f ∧
      slice? f s.mtuL.toNat s.sub.toNat = some bytes ∧
      t = writeSlice bytes (nslices f s.mtuL.toNat) s) := by
  unfold execCtWrite at h
  split at h
  · rename_i he
    split at h
    · cases h
    · rename_i f hf
      split at h
      · cases h
      · rename_i bytes hb
        simp only [Outcome.next.injEq] at h
        exact .inr ⟨he.1, he.2, f, bytes, hf, hb, h.symm⟩
  · rename_i he
    simp only [Outcome.next.injEq] at h
    exact .inl ⟨he, h.symm⟩

/-- What a written slice does (R235). -/
theorem writeSlice_cases (bytes : List Byte) (count : Nat) (s : State) :
    (s.env.txOk = false ∧ writeSlice bytes count s = fail .writeFailure (present bytes s)) ∨
    (s.env.txOk = true ∧ s.sub.toNat + 1 = count ∧
      writeSlice bytes count s = enterAwaiting (present bytes s)) ∨
    (s.env.txOk = true ∧ s.sub.toNat + 1 ≠ count ∧
      writeSlice bytes count s = beginPacing (present bytes s)) := by
  unfold writeSlice afterWrite
  by_cases hok : s.env.txOk = true
  · by_cases hc : s.sub.toNat + 1 = count
    · exact .inr (.inl ⟨hok, hc, by simp [hok, hc]⟩)
    · exact .inr (.inr ⟨hok, hc, by simp [hok, hc]⟩)
  · exact .inl ⟨by simpa using hok, by simp [hok]⟩

/-! ## The canonical form of the memories -/

/-- The entries a call leaves are those of the work memory, each of its width. -/
theorem wf_wmEntries (codec : Codec) (era : Nat) (f : Nat → Nat) :
    (WorkMemory.mk era (wmEntries codec f)).wf codec = true := by
  simp only [WorkMemory.wf, wmEntries, Bool.and_eq_true, List.all_map, List.all_eq_true,
    List.mem_range, Function.comp_apply, decide_eq_true_eq]
  exact ⟨cellsRising_map_range _ _, fun e he => ⟨he, Nat.mod_lt _ (by positivity)⟩⟩

@[simp] theorem WorkMemory.wf_forget (codec : Codec) (m : WorkMemory) : m.forget.wf codec = true := rfl

/-- What every compressor leaves in the work memory, said once. -/
theorem runLz_entries (codec : Codec) (input : List Byte) :
    ∃ f, (runLz codec input).2 = wmEntries codec f := by
  cases codec with
  | refLz => exact ⟨fun e => (entryOf (refLz input).2 e).toNat, by simp only [runLz]⟩
  | refLzUpTo limit =>
    by_cases h : input.length ≤ limit
    · exact ⟨fun e => (entryOf (refLz input).2 e).toNat, by simp only [runLz, h, if_true]⟩
    · exact ⟨fun _ => 0, by simp only [runLz, h, if_false]⟩
  | custom k => exact ⟨Config.customScratch k input, by simp only [runLz]⟩

theorem wf_runLz (codec : Codec) (era : Nat) (input : List Byte) :
    (WorkMemory.mk era (runLz codec input).2).wf codec = true := by
  obtain ⟨f, hf⟩ := runLz_entries codec input
  rw [hf]
  exact wf_wmEntries codec era f

/-- An entry that nothing has written shows the free value of its era. -/
theorem WorkMemory.read_forget (codec : Codec) (m : WorkMemory) (e : Nat) :
    m.forget.read codec e = Config.unwrittenEntry (m.era + 1) e % 2 ^ codec.entryBits := rfl

/-- Every entry of `WM` after a call is one the call wrote. -/
theorem WorkMemory.read_wmEntries (codec : Codec) (era : Nat) (f : Nat → Nat) {e : Nat}
    (he : e < codec.entries) :
    (WorkMemory.mk era (wmEntries codec f)).read codec e = f e % 2 ^ codec.entryBits := by
  simp [WorkMemory.read, wmEntries, cellsGet_map, he]

/-- A compressor other than REF-LZ answers nothing that breaks the contract of 42_block_compressor.md R175:
its streams meet the bound and its decoder gives the input back. -/
theorem conformingLz_some {k : Nat} {input r : List Byte} (h : conformingLz k input = some r) :
    r.length ≤ maxCompressedSize input.length ∧ Config.customUnlz k r = some input := by
  unfold conformingLz at h
  split at h
  · split at h
    · rename_i hc
      cases h
      exact hc
    · cases h
  · cases h

theorem compressRange_memoriesWf {s : State} (h : s.memoriesWf) (off n : Nat) :
    (compressRange off n s).memoriesWf := by
  obtain ⟨hp, ht, hc, hw⟩ := h
  refine ⟨by simpa using hp, by simpa using ht, ?_, ?_⟩
  · unfold compressRange
    cases compressedRange off n s with
    | none => rfl
    | some bytes => exact Memory.wf_writeBytes bytes hc 0
  · simp only [compressRange, storeBlock_wm, storeBlock_cfg]
    exact wf_runLz _ _ _

theorem jobFrames_memoriesWf (groups : List Group) : ∀ {s : State}, s.memoriesWf →
    (jobFrames groups s).1.memoriesWf := by
  induction groups with
  | nil => intro s h; exact h
  | cons g rest ih =>
    intro s h
    simp only [jobFrames]
    split
    · exact ih (compressRange_memoriesWf h _ _)
    · exact compressRange_memoriesWf h _ _

theorem transform_memoriesWf {s : State} (h : s.memoriesWf) : (transform s).memoriesWf := by
  refine ⟨?_, ?_, ?_, ?_⟩
  · simpa using h.1
  · simp [transform]
  · simpa using h.2.2.1
  · simpa using h.2.2.2

theorem setPixel_wf (c : Config) {m : Memory} (h : m.wf = true) (x y : Nat) (v : Bool) :
    (setPixel c m x y v).wf = true := Memory.wf_write h _ _

end Sys2Proof.Machine
end

