-- ==== Sys2Proof/Laws/Frames.lean ====
section
/-! SUPPORT. Bounds of a legal configuration, of the column groups, of frames and of their slices. -/

namespace Sys2Proof.Machine

/-- What R8 and R9 say of a legal configuration, as arithmetic. -/
theorem legal_bounds {c : Config} (h : c.legal = true) :
    1 ≤ c.w ∧ c.w ≤ 32767 ∧ 16 ≤ c.h ∧ c.h ≤ 32767 ∧ c.h % 16 = 0 ∧ c.bitmapSize ≤ 65535 ∧
      1 ≤ c.chunkW ∧ c.chunkW ≤ 65535 ∧ c.typeData ≠ c.typeFinal ∧ 1 ≤ c.ackTimeoutTicks ∧
      c.ackTimeoutTicks ≤ 65535 ∧ c.pacingTicks ≤ 65535 ∧ 1 ≤ c.ackMax ∧ c.ackMax ≤ 32 ∧
      c.cbSize + 20 ≤ 65535 := by
  simp only [Config.legal, Bool.and_eq_true, decide_eq_true_eq] at h
  tauto

/-- In a legal configuration the pixel buffer is `W` whole columns (00_scope.md R8). -/
theorem bitmapSize_eq {c : Config} (h : c.legal = true) : c.bitmapSize = c.w * c.bpc := by
  have hm := (legal_bounds h).2.2.2.2.1
  have h8 : c.h = 8 * (c.h / 8) := by omega
  unfold Config.bitmapSize Config.bpc
  conv_lhs => rw [h8]
  rw [show c.w * (8 * (c.h / 8)) = 8 * (c.w * (c.h / 8)) by ring]
  exact Nat.mul_div_cancel_left _ (by norm_num)

/-- The bound of 42_block_compressor.md R172 grows with the input. -/
theorem maxCompressedSize_mono {a b : Nat} (h : a ≤ b) : maxCompressedSize a ≤ maxCompressedSize b := by
  have := Nat.div_le_div_right (c := 16) h
  unfold maxCompressedSize
  omega

/-- How many groups there are: enough to cover `W`, and one fewer would not do. -/
theorem groupCount_bounds {c : Config} (h : c.legal = true) :
    1 ≤ groupCount c ∧ groupCount c ≤ 32767 ∧ (groupCount c - 1) * c.chunkW < c.w ∧
      c.w ≤ groupCount c * c.chunkW := by
  obtain ⟨h1, h2, -, -, -, -, h3, -⟩ := legal_bounds h
  unfold groupCount ceilDiv
  have hd := Nat.div_add_mod (c.w + c.chunkW - 1) c.chunkW
  have hm := Nat.mod_lt (c.w + c.chunkW - 1) (show 0 < c.chunkW by omega)
  generalize (c.w + c.chunkW - 1) / c.chunkW = q at *
  have hq : 1 ≤ q := by
    rcases Nat.eq_zero_or_pos q with rfl | h0
    · simp at hd
      omega
    · exact h0
  have hqm : (q - 1) * c.chunkW = c.chunkW * q - c.chunkW := by
    rw [Nat.sub_mul, Nat.mul_comm]
    omega
  have hle : c.chunkW ≤ c.chunkW * q := Nat.le_mul_of_pos_right _ hq
  have hone : (q - 1) * 1 ≤ (q - 1) * c.chunkW := Nat.mul_le_mul_left _ h3
  refine ⟨hq, by omega, by omega, ?_⟩
  rw [Nat.mul_comm]
  omega

@[simp] theorem groupsOf_length (c : Config) : (groupsOf c).length = groupCount c := by
  simp [groupsOf]

/-- `mapM` in `Option` answers a list of the same length whose entries are the images in order. -/
theorem mapM_option_some {α β : Type} (f : α → Option β) : ∀ (l : List α) (r : List β),
    l.mapM f = some r → r.length = l.length ∧ ∀ (k : Nat) (a : α), l[k]? = some a → f a = r[k]? ∧ f a ≠ none := by
  intro l
  induction l with
  | nil => intro r h; simp at h; subst h; simp
  | cons a l ih =>
    intro r h
    simp only [List.mapM_cons] at h
    cases ha : f a with
    | none => simp [ha] at h
    | some b =>
      cases hl : l.mapM f with
      | none => simp [ha, hl] at h
      | some bs =>
        simp only [ha, hl, Option.bind_eq_bind, Option.bind_some, Option.pure_def,
          Option.some.injEq] at h
        subst h
        obtain ⟨h1, h2⟩ := ih bs hl
        refine ⟨by simp [h1], fun k x hk => ?_⟩
        cases k with
        | zero =>
          simp only [List.getElem?_cons_zero, Option.some.injEq] at hk
          subst hk
          simp [ha]
        | succ k => simpa using h2 k x (by simpa using hk)

/-- `mapM` in `Option` answers nothing exactly when some entry has no image. -/
theorem mapM_option_none {α β : Type} (f : α → Option β) (l : List α) :
    l.mapM f = none ↔ ∃ a ∈ l, f a = none := by
  induction l with
  | nil => simp
  | cons a l ih =>
    simp only [List.mapM_cons, List.mem_cons, exists_eq_or_imp, ← ih]
    cases f a <;> cases l.mapM f <;> simp

/-- A frame is its payload and 20 bytes (30_encoding.md R110). -/
@[simp] theorem frameOf_length (c : Config) (jobId : Half) (fr : Nat) (payload : List Byte) :
    (frameOf c jobId fr payload).length = payload.length + 20 := by
  simp only [frameOf, frameBody, framesRemainingField, le16, be16, List.length_append,
    List.length_cons, List.length_nil, Vector.length_toList]
  split <;> simp only [List.length_cons, List.length_nil] <;> omega

/-- A slice number is in range exactly when the slice starts inside the frame. -/
theorem lt_nslices_iff (frame : Frame) {mtu k : Nat} (h : 1 ≤ mtu) :
    k < nslices frame mtu ↔ k * mtu < frame.length := by
  unfold nslices ceilDiv
  rw [← Nat.succ_le_iff, Nat.le_div_iff_mul_le (by omega), Nat.succ_mul]
  omega

end Sys2Proof.Machine
end

