-- ==== Sys2Proof/Laws/PerInstr.lean ====
section
/-! SUPPORT. Statements about every instruction as syntax, one lemma per constructor of Instr. -/

open Sys2Proof

/-- An instruction and the core operation whose words it has are carried by the same packet
(30_encoding.md R108): the two pseudo-instructions have no words of their own. -/
def Sys2Proof.Laws.CanonicalWord.Statement (i : Instr) : Prop := encode i.canonical = encode i

theorem Sys2Proof.Laws.CanonicalWord.pbSet (x : Half) (y : Half) (v : Bool) :
    Sys2Proof.Laws.CanonicalWord.Statement (.pbSet x y v) := rfl

theorem Sys2Proof.Laws.CanonicalWord.pbClrpx (x : Half) (y : Half) :
    Sys2Proof.Laws.CanonicalWord.Statement (.pbClrpx x y) := rfl

theorem Sys2Proof.Laws.CanonicalWord.pbGet (x : Half) (y : Half) :
    Sys2Proof.Laws.CanonicalWord.Statement (.pbGet x y) := rfl

theorem Sys2Proof.Laws.CanonicalWord.pbFill (v : Bool) :
    Sys2Proof.Laws.CanonicalWord.Statement (.pbFill v) := rfl

theorem Sys2Proof.Laws.CanonicalWord.pbClear :
    Sys2Proof.Laws.CanonicalWord.Statement .pbClear := rfl

theorem Sys2Proof.Laws.CanonicalWord.tcStart :
    Sys2Proof.Laws.CanonicalWord.Statement .tcStart := rfl

theorem Sys2Proof.Laws.CanonicalWord.tcAbort :
    Sys2Proof.Laws.CanonicalWord.Statement .tcAbort := rfl

theorem Sys2Proof.Laws.CanonicalWord.tcRelease :
    Sys2Proof.Laws.CanonicalWord.Statement .tcRelease := rfl

theorem Sys2Proof.Laws.CanonicalWord.stIsconn :
    Sys2Proof.Laws.CanonicalWord.Statement .stIsconn := rfl

theorem Sys2Proof.Laws.CanonicalWord.stIsprint :
    Sys2Proof.Laws.CanonicalWord.Statement .stIsprint := rfl

theorem Sys2Proof.Laws.CanonicalWord.stRd (a : Byte) :
    Sys2Proof.Laws.CanonicalWord.Statement (.stRd a) := rfl

theorem Sys2Proof.Laws.CanonicalWord.ftReorder :
    Sys2Proof.Laws.CanonicalWord.Statement .ftReorder := rfl

theorem Sys2Proof.Laws.CanonicalWord.ftSwap :
    Sys2Proof.Laws.CanonicalWord.Statement .ftSwap := rfl

theorem Sys2Proof.Laws.CanonicalWord.ftInvert :
    Sys2Proof.Laws.CanonicalWord.Statement .ftInvert := rfl

theorem Sys2Proof.Laws.CanonicalWord.ftRun :
    Sys2Proof.Laws.CanonicalWord.Statement .ftRun := rfl

theorem Sys2Proof.Laws.CanonicalWord.bcCompress (off : Half) (n : Half) :
    Sys2Proof.Laws.CanonicalWord.Statement (.bcCompress off n) := rfl

theorem Sys2Proof.Laws.CanonicalWord.feGroups :
    Sys2Proof.Laws.CanonicalWord.Statement .feGroups := rfl

theorem Sys2Proof.Laws.CanonicalWord.feBuild (fr : Half) :
    Sys2Proof.Laws.CanonicalWord.Statement (.feBuild fr) := rfl

theorem Sys2Proof.Laws.CanonicalWord.feCsum (body : List Byte) :
    Sys2Proof.Laws.CanonicalWord.Statement (.feCsum body) := rfl

theorem Sys2Proof.Laws.CanonicalWord.feSplit (frame : List Byte) (mtu : Half) (k : Half) :
    Sys2Proof.Laws.CanonicalWord.Statement (.feSplit frame mtu k) := rfl

theorem Sys2Proof.Laws.CanonicalWord.feJob :
    Sys2Proof.Laws.CanonicalWord.Statement .feJob := rfl

theorem Sys2Proof.Laws.CanonicalWord.ctPrep :
    Sys2Proof.Laws.CanonicalWord.Statement .ctPrep := rfl

theorem Sys2Proof.Laws.CanonicalWord.ctWrite :
    Sys2Proof.Laws.CanonicalWord.Statement .ctWrite := rfl

theorem Sys2Proof.Laws.CanonicalWord.ctWait :
    Sys2Proof.Laws.CanonicalWord.Statement .ctWait := rfl

theorem Sys2Proof.Laws.CanonicalWord.evNotify (payload : List Byte) :
    Sys2Proof.Laws.CanonicalWord.Statement (.evNotify payload) := rfl

theorem Sys2Proof.Laws.CanonicalWord.evTick :
    Sys2Proof.Laws.CanonicalWord.Statement .evTick := rfl

theorem Sys2Proof.Laws.CanonicalWord.evReset :
    Sys2Proof.Laws.CanonicalWord.Statement .evReset := rfl
end

