-- ==== Sys2Proof/Tests/Slice0.lean ====
section
/-!
SUPPORT. Tests and witnesses. Expected values are copied from 95_test_vectors.md (the section is named in
each group) or worked out by hand from the rule named; a witness shows a concrete state that meets the
hypotheses of the statement it is named after.
-/

-- One theorem at a time: elaborated side by side, these tests wait for one another in many threads, and
-- the stacks of those threads fill the memory that a check of the package has.
set_option Elab.async false

namespace Sys2Proof.Tests

open Sys2Proof Sys2Proof.Machine

/-! ## Helpers -/

/-- Does an outcome lead to a next state with a property? -/
def leadsTo (o : Host.Outcome State Fault Refusal) (p : State → Bool) : Bool :=
  match o with
  | .next t => p t
  | .fault _ => false
  | .refused _ => false

/-- Bytes as a memory from address 0. -/
def memoryOf (bytes : List Byte) : Memory := (Memory.mk 0 []).writeBytes 0 bytes

/-- T1 of 95_test_vectors.md: `W = 4`, `H = 16`, `CHUNK_W = 3`, all else default. -/
def t1 : Config := { Config.defaults with w := 4, h := 16, chunkW := 3 }

/-- The picture of 95_test_vectors.md 2.2 (a). -/
def picture : Memory := memoryOf [0x80, 0, 0, 0x01, 0x20, 0, 0, 0x04]

/-- The picture after the three stages, 2.2 (a). -/
def pictureTb : Memory := memoryOf [0x7F, 0xFF, 0xFF, 0xFE, 0xFF, 0x7F, 0xFE, 0xFF]

/-- The first frame of program P2. -/
def frame0 : Frame :=
  [0x66, 0x18, 0x00, 0xD0, 0xD1, 0xD2, 0xD3, 0xD4, 0xD5, 0xD6, 0xD7, 0x01, 0x00, 0x00, 0x01, 0x00] ++
  [0x05, 0x7F, 0xFF, 0xFF, 0xFE, 0xFF, 0x7F, 0xE0, 0xE1, 0xE2, 0x43]

/-- The second frame of program P2. -/
def frame1 : Frame :=
  [0x66, 0x14, 0x00, 0xD0, 0xD1, 0xD2, 0xD3, 0xD4, 0xD5, 0xD6, 0xD7, 0x01, 0x00, 0x01, 0x00, 0x00] ++
  [0x01, 0xFE, 0xFF, 0xE0, 0xE1, 0xE2, 0x47]

/-- Idle on T1, the picture in `PB`, every input as a job wants it, `MTU = 16`. -/
def idle : State := { State.reset with cfg := t1, pb := picture, env := ⟨true, 16, true, true⟩ }

/-- A job just accepted. -/
def preparing : State := { idle with phase := .preparing, jobId := 1, mtuL := 16 }

/-- The job of program P2 after `CT.PREP`. -/
def sending : State :=
  { preparing with phase := .sending, tb := pictureTb, frames := [frame0, frame1], nframes := 2 }

/-- Its first batch written. -/
def awaiting : State := { sending with phase := .awaitingAck, sub := 2 }

/-- Its first batch acknowledged. -/
def acked : State := { awaiting with ackFlag := true, cur := 1 }

/-- Its last batch acknowledged. -/
def ackedLast : State := { awaiting with ackFlag := true, cur := 2 }

/-- The job is complete. -/
def completed : State := { sending with phase := .completed, cur := 2, sub := 2 }

/-- The job has failed. -/
def failed : State := { sending with phase := .failed, cause := .ackTimeout, sub := 2 }

/-- The inputs of a turn. -/
def good : Env := ⟨true, 16, true, true⟩

/-- A state with one turn to come. -/
def offering (p : Packet) (s : State) : State := { s with schedule := [⟨good, .packet p⟩] }

/-! ## WellFormed: each check refuses an ill-formed operation (R170, R208) -/

theorem test_wellFormed_refuses_long_range : (Instr.bcCompress 65535 1).wellFormed = false := by decide
theorem test_wellFormed_refuses_mtu_0 : (Instr.feSplit [1] 0 0).wellFormed = false := by decide
theorem test_wellFormed_refuses_late_slice : (Instr.feSplit [1, 2] 1 2).wellFormed = false := by decide

/-! ## Decoding: words of 95_test_vectors.md 2.6, labels of 30_encoding.md R105 -/

theorem test_decode_pbSet : decode (.cmd 0x10010000017F005F) = .ok (.pbSet 383 95 true) := by decide
theorem test_decode_pbSet_negative : decode (.cmd 0x10010000FFFF0000) = .ok (.pbSet (-1) 0 true) := by
  decide
theorem test_decode_pbClrpx : decode (.cmd 0x1000000000030002) = .ok (.pbSet 3 2 false) := by decide
theorem test_decode_pbGet : decode (.cmd 0x1100000000030002) = .ok (.pbGet 3 2) := by decide
theorem test_decode_pbFill : decode (.cmd 0x1201000000000000) = .ok (.pbFill true) := by decide
theorem test_decode_pbClear : decode (.cmd 0x1200000000000000) = .ok (.pbFill false) := by decide
theorem test_decode_tcStart : decode (.cmd 0x2000000000000000) = .ok .tcStart := by decide
theorem test_decode_tcAbort : decode (.cmd 0x2100000000000000) = .ok .tcAbort := by decide
theorem test_decode_tcRelease : decode (.cmd 0x2200000000000000) = .ok .tcRelease := by decide
theorem test_decode_stIsconn : decode (.stat 0x3000000000000000) = .ok .stIsconn := by decide
theorem test_decode_stIsprint : decode (.stat 0x3100000000000000) = .ok .stIsprint := by decide
theorem test_decode_stRd : decode (.stat 0x3200002300000000) = .ok (.stRd 0x23) := by decide
theorem test_decode_ftReorder : decode (.core 0x40 0 []) = .ok .ftReorder := by decide
theorem test_decode_ftSwap : decode (.core 0x41 0 []) = .ok .ftSwap := by decide
theorem test_decode_ftInvert : decode (.core 0x42 0 []) = .ok .ftInvert := by decide
theorem test_decode_ftRun : decode (.core 0x43 0 []) = .ok .ftRun := by decide
theorem test_decode_bcCompress : decode (.core 0x48 0x00060002 []) = .ok (.bcCompress 2 6) := by decide
theorem test_decode_feGroups : decode (.core 0x50 0 []) = .ok .feGroups := by decide
theorem test_decode_feBuild : decode (.core 0x51 0x00000004 []) = .ok (.feBuild 4) := by decide
theorem test_decode_feCsum : decode (.core 0x52 0 [0x66]) = .ok (.feCsum [0x66]) := by decide
theorem test_decode_feSplit :
    decode (.core 0x53 0x00010010 [0x66, 0x18]) = .ok (.feSplit [0x66, 0x18] 16 1) := by decide
theorem test_decode_feJob : decode (.core 0x54 0 []) = .ok .feJob := by decide
theorem test_decode_ctPrep : decode (.core 0x60 0 []) = .ok .ctPrep := by decide
theorem test_decode_ctWrite : decode (.core 0x61 0 []) = .ok .ctWrite := by decide
theorem test_decode_ctWait : decode (.core 0x62 0 []) = .ok .ctWait := by decide
theorem test_decode_evNotify : decode (.core 0x70 0 [0xAA, 0x55]) = .ok (.evNotify [0xAA, 0x55]) := by
  decide
theorem test_decode_evTick : decode (.core 0x71 0 []) = .ok .evTick := by decide
theorem test_decode_evReset : decode (.core 0x7F 0 []) = .ok .evReset := by decide

/-- The encoder writes the words of 2.6. -/
theorem test_encode_words :
    encode (.pbSet 384 2 true) = .cmd 0x1001000001800002 ∧
      encode (.pbClrpx 3 2) = .cmd 0x1000000000030002 ∧
      encode (.pbGet 0x8000 0) = .cmd 0x1100000080000000 ∧
      encode .pbClear = .cmd 0x1200000000000000 ∧
      encode (.stRd 1) = .stat 0x3200000100000000 := by decide

/-- The illegal words of 2.6, each by its reason (R104). -/
theorem test_illegal_words :
    decode (.cmd 0x1300000000000000) = .error .unassignedOpcode ∧
      decode (.cmd 0x0000000000000000) = .error .unassignedOpcode ∧
      decode (.cmd 0x1201000000010000) = .error .nonzeroUnused ∧
      decode (.cmd 0x1002000000000000) = .error .nonzeroUnused ∧
      decode (.cmd 0x1101000000000000) = .error .nonzeroUnused ∧
      decode (.cmd 0x2000000000000001) = .error .nonzeroUnused ∧
      decode (.cmd 0x3200000000000000) = .error .otherPort ∧
      decode (.cmd 0x6000000000000000) = .error .unassignedOpcode ∧
      decode (.stat 0x1100000000030002) = .error .otherPort ∧
      decode (.stat 0x3300000000000000) = .error .unassignedOpcode ∧
      decode (.core 0x44 0 []) = .error .unassignedLabel := by decide

/-- The host's table words: a STAT word goes to the STAT port, a label stands alone. -/
theorem test_tableWords :
    decodeTableWord 64 0x1001000000030002 = some (.pbSet 3 2 true) ∧
      decodeTableWord 64 0x3200002300000000 = some (.stRd 0x23) ∧
      decodeTableWord 8 0x62 = some .ctWait ∧ decodeTableWord 8 0x63 = none := by decide

/-- A placed word runs as the very next step. -/
theorem test_withFetchWord :
    leadsTo (step (State.reset.withFetchWord 64 0x2000000000000000))
      (fun t => t.resp = .noTransport && t.schedule.isEmpty) = true := by decide +kernel

/-- A placed micro-operation runs too; offered from reset it is no step of any agent (R105, R74). -/
theorem test_withFetchWord_micro :
    leadsTo (step (idle.withFetchWord 8 0x43)) (fun t => t.tb.read .tb 0 = 0x7F) = true ∧
      leadsTo (step (offering (.core 0x43 0 []) idle)) (fun t => t.tb = idle.tb) = true := by
  decide +kernel

/-! ## PixelBuffer (95_test_vectors.md 2.1) -/

/-- 2.1 (d): `A5`, set (1, 0), gives `E5`. -/
theorem test_pbSet_rmw :
    leadsTo (exec (.pbSet 1 0 true) { idle with pb := memoryOf [0xA5] })
      (fun t => t.pb.read .pb 0 = 0xE5) = true := by decide
/-- 2.1 (c): (2, 8) is byte 4, mask 20. -/
theorem test_pbSet_unaligned_row :
    leadsTo (exec (.pbSet 2 8 true) { idle with pb := memoryOf [0, 0, 0, 0, 0] })
      (fun t => t.pb.read .pb 4 = 0x20 && t.pb.read .pb 3 = 0) = true := by decide
/-- 2.1 (d): clearing (0, 0) of `E5` gives `65`. -/
theorem test_pbClrpx :
    leadsTo (exec (.pbClrpx 0 0) { idle with pb := memoryOf [0xE5] })
      (fun t => t.pb.read .pb 0 = 0x65) = true := by decide
theorem test_pbGet_in_range :
    leadsTo (exec (.pbGet 3 7) idle) (fun t => t.result && t.resp = .ok) = true := by decide
/-- 2.1 (b): out of range reads 0. -/
theorem test_pbGet_out_of_range :
    leadsTo (exec (.pbGet 0xFFFF 0) { idle with result := true }) (fun t => !t.result) = true := by
  decide
theorem test_pbFill : leadsTo (exec (.pbFill true) idle) (fun t => t.pb.read .pb 7 = 0xFF) = true := by
  decide
theorem test_pbClear : leadsTo (exec .pbClear idle) (fun t => t.pb.read .pb 0 = 0x00) = true := by decide

/-! ## FormatTransformer (2.2 (a)) -/

theorem test_ftReorder :
    leadsTo (exec .ftReorder idle)
      (fun t => t.tb.readBytes .tb 0 8 = [0, 0x80, 0x01, 0, 0x80, 0, 0, 0x01]) = true := by decide +kernel
theorem test_ftSwap :
    leadsTo (exec .ftSwap { idle with tb := memoryOf [0, 0x80, 0x01, 0, 0x80, 0, 0, 0x01] })
      (fun t => t.tb.readBytes .tb 0 8 = [0x80, 0, 0, 0x01, 0, 0x80, 0x01, 0]) = true := by
  decide +kernel
theorem test_ftInvert :
    leadsTo (exec .ftInvert { idle with tb := memoryOf [0x80, 0, 0, 0x01, 0, 0x80, 0x01, 0] })
      (fun t => t.tb.readBytes .tb 0 8 = [0x7F, 0xFF, 0xFF, 0xFE, 0xFF, 0x7F, 0xFE, 0xFF]) = true := by
  decide +kernel
theorem test_ftRun :
    leadsTo (exec .ftRun idle)
      (fun t => t.tb.readBytes .tb 0 8 = [0x7F, 0xFF, 0xFF, 0xFE, 0xFF, 0x7F, 0xFE, 0xFF]) = true := by
  decide +kernel

/-! ## BlockCompressor (2.3) -/

/-- The hash of the first four bytes is 0x447 (R182), so `WM[0x447]` is 0 + 1; `WM[0x446]` was cleared. -/
theorem test_bcCompress :
    leadsTo (exec (.bcCompress 0 6) sending)
      (fun t => t.cb.readBytes .cb 0 7 = [0x05, 0x7F, 0xFF, 0xFF, 0xFE, 0xFF, 0x7F] && t.cbLen = 7 &&
        t.uop = .compressed true && t.wm.read .refLz 0x447 = 1 && t.wm.read .refLz 0x446 = 0) = true := by
  decide +kernel
/-- An `LZ` that fails (R173). -/
theorem test_bcCompress_fails :
    leadsTo (exec (.bcCompress 0 6) { sending with cfg := { t1 with codec := .refLzUpTo 5 } })
      (fun t => t.uop = .compressed false) = true := by decide +kernel
theorem test_refLz_overlap :
    (refLz [1, 2, 3, 4, 1, 2, 3, 4, 1, 2, 3, 4, 9]).1 =
      some [0x03, 1, 2, 3, 4, 0x84, 4, 0, 0, 9] := by decide +kernel
theorem test_refLz_capped_match :
    (refLz (List.replicate 136 0)).1 = some [0, 0, 0xFF, 1, 0, 0x80, 0x83, 0] := by decide +kernel
theorem test_unlz : unlz [0, 0xFF, 0x93, 1, 0] = some (List.replicate 24 0xFF) := by decide +kernel

/-! ## FrameEncoder (2.4) -/

theorem test_feGroups :
    leadsTo (exec .feGroups State.reset)
      (fun t => t.uop = .groups
        [⟨0, 85, 4⟩, ⟨85, 85, 3⟩, ⟨170, 85, 2⟩, ⟨255, 85, 1⟩, ⟨340, 44, 0⟩]) = true := by decide +kernel
theorem test_feBuild :
    leadsTo (exec (.feBuild 1)
        { sending with cb := memoryOf [0x05, 0x7F, 0xFF, 0xFF, 0xFE, 0xFF, 0x7F], cbLen := 7 })
      (fun t => t.uop = .frame frame0) = true := by decide +kernel
theorem test_feCsum :
    leadsTo (exec (.feCsum (frame0.take 26)) idle) (fun t => t.uop = .checksum 0x43) = true := by
  decide +kernel
theorem test_feSplit :
    leadsTo (exec (.feSplit frame0 16 1) idle)
      (fun t => t.uop = .slice [0x05, 0x7F, 0xFF, 0xFF, 0xFE, 0xFF, 0x7F, 0xE0, 0xE1, 0xE2, 0x43] 2) =
        true := by decide +kernel
theorem test_feSplit_one_slice :
    leadsTo (exec (.feSplit frame0 27 0) idle) (fun t => t.uop = .slice frame0 1) = true := by
  decide +kernel
theorem test_feJob :
    leadsTo (exec .feJob sending) (fun t => t.uop = .job (.ok [frame0, frame1])) = true := by
  decide +kernel

/-! ## TransmissionController (2.5, 2.7) -/

theorem test_tcStart :
    leadsTo (exec .tcStart { idle with jobId := 65535 })
      (fun t => t.phase = .preparing && t.jobId = 0 && t.mtuL = 16 && t.resp = .ok) = true := by decide
/-- JobInProgress wins over NoTransport. -/
theorem test_tcStart_rejected :
    leadsTo (exec .tcStart { awaiting with env := ⟨false, 0, true, true⟩ })
      (fun t => t.resp = .jobInProgress && t.phase = .awaitingAck) = true := by decide
theorem test_tcAbort :
    leadsTo (exec .tcAbort acked)
      (fun t => t.phase = .failed && t.cause = .aborted && t.cur = 1 && !t.ackFlag) = true := by decide
theorem test_tcRelease :
    leadsTo (exec .tcRelease failed)
      (fun t => t.phase = .idle && t.cause = .ok && t.frames.isEmpty && t.nframes = 0) = true := by decide
theorem test_stIsconn :
    leadsTo (exec .stIsconn idle) (fun t => t.result && t.statData = 1) = true := by decide
theorem test_stIsprint :
    leadsTo (exec .stIsprint awaiting) (fun t => t.result && t.statData = 1) = true := by decide
/-- 2.7: FLAGS in Preparing with the link ready. -/
theorem test_stRd_flags :
    leadsTo (exec (.stRd 6) preparing) (fun t => t.statData = 0x000E) = true := by decide
/-- 2.7: the end marker's third byte stands alone. -/
theorem test_stRd_endMarker :
    leadsTo (exec (.stRd 0x2F) State.reset) (fun t => t.statData = 0x00E2) = true := by decide
theorem test_ctPrep :
    leadsTo (exec .ctPrep preparing)
      (fun t => t.frames = [frame0, frame1] && t.nframes = 2 && t.phase = .sending) = true := by
  decide +kernel
theorem test_ctPrep_fails :
    leadsTo (exec .ctPrep { preparing with cfg := { t1 with codec := .refLzUpTo 5 } })
      (fun t => t.phase = .failed && t.cause = .compressionFailure && t.nframes = 0) = true := by
  decide +kernel
theorem test_ctWrite :
    leadsTo (exec .ctWrite sending)
      (fun t => t.sub = 1 && t.paceTimer = 10 && t.phase = .sending &&
        t.tx = [⟨frame0.take 16, true⟩]) = true := by decide +kernel
theorem test_ctWrite_fails :
    leadsTo (exec .ctWrite { sending with sub := 1, env := ⟨true, 16, true, false⟩ })
      (fun t => t.phase = .failed && t.cause = .writeFailure && t.sub = 1) = true := by decide +kernel
theorem test_ctWait_ack_wins :
    leadsTo (exec .ctWait { acked with ackTimer := 2000 })
      (fun t => t.phase = .sending && t.sub = 0 && !t.ackFlag) = true := by decide
theorem test_ctWait_timeout :
    leadsTo (exec .ctWait { awaiting with ackTimer := 2000 })
      (fun t => t.phase = .failed && t.cause = .ackTimeout) = true := by decide

/-! ## Events (2.5) -/

theorem test_evNotify :
    leadsTo (exec (.evNotify [0xAA, 0x55]) awaiting)
      (fun t => t.cur = 1 && t.ackFlag && t.lastAckLen = 2 && t.lastAck.take 3 = [0xAA, 0x55, 0]) =
        true := by decide
/-- 40 bytes are cut to 32. -/
theorem test_evNotify_long :
    leadsTo (exec (.evNotify (List.replicate 40 7)) awaiting)
      (fun t => t.lastAckLen = 32 && t.lastAck.length = 32) = true := by decide
theorem test_evTick :
    leadsTo (exec .evTick { awaiting with ackTimer := 65535, paceTimer := 3 })
      (fun t => t.ackTimer = 65535 && t.paceTimer = 2) = true := by decide
theorem test_evReset :
    leadsTo (exec .evReset acked)
      (fun t => t.phase = .idle && t.jobId = 0 && t.frames.isEmpty && !t.ackFlag && t.pb.cells.isEmpty &&
        t.cfg = t1) = true := by decide

/-! ## Witnesses: a concrete state and operands for the hypotheses of each statement -/

theorem next_of_leadsTo {o : Host.Outcome State Fault Refusal} {p : State → Bool}
    (h : leadsTo o p = true) : ∃ t, o = .next t := by
  cases o with
  | next t => exact ⟨t, rfl⟩
  | fault r => cases h
  | refused r => cases h

/-- A compressor that fails on the first group of the picture and not on the second. -/
def scarce : State := { preparing with cfg := { t1 with codec := .refLzUpTo 5 } }

/-- A compressor other than REF-LZ that compresses both groups. -/
def roomy : State := { preparing with cfg := { t1 with codec := .refLzUpTo 6 } }

theorem witness_DecodeEncodeRoundTrip :
    (Instr.bcCompress 65535 0).wellFormed = true ∧ (Instr.feSplit [7] 1 0).wellFormed = true ∧
      (Instr.pbSet 65535 65535 true).wellFormed = true := by decide
theorem witness_EncodeOfDecodedPacket :
    decode (.cmd 0x10010000FFFFFFFF) = .ok (.pbSet 65535 65535 true) ∧
      decode (.core 0x53 0xFFFF0001 [7]) = .ok (.feSplit [7] 1 65535) := by decide
theorem witness_OpcodeMapSelectsRows :
    selects 0x10010000FFFFFFFF (0x1000000000000000, 0xFFFEFFFF00000000) ∧
      selects 0x11000000FFFFFFFF (0x1100000000000000, 0xFFFFFFFF00000000) ∧
      selects 0x1201000000000000 (0x1200000000000000, 0xFFFEFFFFFFFFFFFF) ∧
      selects 0x320000FF00000000 (0x3200000000000000, 0xFFFFFF00FFFFFFFF) := by
  unfold selects
  decide
theorem witness_IllegalWordsAnswered :
    (∀ r ∈ cmdRows, ¬selects 0x1300000000000000 r) ∧ (∀ r ∈ statRows, ¬selects 0x1100000000030002 r) ∧
      idle.phase ≠ .preparing ∧ preparing.phase = .preparing := by
  refine ⟨?_, ?_, by decide, by decide⟩
  · intro r hr
    simp only [cmdRows, List.mem_cons, List.not_mem_nil, or_false] at hr
    unfold selects
    rcases hr with rfl | rfl | rfl | rfl | rfl | rfl <;> decide
  · intro r hr
    simp only [statRows, List.mem_cons, List.not_mem_nil, or_false] at hr
    unfold selects
    rcases hr with rfl | rfl | rfl <;> decide
theorem witness_reservedOpcode :
    reservedOpcode 0x0F ∧ reservedOpcode 0x13 ∧ reservedOpcode 0x1F ∧ reservedOpcode 0x23 ∧
      reservedOpcode 0x2F ∧ reservedOpcode 0x33 ∧ reservedOpcode 0xFF := by
  unfold reservedOpcode
  decide

/-- On the STAT port, on the CMD port when free, on the CMD port when busy, and a label. -/
theorem witness_StepRunsDecodedInstruction :
    (Packet.stat 0x3000000000000000).isMicro = false ∧ (Packet.core 0x43 0 []).isMicro = true ∧
      decode (.core 0x43 0 []) = .ok .ftRun ∧ (offering (.core 0x43 0 []) idle).unitAccess = false ∧
      ({ offering (.core 0x43 0 []) idle with unitAccess := true } : State).unitAccess = true ∧
    (offering (.stat 0x3000000000000000) idle).cfg.legal = true ∧
      decode (.stat 0x3000000000000000) = .ok .stIsconn ∧
      (offering (.cmd 0x2000000000000000) idle).cmdHeld = [] ∧
      decode (.cmd 0x2000000000000000) = .ok .tcStart ∧
      (offering (.cmd 0x2000000000000000) preparing).phase = .preparing ∧
      decode (.core 0x60 0 []) = .ok .ctPrep := by decide
theorem witness_StepWithoutTurnOrConfig :
    ({ idle with cfg := { t1 with w := 0 } } : State).cfg.legal = false ∧
      ({ idle with cfg := { t1 with w := 32768 } } : State).cfg.legal = false ∧
      idle.cfg.legal = true ∧ idle.schedule = [] := by decide
theorem witness_CommandsWaitWhilePreparing :
    preparing.phase = .preparing ∧ encode (.pbFill true) = .cmd 0x1201000000000000 := by decide
theorem witness_WaitingCommandsAreTaken :
    ({ idle with cmdHeld := [0x2000000000000000], schedule := [⟨good, .waiting⟩] } : State).phase ≠
        .preparing ∧
      ({ idle with cmdHeld := [0x2000000000000000], schedule := [⟨good, .waiting⟩] } : State).cfg.legal =
        true ∧
      (offering (.cmd 0x1200000000000000) { idle with cmdHeld := [0x2000000000000000] }).phase ≠
        .preparing := by decide

theorem witness_PbSetWritesOnePixel :
    idle.phase ≠ .preparing ∧ idle.pixelExists 3 15 ∧ ¬idle.pixelExists 4 15 ∧
      ¬idle.pixelExists 3 16 ∧ ¬idle.pixelExists 0xFFFF 0 ∧ idle.getPixel 3 7 = true := by
  unfold State.pixelExists
  decide
theorem witness_PbClrpxClearsOnePixel : completed.phase ≠ .preparing := by decide
theorem witness_PbGetReadsOnePixel :
    failed.phase ≠ .preparing ∧ failed.pixelExists 0 0 ∧ ¬failed.pixelExists 0 0x8000 := by
  unfold State.pixelExists
  decide
theorem witness_PbFillWritesEveryByte :
    idle.phase ≠ .preparing ∧ idle.cfg.legal = true ∧ ((1 : Half) ≠ 0 ∨ (0 : Half) ≠ 0) ∧
      ((0 : Half) ≠ 0 ∨ (1 : Half) ≠ 0) := by decide
theorem witness_PbClearBlanksEveryByte : sending.phase ≠ .preparing ∧ sending.cfg.legal = true := by
  decide
theorem witness_PixelLaws :
    idle.phase ≠ .preparing ∧ idle.pixelExists 0 0 ∧ idle.pixelExists 3 15 ∧
      ((3 : Half), (15 : Half)) ≠ (0, 0) := by
  unfold State.pixelExists
  decide

theorem witness_transformer_legal :
    idle.cfg.legal = true ∧ 0 + 1 < idle.cfg.bitmapSize ∧ 6 + 1 < idle.cfg.bitmapSize := by decide
theorem witness_TransformClosedForm :
    idle.cfg.legal = true ∧
      leadsTo (exec .ftRun idle)
        (fun t => leadsTo (exec .ftRun { idle with pb := idle.pb.write 0 0x80 })
          fun t' => (List.range 8).all fun i => t'.tb.read .tb i = t.tb.read .tb i) = true := by
  decide +kernel
theorem witness_CompressStoresBlock :
    sending.cfg.bitmapSize < 8 + 1 ∧ 2 + 6 ≤ sending.cfg.bitmapSize ∧ 0 + 8 ≤ sending.cfg.bitmapSize ∧
      ((runLz sending.cfg.codec (sending.tb.readBytes .tb 2 6)).1.getD []).length ≤ maxCompressedSize 6 ∧
      (runLz sending.cfg.codec (sending.tb.readBytes .tb 2 6)).1.isSome = true ∧
      (runLz scarce.cfg.codec (scarce.tb.readBytes .tb 2 6)).1 = none := by decide +kernel
theorem witness_CompressorIsStateless :
    sending.tb.readBytes .tb 0 2 = ({ sending with wm := ⟨3, [(5, 7)]⟩ } : State).tb.readBytes .tb 0 2 ∧
      leadsTo (exec (.bcCompress 0 2) sending) (fun t => t.uop = .compressed true) = true ∧
      leadsTo (exec (.bcCompress 0 2) { sending with wm := ⟨3, [(5, 7)]⟩ })
        (fun t => t.uop = .compressed true) = true := by decide +kernel
theorem witness_RefLzRoundTrip : ([] : List Byte).length ≤ 65535 := by decide
theorem witness_RefLzMeetsBound : (refLz [1, 2, 3]).1 = some [2, 1, 2, 3] := by decide +kernel
theorem witness_RefLzFailsOnlyWhenTooLong :
    preparing.cfg.legal = true ∧ preparing.cfg.codec = .refLz ∧ preparing.cause ≠ .compressionFailure ∧
      leadsTo (exec .ctPrep preparing) (fun _ => true) = true := by decide +kernel

/-- One group that is as wide as the image, and a last group of one column. -/
theorem witness_GroupLaws :
    ({ idle with cfg := { t1 with chunkW := 4 } } : State).cfg.legal = true ∧
      ({ idle with cfg := { t1 with w := 32767, chunkW := 32766 } } : State).cfg.legal = false ∧
      idle.cfg.legal = true := by decide
theorem witness_FrameLayout : ({ idle with cbLen := 65518 } : State).cbLen + 17 ≤ 65535 := by decide
theorem witness_SlicesJoinToFrame : 1 ≤ (1 : Half).toNat ∧ (26 : Half).toNat < nslices frame0 1 := by
  decide
theorem witness_JobFramesEveryGroup :
    sending.cfg.legal = true ∧
      (∀ g ∈ groupsOf sending.cfg,
        compressedRange (g.col0 * sending.cfg.bpc) (g.width * sending.cfg.bpc) sending ≠ none) ∧
      ∃ g ∈ groupsOf scarce.cfg,
        compressedRange (g.col0 * scarce.cfg.bpc) (g.width * scarce.cfg.bpc)
          { scarce with tb := pictureTb } = none := by decide +kernel

theorem witness_StartAcceptsOrRejects :
    idle.phase = .idle ∧ idle.env.linkReady = true ∧ idle.env.mtu ≠ 0 ∧
      ({ idle with env := ⟨true, 0, true, true⟩ } : State).env.mtu = 0 ∧
      ({ idle with env := ⟨false, 16, true, true⟩ } : State).env.linkReady = false ∧
      sending.phase ≠ .idle ∧ sending.phase ≠ .preparing := by decide
theorem witness_AbortFailsJobInFlight :
    sending.phase = .sending ∧ awaiting.phase = .awaitingAck ∧ idle.phase = .idle ∧
      completed.phase = .completed ∧ failed.phase = .failed := by decide
theorem witness_ReleaseClearsTerminalState :
    completed.phase = .completed ∧ failed.phase = .failed ∧ idle.phase = .idle ∧
      sending.phase = .sending ∧ awaiting.phase = .awaitingAck := by decide
theorem witness_StatusQueriesAnswer :
    preparing.phase = .preparing ∧ sending.phase = .sending ∧ completed.phase = .completed := by decide
theorem witness_StatReadFollowsRegisterMap :
    acked.cfg.legal = true ∧ (0x0D : Byte).toNat = 0x0D ∧ 0x30 ≤ (0x30 : Byte).toNat ∧
      0x30 ≤ (0xFF : Byte).toNat ∧
      leadsTo (exec (.stRd 0) failed) (fun t => t.statData = 5) = true ∧
      leadsTo (exec (.stRd 1) failed) (fun t => t.statData = 4) = true ∧
      leadsTo (exec (.stRd 8) { failed with resp := .noEffect }) (fun t => t.statData = 10) = true := by
  decide
theorem witness_PreparedFramesDecodeToTheImage :
    preparing.cfg.legal = true ∧ preparing.cfg.codec = .refLz ∧ preparing.phase = .preparing ∧
      preparing.env.allocOk = true ∧ roomy.cfg.legal = true ∧ roomy.phase = .preparing ∧
      (∀ g ∈ groupsOf roomy.cfg,
        compressedRange (g.col0 * roomy.cfg.bpc) (g.width * roomy.cfg.bpc) (transform roomy) ≠ none) := by
  decide +kernel
theorem witness_PreparationFailures :
    ({ preparing with env := ⟨true, 16, false, true⟩ } : State).env.allocOk = false ∧
      scarce.cfg.legal = true ∧ scarce.phase = .preparing ∧ scarce.env.allocOk = true ∧
      ∃ g ∈ groupsOf scarce.cfg,
        compressedRange (g.col0 * scarce.cfg.bpc) (g.width * scarce.cfg.bpc) (transform scarce) =
          none := by decide +kernel

/-- A first slice of two, and the last one. -/
theorem witness_WriteAcceptedAdvances :
    sending.phase = .sending ∧ sending.paceTimer = 0 ∧ sending.env.txOk = true ∧
      sending.frames[sending.cur.toNat]? = some frame0 ∧ 1 ≤ sending.mtuL.toNat ∧
      sending.sub.toNat + 1 ≠ nslices frame0 sending.mtuL.toNat ∧
      ({ sending with sub := 1 } : State).sub.toNat + 1 = nslices frame0 sending.mtuL.toNat := by decide
theorem witness_WriteRefusedFails :
    ({ sending with env := ⟨true, 16, true, false⟩ } : State).env.txOk = false ∧
      sending.frames[sending.cur.toNat]? = some frame0 ∧
      sending.sub.toNat < nslices frame0 sending.mtuL.toNat ∧
      leadsTo (exec .evReset failed) (fun _ => true) = true := by decide
theorem witness_WaitConsumesAckOrTimesOut :
    ackedLast.phase = .awaitingAck ∧ ackedLast.ackFlag = true ∧ ackedLast.cur = ackedLast.nframes ∧
      acked.ackFlag = true ∧ acked.cur ≠ acked.nframes ∧ awaiting.ackFlag = false ∧
      t1.ackTimeoutTicks ≤ ({ awaiting with ackTimer := 2000 } : State).ackTimer.toNat := by decide
theorem witness_SequencerWaitsWhenNotEnabled :
    idle.phase ≠ .preparing ∧ idle.phase ≠ .sending ∧
      ({ sending with paceTimer := 1 } : State).paceTimer ≠ 0 ∧ idle.phase ≠ .awaitingAck ∧
      awaiting.ackFlag = false ∧
      ({ awaiting with ackTimer := 1999 } : State).ackTimer.toNat < t1.ackTimeoutTicks := by decide
theorem witness_NotifyAcknowledgesOnce :
    awaiting.cfg.legal = true ∧ awaiting.phase = .awaitingAck ∧ awaiting.ackFlag = false ∧
      sending.phase ≠ .awaitingAck ∧ acked.ackFlag = true := by decide
theorem witness_TickAdvancesTimers : awaiting.phase = .awaitingAck ∧ sending.phase ≠ .awaitingAck := by
  decide

/-! ### The machine as a whole -/

theorem goodFrames : ∀ f ∈ [frame0, frame1], GoodFrame f := by
  intro f hf
  rcases List.mem_cons.1 hf with rfl | hf
  · exact ⟨by decide, by decide, by decide⟩
  · rcases List.mem_cons.1 hf with rfl | hf
    · exact ⟨by decide, by decide, by decide⟩
    · cases hf

theorem witness_JobInv_sending : JobInv sending where
  cause_iff_failed := by decide
  ack_flag_awaiting := by decide
  frames_counted := by decide
  frames_nonempty := by decide
  mtu_known := by decide
  sending_position := fun _ => ⟨frame0, by decide, by decide⟩
  awaiting_position := fun h => by cases h
  acknowledged_position := by decide
  completed_position := by decide
  idle_empty := by decide
  preparing_empty := by decide
  pace_sending := by decide
  frames_good := goodFrames
  frames_few := by decide

theorem witness_JobInv_awaiting : JobInv awaiting where
  cause_iff_failed := by decide
  ack_flag_awaiting := by decide
  frames_counted := by decide
  frames_nonempty := by decide
  mtu_known := by decide
  sending_position := fun h => by cases h
  awaiting_position := fun _ _ => ⟨frame0, by decide, by decide⟩
  acknowledged_position := by decide
  completed_position := by decide
  idle_empty := by decide
  preparing_empty := by decide
  pace_sending := by decide
  frames_good := goodFrames
  frames_few := by decide

/-- The third premise of `PreparationFailures`, with either failure. -/
theorem witness_JobInv_preparing : JobInv scarce ∧ scarce.env.allocOk = true := by
  refine ⟨?_, by decide⟩
  exact
    { cause_iff_failed := by decide
      ack_flag_awaiting := by decide
      frames_counted := by decide
      frames_nonempty := by decide
      mtu_known := by decide
      sending_position := fun h => by cases h
      awaiting_position := fun h => by cases h
      acknowledged_position := by decide
      completed_position := by decide
      idle_empty := by decide
      preparing_empty := by decide
      pace_sending := by decide
      frames_good := fun _ hf => by cases hf
      frames_few := by decide }

/-- The third premise of `TerminalStatesStay`. -/
theorem witness_JobInv_failed : JobInv failed where
  cause_iff_failed := by decide
  ack_flag_awaiting := by decide
  frames_counted := by decide
  frames_nonempty := by decide
  mtu_known := by decide
  sending_position := fun h => by cases h
  awaiting_position := fun h => by cases h
  acknowledged_position := by decide
  completed_position := by decide
  idle_empty := by decide
  preparing_empty := by decide
  pace_sending := by decide
  frames_good := goodFrames
  frames_few := by decide

/-- A step taken from a state that has the invariants: the first slice is written. -/
theorem witness_StepKeepsJobInvariants :
    JobInv (offering (.core 0x61 0 []) sending) ∧
      ∃ t, step (offering (.core 0x61 0 []) sending) = .next t :=
  ⟨{ witness_JobInv_sending with }, next_of_leadsTo (p := fun t => t.sub = 1) (by decide +kernel)⟩

theorem witness_StepKeepsMemoriesCanonical :
    (offering (.core 0x60 0 []) preparing).memoriesWf ∧
      ∃ t, step (offering (.core 0x60 0 []) preparing) = .next t :=
  ⟨⟨by decide, by decide, by decide, by decide⟩,
    next_of_leadsTo (p := fun t => t.phase = .sending) (by decide +kernel)⟩

theorem witness_InvariantsExcludeFaults :
    JobInv sending ∧ ∀ off n, Instr.ctWrite ≠ .bcCompress off n :=
  ⟨witness_JobInv_sending, fun _ _ h => by cases h⟩

/-- Every row of R244 that changes `STATE` is taken by some state (the row of an empty frame list under a
configuration that `step` refuses). -/
theorem witness_StateChangesFollowTable :
    leadsTo (exec .tcStart idle) (fun t => t.phase = .preparing) = true ∧
      leadsTo (exec .ctPrep preparing) (fun t => t.phase = .sending) = true ∧
      leadsTo (exec .ctPrep scarce) (fun t => t.phase = .failed) = true ∧
      leadsTo (exec .ctPrep { preparing with env := ⟨true, 16, false, true⟩ })
        (fun t => t.phase = .failed) = true ∧
      leadsTo (exec .ctPrep { preparing with cfg := { t1 with w := 0 } })
        (fun t => t.phase = .failed && t.cause = .emptyFrameList) = true ∧
      leadsTo (exec .ctWrite { sending with env := ⟨true, 16, true, false⟩ })
        (fun t => t.phase = .failed) = true ∧
      leadsTo (exec .tcAbort sending) (fun t => t.phase = .failed) = true ∧
      leadsTo (exec .tcAbort awaiting) (fun t => t.phase = .failed) = true ∧
      leadsTo (exec .ctWait { awaiting with ackTimer := 2000 }) (fun t => t.phase = .failed) = true ∧
      leadsTo (exec .evReset awaiting) (fun t => t.phase = .idle) = true ∧
      leadsTo (exec .tcRelease failed) (fun t => t.phase = .idle) = true ∧
      leadsTo (exec .ctWrite { sending with sub := 1 }) (fun t => t.phase = .awaitingAck) = true ∧
      leadsTo (exec .ctWait acked) (fun t => t.phase = .sending) = true ∧
      leadsTo (exec .ctWait ackedLast) (fun t => t.phase = .completed) = true ∧
      leadsTo (exec .tcRelease completed) (fun t => t.phase = .idle) = true := by decide +kernel
theorem witness_JobIdWrittenByStartOnly :
    leadsTo (exec .tcStart idle) (fun t => t.jobId ≠ idle.jobId) = true ∧
      leadsTo (exec .evReset sending) (fun t => t.jobId ≠ sending.jobId) = true := by decide
theorem witness_MemoriesWrittenByTheirWriters :
    leadsTo (exec (.pbFill true) idle) (fun t => t.pb ≠ idle.pb) = true ∧
      leadsTo (exec .ftRun idle) (fun t => t.tb ≠ idle.tb) = true ∧
      leadsTo (exec (.bcCompress 0 2) sending) (fun t => t.cb ≠ sending.cb) = true ∧
      leadsTo (exec .tcRelease completed) (fun t => t.frames ≠ completed.frames) = true ∧
      (offering (.core 0x60 0 []) preparing).unitAccess = false ∧
      leadsTo (step (offering (.core 0x60 0 []) preparing)) (fun t => t.tb ≠ preparing.tb) = true ∧
      leadsTo (step (offering (.core 0x7F 0 []) sending)) (fun t => t.wm ≠ sending.wm) = true := by
  decide +kernel
theorem witness_RegistersWrittenByTheirWriters :
    Instr.evTick ≠ .evReset ∧
      leadsTo (exec (.pbGet 0 0) idle) (fun t => t.result ≠ idle.result) = true ∧
      leadsTo (exec .tcAbort sending) (fun t => t.cause ≠ sending.cause) = true ∧
      leadsTo (exec .tcRelease completed)
        (fun t => t.nframes ≠ completed.nframes ∧ t.cur ≠ completed.cur ∧ t.sub ≠ completed.sub) = true ∧
      leadsTo (exec (.evNotify [1]) awaiting)
        (fun t => t.ackFlag ≠ awaiting.ackFlag ∧ t.lastAck ≠ awaiting.lastAck) = true ∧
      leadsTo (exec .evTick { awaiting with paceTimer := 1 })
        (fun t => t.ackTimer ≠ awaiting.ackTimer ∧ t.paceTimer = 0) = true ∧
      leadsTo (exec .tcStart idle) (fun t => t.mtuL ≠ idle.mtuL) = true ∧
      leadsTo (exec .tcStart sending) (fun t => t.resp ≠ sending.resp) = true := by decide +kernel
theorem witness_OnlyWritePresentsSlices :
    leadsTo (exec .ctWrite sending) (fun t => t.tx ≠ sending.tx) = true := by decide
theorem witness_StepKeepsCodesApart :
    failed.cause.isCause = true ∧ failed.resp.isResponse = true ∧
      leadsTo (step (offering (.cmd 0x2000000000000000) failed)) (fun _ => true) = true := by
  decide +kernel
theorem witness_StepKeepsLastAckShape :
    awaiting.lastAck.length = awaiting.cfg.ackMax ∧ awaiting.lastAckLen.toNat ≤ awaiting.cfg.ackMax ∧
      awaiting.lastAck = List.replicate 32 0 ∧
      leadsTo (step (offering (.core 0x70 0 [1]) awaiting)) (fun t => t.lastAckLen = 1) = true := by
  decide +kernel
theorem witness_StepKeepsConfiguration :
    leadsTo (step (offering (.core 0x7F 0 []) sending)) (fun _ => true) = true := by decide +kernel
theorem witness_TerminalStatesStay :
    completed.phase = .completed ∧ failed.phase = .failed ∧ failed.paceTimer = 0 ∧
      leadsTo (exec .tcStart failed) (fun _ => true) = true := by decide
theorem witness_FramesAreImmutable :
    (offering (.cmd 0x1201000000000000) awaiting).phase ≠ .preparing ∧
      leadsTo (step (offering (.cmd 0x1201000000000000) awaiting)) (fun _ => true) = true := by
  decide +kernel
theorem witness_FramesDependOnPixelsOnly :
    preparing.phase = .preparing ∧ preparing.cfg.legal = true ∧
      (∀ a, a < preparing.cfg.bitmapSize →
        preparing.pb.read .pb a = ({ preparing with tb := pictureTb } : State).pb.read .pb a) ∧
      leadsTo (exec .ctPrep preparing) (fun _ => true) = true ∧
      leadsTo (exec .ctPrep { preparing with tb := pictureTb }) (fun _ => true) = true := by
  refine ⟨by decide, by decide, fun _ _ => rfl, by decide +kernel, by decide +kernel⟩

/-- The last tick before the deadline, the deadline, and the most ticks the statement covers. -/
theorem witness_UnacknowledgedJobTimesOut :
    awaiting.cfg.legal = true ∧ awaiting.phase = .awaitingAck ∧ awaiting.ackFlag = false ∧
      awaiting.ackTimer.toNat + 1999 < awaiting.cfg.ackTimeoutTicks ∧
      awaiting.cfg.ackTimeoutTicks ≤ awaiting.ackTimer.toNat + 2000 ∧
      awaiting.ackTimer.toNat + 65535 ≤ 65535 := by decide

end Sys2Proof.Tests
end

/-! The statements of 00_scope.md: what a step runs, when it refuses or passes, and that no step changes the
configuration. -/

namespace Sys2Proof.Machine

open Host (Outcome)

/-! ## What the next turn comes to -/

@[simp] theorem setHeld_self (s : State) : setHeld s.cmdHeld s = s := rfl

/-- With the port free and nothing older waiting, the CMD port takes the one word in its queue. -/
theorem takeHeld_single {w : CmdWord} {s : State} (hp : s.phase ≠ .preparing) (hq : s.cmdHeld = []) :
    takeHeld [w] s = .packet (.cmd w) s := by
  have hs : setHeld [] s = s := by rw [← hq, setHeld_self]
  simp [takeHeld, State.cmdBusy, hp, hs]

/-- A CMD word is run at once when the port is busy (it waits there, `onCmdPort`) or no older word waits. -/
theorem offered_cmd {w : CmdWord} {s : State} (h : s.cmdHeld = [] ∨ s.phase = .preparing) :
    offered (.cmd w) s = .packet (.cmd w) s := by
  by_cases hp : s.phase = .preparing
  · simp [offered, State.cmdBusy, hp]
  · have hq : s.cmdHeld = [] := h.resolve_right hp
    simp [offered, State.cmdBusy, hp, hq, takeHeld_single]

theorem offered_core {l : Byte} {a : BitVec 32} {d : List Byte} {s : State}
    (h : isMicroLabel l = false ∨ s.unitAccess = true) :
    offered (.core l a d) s = .packet (.core l a d) s := by
  rcases h with h | h <;> simp [offered, h]

/-- When an offered packet is the one to be run: it is no micro-operation or the units are accessible, and no
older command goes before it. -/
theorem offered_eq_packet {p : Packet} {s : State} (hm : p.isMicro = false ∨ s.unitAccess = true)
    (hq : ∀ w, p = .cmd w → s.cmdHeld = [] ∨ s.phase = .preparing) : offered p s = .packet p s := by
  cases p with
  | cmd w => exact offered_cmd (hq w rfl)
  | stat w => rfl
  | core l a d => exact offered_core hm

/-- Without access to the units the turn of a micro-operation passes. -/
theorem offered_micro_passes {p : Packet} {s : State} (hm : p.isMicro = true) (hu : s.unitAccess = false) :
    offered p s = .idle s := by
  cases p with
  | cmd w => cases hm
  | stat w => cases hm
  | core l a d =>
    have hl : isMicroLabel l = true := hm
    simp [offered, hl, hu]

theorem fetch_nil {s : State} (h : s.schedule = []) : fetch s = .idle s := by
  simp [fetch, h]

theorem fetch_packet {s : State} {e : Env} {p : Packet} {rest : List Turn}
    (h : s.schedule = ⟨e, .packet p⟩ :: rest) :
    fetch s = offered p { s with schedule := rest, env := e } := by
  simp [fetch, h, beginTurn]

/-- Fetching keeps the configuration, which is not of the environment side (`fetch_keeps`). -/
theorem fetch_idle_cfg {s t : State} (h : fetch s = .idle t) : t.cfg = s.cfg := by
  rw [fetch_keeps.1 t h]

theorem fetch_packet_cfg {s t : State} {p : Packet} (h : fetch s = .packet p t) : t.cfg = s.cfg := by
  rw [fetch_keeps.2 p t h]

/-! ## One step, by what its turn comes to -/

theorem step_of_illegal {s : State} (hc : s.cfg.legal = false) : step s = .refused .illegalConfig := by
  simp [step, hc]

theorem step_of_idle {s t : State} (hc : s.cfg.legal = true) (hf : fetch s = .idle t) :
    step s = .next t := by
  simp [step, hc, hf]

theorem step_of_packet {s t : State} {p : Packet} (hc : s.cfg.legal = true) (hf : fetch s = .packet p t) :
    step s = runPacket p t := by
  simp [step, hc, hf]

theorem runPacket_of_decode {p : Packet} {i : Instr} (hd : decode p = .ok i) (s : State) :
    runPacket p s = exec i s := by
  simp [runPacket, hd]

/-- Settles O6: the turn comes to its packet (`offered_eq_packet`), or passes (`offered_micro_passes`). -/
theorem stepRunsDecodedInstruction : Obligations.StepRunsDecodedInstruction := by
  intro s e p rest i hc hs hd hq
  constructor
  · intro hm
    have hf := (fetch_packet hs).trans (offered_eq_packet hm hq)
    rw [step_of_packet hc hf, runPacket_of_decode hd]
  · intro hm hu
    have hf := (fetch_packet hs).trans (offered_micro_passes hm hu)
    exact step_of_idle hc hf

/-- Settles O7, by the two outcomes of `step` that run no packet. -/
theorem stepWithoutTurnOrConfig : Obligations.StepWithoutTurnOrConfig :=
  fun _ => ⟨step_of_illegal, fun hc hs => step_of_idle hc (fetch_nil hs)⟩

/-! ## A field that an effect keeps

Stated for any view `f` of the state, so that one lemma serves every field of Laws/State.lean. -/

section Views

variable {α : Type} (f : State → α)

/-- An operation of the CMD port keeps what both its waiting and its effect keep. -/
theorem onCmdPort_keeps {p : Packet} {s t : State} (hh : f (hold p s) = f s) (ht : f t = f s) :
    f (onCmdPort p s t) = f s := by
  rcases onCmdPort_cases p s t with ⟨-, h⟩ | ⟨-, h⟩ <;> rw [h]
  · exact hh
  · exact ht

/-- A sequencer's step keeps what its effect keeps. -/
theorem whenEnabled_keeps {b : Bool} {s t : State} (ht : f t = f s) : f (whenEnabled b s t) = f s := by
  rcases whenEnabled_cases b s t with ⟨-, h⟩ | ⟨-, h⟩ <;> rw [h]
  exact ht

/-- A next state shows what the state inside the outcome shows. -/
theorem next_keeps {s t u : State} (h : (.next u : Outcome State Fault Refusal) = .next t)
    (hu : f u = f s) : f t = f s := by
  cases h
  exact hu

end Views

/-! ## The configuration under each effect -/

@[simp] theorem pixelWrite_cfg (x y : Half) (v : Bool) (s : State) : (pixelWrite x y v s).cfg = s.cfg := by
  unfold pixelWrite
  split <;> simp

@[simp] theorem pixelRead_cfg (x y : Half) (s : State) : (pixelRead x y s).cfg = s.cfg := rfl

@[simp] theorem fillPixels_cfg (v : Bool) (s : State) : (fillPixels v s).cfg = s.cfg := rfl

@[simp] theorem startJob_cfg (s : State) : (startJob s).cfg = s.cfg := by
  unfold startJob
  split
  · rfl
  · split <;> rfl

@[simp] theorem abortJob_cfg (s : State) : (abortJob s).cfg = s.cfg := by
  unfold abortJob
  split <;> rfl

@[simp] theorem releaseJob_cfg (s : State) : (releaseJob s).cfg = s.cfg := by
  unfold releaseJob
  split <;> rfl

@[simp] theorem runJob_cfg (s : State) : (runJob s).1.cfg = s.cfg := by
  obtain ⟨cb, cbLen, wm, h⟩ := runJob_keeps s
  rw [h, setBlock_cfg]

@[simp] theorem prepareJob_cfg (s : State) : (prepareJob s).cfg = s.cfg := by
  rcases prepareJob_cases s with
    ⟨-, h⟩ | ⟨-, cb, cbLen, wm, ⟨-, h⟩ | ⟨-, -, h⟩ | ⟨list, -, -, h⟩⟩ <;> simp [h]

@[simp] theorem writeSlice_cfg (bytes : List Byte) (count : Nat) (s : State) :
    (writeSlice bytes count s).cfg = s.cfg := by
  rcases writeSlice_cases bytes count s with ⟨-, h⟩ | ⟨-, -, h⟩ | ⟨-, -, h⟩ <;> simp [h]

@[simp] theorem consumeAck_cfg (s : State) : (consumeAck s).cfg = s.cfg := by
  unfold consumeAck
  split
  · split <;> rfl
  · rfl

theorem execBcCompress_cfg {off n : Half} {s t : State} (h : execBcCompress off n s = .next t) :
    t.cfg = s.cfg := by
  unfold execBcCompress at h
  split at h
  · cases h
  · exact next_keeps State.cfg h (by simp)

theorem execCtWrite_cfg {s t : State} (h : execCtWrite s = .next t) : t.cfg = s.cfg := by
  rcases execCtWrite_cases h with ⟨-, rfl⟩ | ⟨-, -, _, _, -, -, rfl⟩
  · rfl
  · exact writeSlice_cfg ..

/-- An operation of the CMD port keeps the configuration when its effect does. -/
theorem onCmdPort_cfg {p : Packet} {s t : State} (ht : t.cfg = s.cfg) : (onCmdPort p s t).cfg = s.cfg :=
  onCmdPort_keeps State.cfg (hold_cfg p s) ht

/-- No operation changes the configuration (00_scope.md R8). -/
theorem exec_cfg {i : Instr} {s t : State} (h : exec i s = .next t) : t.cfg = s.cfg := by
  cases i with
  | pbSet x y v => exact next_keeps State.cfg h (onCmdPort_cfg (pixelWrite_cfg x y v s))
  | pbClrpx x y => exact next_keeps State.cfg h (onCmdPort_cfg (pixelWrite_cfg x y false s))
  | pbGet x y => exact next_keeps State.cfg h (onCmdPort_cfg (pixelRead_cfg x y s))
  | pbFill v => exact next_keeps State.cfg h (onCmdPort_cfg (fillPixels_cfg v s))
  | pbClear => exact next_keeps State.cfg h (onCmdPort_cfg (fillPixels_cfg false s))
  | tcStart => exact next_keeps State.cfg h (onCmdPort_cfg (startJob_cfg s))
  | tcAbort => exact next_keeps State.cfg h (onCmdPort_cfg (abortJob_cfg s))
  | tcRelease => exact next_keeps State.cfg h (onCmdPort_cfg (releaseJob_cfg s))
  | stIsconn => exact next_keeps State.cfg h (answerQuery_cfg _ s)
  | stIsprint => exact next_keeps State.cfg h (answerQuery_cfg _ s)
  | stRd a => exact next_keeps State.cfg h (answerStat_cfg _ s)
  | ftReorder => exact next_keeps State.cfg h (reorderStage_cfg s)
  | ftSwap => exact next_keeps State.cfg h (swapStage_cfg s)
  | ftInvert => exact next_keeps State.cfg h (invertStage_cfg s)
  | ftRun => exact next_keeps State.cfg h (transform_cfg s)
  | bcCompress off n => exact execBcCompress_cfg h
  | feGroups => exact next_keeps State.cfg h (setUop_cfg _ s)
  | feBuild fr => exact next_keeps State.cfg h (setUop_cfg _ s)
  | feCsum body => exact next_keeps State.cfg h (setUop_cfg _ s)
  | feSplit frame mtu k => exact next_keeps State.cfg h (setUop_cfg _ s)
  | feJob => exact next_keeps State.cfg h (runJob_cfg s)
  | ctPrep => exact next_keeps State.cfg h (whenEnabled_keeps State.cfg (prepareJob_cfg s))
  | ctWrite => exact execCtWrite_cfg h
  | ctWait => exact next_keeps State.cfg h (whenEnabled_keeps State.cfg (consumeAck_cfg s))
  | evNotify payload =>
    refine next_keeps State.cfg h ?_
    split <;> rfl
  | evTick => exact next_keeps State.cfg h (tick_cfg s)
  | evReset => exact next_keeps State.cfg h (resetCore_cfg s)

theorem rejected_cfg {p : Packet} {s t : State} (h : rejected p s = .next t) : t.cfg = s.cfg := by
  rcases rejected_cases h with ⟨w, -, -, rfl⟩ | ⟨w, -, -, rfl⟩ | ⟨w, -, rfl⟩
  · exact hold_cfg _ s
  · exact respond_cfg _ s
  · exact answerStat_cfg _ s

/-- Settles O56: fetching keeps the configuration, and so does whatever the fetched packet does. -/
theorem stepKeepsConfiguration : Obligations.StepKeepsConfiguration := by
  intro s t h
  obtain ⟨-, hidle | ⟨p, s', hf, ⟨i, -, hi⟩ | ⟨-, hr⟩⟩⟩ := step_cases h
  · exact fetch_idle_cfg hidle
  · exact (exec_cfg hi).trans (fetch_packet_cfg hf)
  · exact (rejected_cfg hr).trans (fetch_packet_cfg hf)

end Sys2Proof.Machine

/-! The statements of 10_state.md: what every operation can do to the state, said once (`Effect`,
`exec_effect`), and from it who writes each register and memory and what every step keeps. -/

namespace Sys2Proof.Machine

open Host (Outcome)

/-! ## What an operation can do -/

/-- The operations that write pixels (10_state.md R41, the row of `PB`). -/
def WritesPixels (i : Instr) : Prop :=
  (∃ x y v, i = .pbSet x y v) ∨ (∃ x y, i = .pbClrpx x y) ∨ (∃ v, i = .pbFill v) ∨ i = .pbClear

/-- Everything an operation taken in `s` can do, with the conditions under which it does it. Each next state
is written with the named updates of Laws/State.lean. -/
inductive Effect (s : State) : Instr → State → Prop
  /-- a CMD word waits for the port (R232, R333) -/
  | waits {i : Instr} {w : CmdWord} : encode i = .cmd w → s.phase = .preparing →
      Effect s i (setHeld (s.cmdHeld ++ [w]) s)
  /-- pixels are written (40_pixelbuffer.md R132, R135) -/
  | setsPixels {i : Instr} {m : Memory} : WritesPixels i → (s.pb.wf = true → m.wf = true) →
      Effect s i (respond .ok (setPb m s))
  /-- a pixel is read (R134) -/
  | readsPixel (x y : Half) (bit : Bool) : Effect s (.pbGet x y) (respond .ok (setResult bit s))
  /-- a command is answered and does nothing else (R231, R237, R239) -/
  | declines {i : Instr} {w : CmdWord} {code : Code} : encode i = .cmd w → code.isResponse = true →
      Effect s i (respond code s)
  /-- a job is accepted (R231) -/
  | starts : s.phase = .idle → s.env.linkReady = true → s.env.mtu ≠ 0 →
      Effect s .tcStart (respond .ok (acceptJob s))
  /-- the host aborts the job in flight (R237) -/
  | aborts : s.phase = .sending ∨ s.phase = .awaitingAck →
      Effect s .tcAbort (respond .ok (fail .aborted s))
  /-- the host releases a job that is over (R239) -/
  | releases : s.phase = .completed ∨ s.phase = .failed →
      Effect s .tcRelease (respond .ok (clearJob s))
  /-- a status query is answered (R240, R241) -/
  | answersQuery {i : Instr} (bit : Bool) : i = .stIsconn ∨ i = .stIsprint →
      Effect s i (answerQuery bit s)
  /-- a status register is read (R242) -/
  | answersRead (a : Byte) : Effect s (.stRd a) (answerStat (statRegister s a) s)
  /-- a stage of the transformer writes `TB` (41_format_transformer.md R151 to R154) -/
  | transforms {i : Instr} {m : Memory} :
      i = .ftReorder ∨ i = .ftSwap ∨ i = .ftInvert ∨ i = .ftRun → m.wf = true → Effect s i (setTb m s)
  /-- the compressor is called (42_block_compressor.md R170, 43_frame_encoder.md R210) -/
  | compresses {i : Instr} {cb : Memory} {n : Nat} {wm : WorkMemory} (r : UopResult) :
      (∃ off len, i = .bcCompress off len) ∨ i = .feJob →
      (s.memoriesWf → (setBlock cb n wm s).memoriesWf) → Effect s i (setUop r (setBlock cb n wm s))
  /-- a micro-operation reports and writes nothing else (43_frame_encoder.md) -/
  | reports {i : Instr} (r : UopResult) : (encode i).isMicro = true → Effect s i (setUop r s)
  /-- a turn passes, or a notification is stale (R236, R238) -/
  | passes {i : Instr} : Effect s i s
  /-- preparation fails (R233) -/
  | failsPreparing {cause : Code} {tb cb : Memory} {n : Nat} {wm : WorkMemory} :
      s.phase = .preparing → cause.isCause = true → cause ≠ .ok →
      (s.memoriesWf → (setBlock cb n wm (setTb tb s)).memoriesWf) →
      Effect s .ctPrep (fail cause (setBlock cb n wm (setTb tb s)))
  /-- the frames are built (R233) -/
  | prepares {list : List Frame} {tb cb : Memory} {n : Nat} {wm : WorkMemory} :
      s.phase = .preparing → groupsOf s.cfg ≠ [] →
      (groupsOf s.cfg).mapM (groupFrame (transform s)) = some list →
      (s.memoriesWf → (setBlock cb n wm (setTb tb s)).memoriesWf) →
      Effect s .ctPrep (startSending list (setBlock cb n wm (setTb tb (setPace 0 s))))
  /-- the transport refuses a slice (R235) -/
  | failsWrite (bytes : List Byte) : s.phase = .sending → s.env.txOk = false →
      Effect s .ctWrite (fail .writeFailure (present bytes s))
  /-- the last slice of a batch is written (R235) -/
  | endsBatch {f : Frame} (bytes : List Byte) : s.phase = .sending → s.paceTimer = 0 →
      s.frames[s.cur.toNat]? = some f → s.sub.toNat + 1 = nslices f s.mtuL.toNat →
      Effect s .ctWrite (enterAwaiting (present bytes s))
  /-- a slice is written and more of its batch remain (R235) -/
  | paces {f : Frame} (bytes : List Byte) : s.phase = .sending → s.paceTimer = 0 →
      s.frames[s.cur.toNat]? = some f → s.sub.toNat + 1 < nslices f s.mtuL.toNat →
      Effect s .ctWrite (beginPacing (present bytes s))
  /-- the last acknowledgement is consumed (R236) -/
  | completes : s.phase = .awaitingAck → s.ackFlag = true → s.cur = s.nframes →
      Effect s .ctWait (finishJob s)
  /-- an acknowledgement is consumed and frames remain (R236) -/
  | startsBatch : s.phase = .awaitingAck → s.ackFlag = true → s.cur ≠ s.nframes →
      Effect s .ctWait (nextBatch s)
  /-- the deadline is over (R236) -/
  | timesOut : s.phase = .awaitingAck → s.ackFlag = false → deadlineOver s = true →
      Effect s .ctWait (fail .ackTimeout s)
  /-- an acknowledgement is accepted (R238) -/
  | acknowledges (payload : List Byte) : s.phase = .awaitingAck → s.ackFlag = false →
      Effect s (.evNotify payload) (acceptAck payload s)
  /-- time passes (R243) -/
  | ticks : Effect s .evTick (tick s)
  /-- reset (70_reset_and_hazards.md R320) -/
  | resets : Effect s .evReset (resetCore s)

/-! ## Every operation's meaning is an `Effect` -/

/-- An outcome that is a next state takes the effect of that state. -/
theorem Effect.of_next {i : Instr} {s t u : State} (h : (.next u : Outcome State Fault Refusal) = .next t)
    (he : Effect s i u) : Effect s i t := by
  cases h
  exact he

/-- A command of the CMD port waits in Preparing and takes its effect at any other time. -/
theorem Effect.of_onCmdPort {i : Instr} {w : CmdWord} {s t u : State} (hw : encode i = .cmd w)
    (h : (.next (onCmdPort (encode i) s u) : Outcome State Fault Refusal) = .next t)
    (he : Effect s i u) : Effect s i t := by
  refine .of_next h ?_
  rcases onCmdPort_cases (encode i) s u with ⟨hp, hc⟩ | ⟨-, hc⟩ <;> rw [hc]
  · rw [hw]
    exact .waits hw hp
  · exact he

theorem pixelWrite_effect {i : Instr} (hi : WritesPixels i) (x y : Half) (v : Bool) (s : State) :
    Effect s i (pixelWrite x y v s) := by
  unfold pixelWrite
  split
  · exact .setsPixels hi fun h => setPixel_wf s.cfg h _ _ v
  · exact .setsPixels hi (m := s.pb) id

theorem fillPixels_effect {i : Instr} (hi : WritesPixels i) (v : Bool) (s : State) :
    Effect s i (fillPixels v s) :=
  .setsPixels hi fun _ => Memory.wf_build ..

theorem startJob_effect (s : State) : Effect s .tcStart (startJob s) := by
  unfold startJob
  split
  · exact .declines rfl rfl
  next hidle =>
    split
    · exact .declines rfl rfl
    next hlink =>
      rw [not_or] at hlink
      exact .starts (not_not.1 hidle) (by simpa using hlink.1) hlink.2

theorem abortJob_effect (s : State) : Effect s .tcAbort (abortJob s) := by
  unfold abortJob
  split
  next hp => exact .aborts hp
  · exact .declines rfl rfl

theorem releaseJob_effect (s : State) : Effect s .tcRelease (releaseJob s) := by
  unfold releaseJob
  split
  next hp => exact .releases hp
  · exact .declines rfl rfl

theorem execBcCompress_effect {off n : Half} {s t : State} (h : execBcCompress off n s = .next t) :
    Effect s (.bcCompress off n) t := by
  unfold execBcCompress at h
  split at h
  · cases h
  · refine .of_next h ?_
    obtain ⟨cb, cbLen, wm, hc⟩ := compressRange_keeps off.toNat n.toNat s
    have hwf := fun hs : s.memoriesWf => compressRange_memoriesWf hs off.toNat n.toNat
    rw [hc] at hwf ⊢
    exact .compresses _ (.inl ⟨off, n, rfl⟩) hwf

theorem runJob_memoriesWf {s : State} (h : s.memoriesWf) : (runJob s).1.memoriesWf :=
  jobFrames_memoriesWf (groupsOf s.cfg) h

theorem execFeJob_effect (s : State) : Effect s .feJob (setUop (.job (runJob s).2) (runJob s).1) := by
  obtain ⟨cb, cbLen, wm, hc⟩ := runJob_keeps s
  have hwf := runJob_memoriesWf (s := s)
  rw [hc] at hwf ⊢
  exact .compresses _ (.inr rfl) hwf

theorem finishPrep_memoriesWf {s : State} (h : s.memoriesWf) (r : JobResult) :
    (finishPrep r s).memoriesWf := by
  cases r <;> exact h

theorem prepareJob_memoriesWf {s : State} (h : s.memoriesWf) : (prepareJob s).memoriesWf := by
  unfold prepareJob
  split
  · exact h
  · exact finishPrep_memoriesWf (runJob_memoriesWf (transform_memoriesWf (s := setPace 0 s) h)) _

theorem prepareJob_effect {s : State} (hp : s.phase = .preparing) : Effect s .ctPrep (prepareJob s) := by
  have hwf := prepareJob_memoriesWf (s := s)
  rcases prepareJob_cases s with
    ⟨-, h⟩ | ⟨-, cb, cbLen, wm, ⟨-, h⟩ | ⟨-, -, h⟩ | ⟨list, hne, hl, h⟩⟩ <;> rw [h] at hwf ⊢
  · exact .failsPreparing (tb := s.tb) (cb := s.cb) (n := s.cbLen) (wm := s.wm) hp rfl (by decide) hwf
  · exact .failsPreparing (tb := (transform (setPace 0 s)).tb) hp rfl (by decide) hwf
  · exact .failsPreparing (tb := (transform (setPace 0 s)).tb) hp rfl (by decide) hwf
  · exact .prepares (tb := (transform (setPace 0 s)).tb) hp hne hl hwf

theorem slice?_some {f : Frame} {mtu k : Nat} {bytes : List Byte} (h : slice? f mtu k = some bytes) :
    k < nslices f mtu := by
  unfold slice? at h
  split at h
  next hk => exact hk.2
  · cases h

theorem execCtWrite_effect {s t : State} (h : execCtWrite s = .next t) : Effect s .ctWrite t := by
  rcases execCtWrite_cases h with ⟨-, rfl⟩ | ⟨hp, hpace, f, bytes, hf, hs, rfl⟩
  · exact .passes
  · have hk := slice?_some hs
    rcases writeSlice_cases bytes (nslices f s.mtuL.toNat) s with
      ⟨htx, h⟩ | ⟨-, hc, h⟩ | ⟨-, hc, h⟩ <;> rw [h]
    · exact .failsWrite bytes hp htx
    · exact .endsBatch bytes hp hpace hf hc
    · exact .paces bytes hp hpace hf (by omega)

theorem consumeAck_effect {s : State} (h : waitEnabled s = true) : Effect s .ctWait (consumeAck s) := by
  simp only [waitEnabled, Bool.and_eq_true, decide_eq_true_eq, Bool.or_eq_true] at h
  obtain ⟨hp, ho⟩ := h
  unfold consumeAck
  split
  next hack =>
    split
    next hcur => exact .completes hp hack hcur
    next hcur => exact .startsBatch hp hack hcur
  next hack => exact .timesOut hp (by simpa using hack) (ho.resolve_left hack)

theorem evNotify_effect (payload : List Byte) (s : State) :
    Effect s (.evNotify payload) (if ackExpected s then acceptAck payload s else s) := by
  split
  next h =>
    simp only [ackExpected, Bool.and_eq_true, decide_eq_true_eq, Bool.not_eq_true'] at h
    exact .acknowledges payload h.1 h.2
  · exact .passes

/-- A sequencer's step passes or, when it is enabled, takes its effect. -/
theorem whenEnabled_effect {i : Instr} {b : Bool} {s t : State} (h : b = true → Effect s i t) :
    Effect s i (whenEnabled b s t) := by
  rcases whenEnabled_cases b s t with ⟨-, hc⟩ | ⟨hb, hc⟩ <;> rw [hc]
  · exact .passes
  · exact h hb

/-- What an operation that answers a next state did is one of the cases of `Effect`. -/
theorem exec_effect {i : Instr} {s t : State} (h : exec i s = .next t) : Effect s i t := by
  cases i with
  | pbSet x y v => exact .of_onCmdPort rfl h (pixelWrite_effect (.inl ⟨x, y, v, rfl⟩) x y v s)
  | pbClrpx x y => exact .of_onCmdPort rfl h (pixelWrite_effect (.inr (.inl ⟨x, y, rfl⟩)) x y false s)
  | pbGet x y => exact .of_onCmdPort rfl h (.readsPixel x y _)
  | pbFill v => exact .of_onCmdPort rfl h (fillPixels_effect (.inr (.inr (.inl ⟨v, rfl⟩))) v s)
  | pbClear => exact .of_onCmdPort rfl h (fillPixels_effect (.inr (.inr (.inr rfl))) false s)
  | tcStart => exact .of_onCmdPort rfl h (startJob_effect s)
  | tcAbort => exact .of_onCmdPort rfl h (abortJob_effect s)
  | tcRelease => exact .of_onCmdPort rfl h (releaseJob_effect s)
  | stIsconn => exact .of_next h (.answersQuery _ (.inl rfl))
  | stIsprint => exact .of_next h (.answersQuery _ (.inr rfl))
  | stRd a => exact .of_next h (.answersRead a)
  | ftReorder => exact .of_next h (.transforms (.inl rfl) (Memory.wf_build ..))
  | ftSwap => exact .of_next h (.transforms (.inr (.inl rfl)) (Memory.wf_build ..))
  | ftInvert => exact .of_next h (.transforms (.inr (.inr (.inl rfl))) (Memory.wf_build ..))
  | ftRun =>
    exact .of_next h (.transforms (m := (transform s).tb) (.inr (.inr (.inr rfl))) (Memory.wf_build ..))
  | bcCompress off n => exact execBcCompress_effect h
  | feGroups => exact .of_next h (.reports _ rfl)
  | feBuild fr => exact .of_next h (.reports _ rfl)
  | feCsum body => exact .of_next h (.reports _ rfl)
  | feSplit frame mtu k => exact .of_next h (.reports _ rfl)
  | feJob => exact .of_next h (execFeJob_effect s)
  | ctPrep => exact .of_next h (whenEnabled_effect fun hp => prepareJob_effect (of_decide_eq_true hp))
  | ctWrite => exact execCtWrite_effect h
  | ctWait => exact .of_next h (whenEnabled_effect consumeAck_effect)
  | evNotify payload => exact .of_next h (evNotify_effect payload s)
  | evTick => exact .of_next h .ticks
  | evReset => exact .of_next h .resets

end Sys2Proof.Machine

namespace Sys2Proof.Machine

open Host (Outcome)

/-! ## A predicate that a step keeps -/

/-- A step keeps what fetching keeps (it changes the environment side only), what every operation keeps under
a legal configuration, and what the two answers to an undecodable word keep. -/
theorem step_keeps {P : State → Prop}
    (henv : ∀ s sched env held, P s → P { s with schedule := sched, env := env, cmdHeld := held })
    (hexec : ∀ s i t, s.cfg.legal = true → P s → Effect s i t → P t)
    (hillegal : ∀ s, P s → P (respond .illegalCommand s))
    (hstat : ∀ s, P s → P (answerStat 0 s))
    {s t : State} (hs : P s) (h : step s = .next t) : P t := by
  obtain ⟨hc, hidle | ⟨p, s', hf, hrun⟩⟩ := step_cases h
  · rw [fetch_keeps.1 t hidle]
    exact henv s _ _ _ hs
  · have hs' : P s' := by
      rw [fetch_keeps.2 p s' hf]
      exact henv s _ _ _ hs
    rcases hrun with ⟨i, -, hi⟩ | ⟨-, hr⟩
    · exact hexec s' i t (by rw [fetch_packet_cfg hf]; exact hc) hs' (exec_effect hi)
    · rcases rejected_cases hr with ⟨w, -, -, rfl⟩ | ⟨w, -, -, rfl⟩ | ⟨w, -, rfl⟩
      · exact henv s' s'.schedule s'.env _ hs'
      · exact hillegal s' hs'
      · exact hstat s' hs'

/-! ## The memories stay canonical -/

theorem Effect.keeps_memoriesWf {i : Instr} {s t : State} (he : Effect s i t) (hs : s.memoriesWf) :
    t.memoriesWf := by
  obtain ⟨hpb, htb, hcb, hwm⟩ := hs
  cases he with
  | setsPixels _ hm => exact ⟨hm hpb, htb, hcb, hwm⟩
  | transforms _ hm => exact ⟨hpb, hm, hcb, hwm⟩
  | compresses _ _ hm => exact hm ⟨hpb, htb, hcb, hwm⟩
  | failsPreparing _ _ _ hm => exact hm ⟨hpb, htb, hcb, hwm⟩
  | prepares _ _ _ hm => exact hm ⟨hpb, htb, hcb, hwm⟩
  | resets => exact ⟨rfl, rfl, rfl, rfl⟩
  | _ => exact ⟨hpb, htb, hcb, hwm⟩

/-- Settles O47: every effect keeps the canonical form, and nothing else of a step touches a memory. -/
theorem stepKeepsMemoriesCanonical : Obligations.StepKeepsMemoriesCanonical :=
  fun _ _ => step_keeps (fun _ _ _ _ h => h) (fun _ _ _ _ h he => he.keeps_memoriesWf h)
    (fun _ h => h) (fun _ h => h)

/-! ## The codes of `RESP` and `CAUSE` -/

/-- Each of the two code registers holds a code of its own set (10_state.md R24, R28). -/
def CodesApart (s : State) : Prop := s.cause.isCause = true ∧ s.resp.isResponse = true

theorem Effect.keeps_codesApart {i : Instr} {s t : State} (he : Effect s i t) (hs : CodesApart s) :
    CodesApart t := by
  obtain ⟨hc, hr⟩ := hs
  cases he with
  | setsPixels | readsPixel | starts => exact ⟨hc, rfl⟩
  | declines _ hcode => exact ⟨hc, hcode⟩
  | aborts | releases => exact ⟨rfl, rfl⟩
  | failsPreparing _ hcause => exact ⟨hcause, hr⟩
  | failsWrite | timesOut => exact ⟨rfl, hr⟩
  | resets => exact ⟨rfl, rfl⟩
  | _ => exact ⟨hc, hr⟩

/-- Settles O54: every effect writes response codes into `RESP` and cause codes into `CAUSE`. -/
theorem stepKeepsCodesApart : Obligations.StepKeepsCodesApart :=
  fun _ _ hc hr h => step_keeps (P := CodesApart) (fun _ _ _ _ h => h)
    (fun _ _ _ _ h he => he.keeps_codesApart h) (fun _ h => ⟨h.1, rfl⟩) (fun _ h => h) ⟨hc, hr⟩ h

/-! ## The shape of `LAST_ACK` -/

/-- What 10_state.md R33 says of `LAST_ACK` and `LAST_ACK_LEN`. -/
def LastAckShape (s : State) : Prop :=
  s.lastAck.length = s.cfg.ackMax ∧ s.lastAckLen.toNat ≤ s.cfg.ackMax ∧
    ∀ i, s.lastAckLen.toNat ≤ i → s.lastAck.getD i 0 = 0

@[simp] theorem keptPayload_length (ackMax : Nat) (payload : List Byte) :
    (keptPayload ackMax payload).length = ackMax := by
  simp only [keptPayload, List.length_append, List.length_take, List.length_replicate]
  omega

theorem getD_replicate_zero (n i : Nat) : (List.replicate n (0 : Byte)).getD i 0 = 0 := by
  rw [List.getD_eq_getElem?_getD, List.getElem?_getD_replicate_default_eq]

/-- Above the bytes of the payload `LAST_ACK` is filled with zeros. -/
theorem keptPayload_getD_zero {ackMax i : Nat} {payload : List Byte} (h : min payload.length ackMax ≤ i) :
    (keptPayload ackMax payload).getD i 0 = 0 := by
  have htake : (payload.take ackMax).length ≤ i := by
    rw [List.length_take]
    omega
  rw [keptPayload, List.getD_append_right _ _ _ _ htake, getD_replicate_zero]

theorem acceptAck_lastAckShape {s : State} (hc : s.cfg.legal = true) (payload : List Byte) :
    LastAckShape (acceptAck payload s) := by
  obtain ⟨-, -, -, -, -, -, -, -, -, -, -, -, -, hmax, -⟩ := legal_bounds hc
  have hlen : (acceptAck payload s).lastAckLen.toNat = min payload.length s.cfg.ackMax := by
    rw [acceptAck_lastAckLen, BitVec.toNat_ofNat, Nat.mod_eq_of_lt (by omega)]
  refine ⟨keptPayload_length .., ?_, ?_⟩
  · rw [hlen, acceptAck_cfg]
    omega
  · intro i hi
    exact keptPayload_getD_zero (by omega)

theorem resetCore_lastAckShape (s : State) : LastAckShape (resetCore s) := by
  refine ⟨List.length_replicate, ?_, ?_⟩
  · simp
  · intro i _
    exact getD_replicate_zero ..

theorem Effect.keeps_lastAckShape {i : Instr} {s t : State} (he : Effect s i t)
    (hc : s.cfg.legal = true) (hs : LastAckShape s) : LastAckShape t := by
  cases he with
  | acknowledges payload => exact acceptAck_lastAckShape hc payload
  | resets => exact resetCore_lastAckShape s
  | _ => exact hs

/-- Settles O55: a notification writes the shape and reset clears it; no other effect writes the registers. -/
theorem stepKeepsLastAckShape : Obligations.StepKeepsLastAckShape :=
  fun _ _ => step_keeps (P := LastAckShape) (fun _ _ _ _ h => h)
    (fun _ _ _ hc h he => he.keeps_lastAckShape hc h) (fun _ h => h) (fun _ h => h)

end Sys2Proof.Machine

namespace Sys2Proof.Machine

open Host (Outcome)

/-! ## Who writes each register -/

/-- The CMD port carries every operation that writes pixels (30_encoding.md R103, R108). -/
theorem WritesPixels.onCmdPort {i : Instr} (h : WritesPixels i) : ∃ w, encode i = .cmd w := by
  rcases h with ⟨x, y, v, rfl⟩ | ⟨x, y, rfl⟩ | ⟨v, rfl⟩ | rfl <;> exact ⟨_, rfl⟩

/-- Settles O50: of all effects only an accepted start and reset write `JOB_ID`. -/
theorem jobIdWrittenByStartOnly : Obligations.JobIdWrittenByStartOnly := by
  intro s t i h hne
  cases exec_effect h with
  | starts hidle =>
    refine .inl ⟨rfl, hidle, rfl, ?_⟩
    rw [respond_jobId, acceptJob_jobId, BitVec.toNat_add]
    rfl
  | resets => exact .inr ⟨rfl, rfl⟩
  | _ => exact absurd rfl hne

/-- Settles O52, effect by effect: the registers an effect leaves alone are those that `simp` finds unchanged
(Laws/State.lean); where it writes one, its operation is on the register's list. -/
theorem registersWrittenByTheirWriters : Obligations.RegistersWrittenByTheirWriters := by
  intro s t i h hreset
  cases exec_effect h with
  | setsPixels hi => simp [hi.onCmdPort]
  | readsPixel => simp [encode]
  | declines hw => simp [hw]
  | starts => simp [encode]
  | aborts => simp [encode]
  | releases => simp [encode]
  | answersQuery bit hi => rcases hi with rfl | rfl <;> simp
  | resets => exact absurd rfl hreset
  | _ => simp

/-! ## Who writes each memory -/

/-- The column "Written by" of 10_state.md R41, over every operation. -/
theorem exec_memory_writers {s t : State} {i : Instr} (h : exec i s = .next t) :
    (t.pb ≠ s.pb → (∃ x y v, i = .pbSet x y v) ∨ (∃ x y, i = .pbClrpx x y) ∨ (∃ v, i = .pbFill v) ∨
      i = .pbClear ∨ i = .evReset) ∧
    (t.tb ≠ s.tb → i = .ftReorder ∨ i = .ftSwap ∨ i = .ftInvert ∨ i = .ftRun ∨ i = .ctPrep ∨
      i = .evReset) ∧
    (t.cb ≠ s.cb ∨ t.cbLen ≠ s.cbLen ∨ t.wm ≠ s.wm →
      (∃ off n, i = .bcCompress off n) ∨ i = .feJob ∨ i = .ctPrep ∨ i = .evReset) ∧
    (t.frames ≠ s.frames → i = .ctPrep ∨ i = .tcRelease ∨ i = .evReset) := by
  cases exec_effect h with
  | setsPixels hi => rcases hi with ⟨x, y, v, rfl⟩ | ⟨x, y, rfl⟩ | ⟨v, rfl⟩ | rfl <;> simp
  | transforms hi => rcases hi with rfl | rfl | rfl | rfl <;> simp
  | compresses r hi => rcases hi with ⟨off, n, rfl⟩ | rfl <;> simp
  | _ => simp


end Sys2Proof.Machine

/-! ## The label of a packet -/

namespace Sys2Proof

/-- The trace label of a step of the CORE's own agents (30_encoding.md R105); a word of a port has none. -/
def Packet.label? : Packet → Option Byte
  | .cmd _ => none
  | .stat _ => none
  | .core label _ _ => some label

theorem Packet.isMicro_eq (p : Packet) : p.isMicro = p.label?.any isMicroLabel := by
  cases p <;> rfl

/-- Whatever operation an answer of the decoder names, the encoder writes it with label `l`. -/
def NamesLabel (l : Option Byte) (r : Except DecodeReject Instr) : Prop :=
  ∀ i, r = .ok i → (encode i).label? = l

theorem NamesLabel.ok {l : Option Byte} {i : Instr} (h : (encode i).label? = l) : NamesLabel l (.ok i) := by
  intro j hj
  cases hj
  exact h

theorem NamesLabel.error {l : Option Byte} {e : DecodeReject} : NamesLabel l (.error e) := by
  intro j hj
  cases hj

theorem NamesLabel.ite {l : Option Byte} {c : Prop} [Decidable c] {r r' : Except DecodeReject Instr}
    (h : c → NamesLabel l r) (h' : NamesLabel l r') : NamesLabel l (if c then r else r') := by
  split
  next hc => exact h hc
  · exact h'

/-- An operation under a condition on its unused bits or operands (`acceptIf`, `acceptBare`). -/
theorem NamesLabel.okIf {l : Option Byte} {c : Prop} [Decidable c] {i : Instr} {e : DecodeReject}
    (h : l = (encode i).label?) : NamesLabel l (if c then .ok i else .error e) :=
  .ite (fun _ => .ok h.symm) .error

/-- A row of 30_encoding.md R105: a label and the operation it stands for. -/
theorem NamesLabel.row {label l : Byte} {c : Prop} [Decidable c] {i : Instr} {e : DecodeReject}
    {r : Except DecodeReject Instr} (h : (encode i).label? = some l) (h' : NamesLabel (some label) r) :
    NamesLabel (some label) (if label = l then (if c then .ok i else .error e) else r) :=
  .ite (fun hl => .okIf (by rw [h, hl])) h'

theorem decodeCmd_namesLabel (w : CmdWord) : NamesLabel none (decodeCmd w) :=
  .ite (fun _ => .okIf rfl) <| .ite (fun _ => .okIf rfl) <| .ite (fun _ => .okIf rfl) <|
  .ite (fun _ => .okIf rfl) <| .ite (fun _ => .okIf rfl) <| .ite (fun _ => .okIf rfl) <|
  .ite (fun _ => .error) .error

theorem decodeStat_namesLabel (w : CmdWord) : NamesLabel none (decodeStat w) :=
  .ite (fun _ => .okIf rfl) <| .ite (fun _ => .okIf rfl) <| .ite (fun _ => .okIf rfl) <|
  .ite (fun _ => .error) .error

/-- Row by row of R105; the row of `FE.SPLIT` takes any operands. -/
theorem decodeCore_namesLabel (label : Byte) (args : BitVec 32) (data : List Byte) :
    NamesLabel (some label) (decodeCore label args data) :=
  .row rfl <| .row rfl <| .row rfl <| .row rfl <| .row rfl <| .row rfl <| .row rfl <| .row rfl <|
  .ite (fun hl => .ok (congrArg some hl.symm)) <|
  .row rfl <| .row rfl <| .row rfl <| .row rfl <| .row rfl <| .row rfl <| .row rfl .error

/-- A packet names an operation only under that operation's own label, or on a port if it has none. -/
theorem decode_label? {p : Packet} {i : Instr} (h : decode p = .ok i) : (encode i).label? = p.label? := by
  cases p with
  | cmd w => exact decodeCmd_namesLabel w i h
  | stat w => exact decodeStat_namesLabel w i h
  | core label args data => exact decodeCore_namesLabel label args data i h

/-- Only the packet of a micro-operation decodes to it. -/
theorem decode_isMicro {p : Packet} {i : Instr} (h : decode p = .ok i) :
    (encode i).isMicro = p.isMicro := by
  rw [Packet.isMicro_eq, Packet.isMicro_eq, decode_label? h]

end Sys2Proof

namespace Sys2Proof.Machine

open Host (Outcome)

/-! ## Who writes the working memories in a step -/

/-- A labelled packet that is run stands at the head of the schedule; a micro-operation's is run with access
to the units only (log 5). -/
theorem fetch_labelled {s s' : State} {p : Packet} (h : fetch s = .packet p s') (hl : p.label? ≠ none) :
    (∃ e rest, s.schedule = ⟨e, .packet p⟩ :: rest) ∧ (p.isMicro = true → s.unitAccess = true) := by
  have hheld : ∀ {queue u}, takeHeld queue u ≠ .packet p s' := by
    intro queue u hq
    rcases takeHeld_cases queue u with hc | ⟨w, rest, -, -, hc⟩ <;> rw [hc] at hq <;> cases hq
    exact hl rfl
  cases hs : s.schedule with
  | nil => rw [fetch_nil hs] at h; cases h
  | cons turn rest =>
    obtain ⟨e, offer⟩ := turn
    cases offer with
    | waiting =>
      simp only [fetch, hs] at h
      exact absurd h hheld
    | packet q =>
      rw [fetch_packet hs] at h
      cases q with
      | cmd w =>
        simp only [offered] at h
        split at h
        · cases h
          exact absurd rfl hl
        · exact absurd h hheld
      | stat w => cases h; exact absurd rfl hl
      | core label args data =>
        simp only [offered] at h
        split at h <;> cases h
        next hm =>
          refine ⟨⟨e, rest, rfl⟩, fun hmicro => ?_⟩
          simpa [show isMicroLabel label = true from hmicro] using hm

/-- `TB`, `CB`, `CB_LEN` and `WM` together (20_memory.md R74). -/
def State.workingMemories (s : State) : Memory × Memory × Nat × WorkMemory := (s.tb, s.cb, s.cbLen, s.wm)

theorem workingMemories_ne_iff {s t : State} : t.workingMemories ≠ s.workingMemories ↔
    t.tb ≠ s.tb ∨ t.cb ≠ s.cb ∨ t.cbLen ≠ s.cbLen ∨ t.wm ≠ s.wm := by
  simp only [State.workingMemories, ne_eq, Prod.mk.injEq, not_and_or]

/-- The working memories are written by micro-operations, by preparation and by reset. -/
theorem Effect.workingMemories_writers {s t : State} {i : Instr} (he : Effect s i t)
    (hne : t.workingMemories ≠ s.workingMemories) :
    (encode i).isMicro = true ∨ (i = .ctPrep ∧ s.phase = .preparing) ∨ i = .evReset := by
  cases he with
  | transforms hi => rcases hi with rfl | rfl | rfl | rfl <;> exact .inl rfl
  | compresses r hi => rcases hi with ⟨off, n, rfl⟩ | rfl <;> exact .inl rfl
  | failsPreparing hp => exact .inr (.inl ⟨rfl, hp⟩)
  | prepares hp => exact .inr (.inl ⟨rfl, hp⟩)
  | resets => exact .inr (.inr rfl)
  | _ => exact absurd rfl hne

theorem rejected_workingMemories {p : Packet} {s t : State} (h : rejected p s = .next t) :
    t.workingMemories = s.workingMemories := by
  rcases rejected_cases h with ⟨w, -, -, rfl⟩ | ⟨w, -, -, rfl⟩ | ⟨w, -, rfl⟩ <;> rfl

/-- Without access to the units a step writes the working memories in `CT.PREP` and in reset alone. -/
theorem step_workingMemories_writers {s t : State} (hu : s.unitAccess = false) (h : step s = .next t)
    (hne : t.workingMemories ≠ s.workingMemories) :
    ∃ e p rest, s.schedule = ⟨e, .packet p⟩ :: rest ∧
      (decode p = .ok .ctPrep ∧ s.phase = .preparing ∨ decode p = .ok .evReset) := by
  obtain ⟨-, hidle | ⟨p, s', hf, hrun⟩⟩ := step_cases h
  · exact absurd (by rw [fetch_keeps.1 t hidle]; rfl) hne
  have hs' := fetch_keeps.2 p s' hf
  have hmem : s'.workingMemories = s.workingMemories := by rw [hs']; rfl
  have hphase : s'.phase = s.phase := by rw [hs']
  rw [← hmem] at hne
  rcases hrun with ⟨i, hd, hi⟩ | ⟨-, hr⟩
  · have hlabel := decode_label? hd
    rcases (exec_effect hi).workingMemories_writers hne with hm | ⟨rfl, hp⟩ | rfl
    · rw [decode_isMicro hd] at hm
      have hl : p.label? ≠ none := by
        intro hnone
        simp [Packet.isMicro_eq, hnone] at hm
      rw [(fetch_labelled hf hl).2 hm] at hu
      cases hu
    · obtain ⟨⟨e, rest, hsched⟩, -⟩ := fetch_labelled hf (by rw [← hlabel]; exact Option.some_ne_none _)
      exact ⟨e, p, rest, hsched, .inl ⟨hd, hphase ▸ hp⟩⟩
    · obtain ⟨⟨e, rest, hsched⟩, -⟩ := fetch_labelled hf (by rw [← hlabel]; exact Option.some_ne_none _)
      exact ⟨e, p, rest, hsched, .inr hd⟩
  · exact absurd (rejected_workingMemories hr) hne

theorem Effect.unitAccess_eq {s t : State} {i : Instr} (he : Effect s i t) :
    t.unitAccess = s.unitAccess := by
  cases he <;> rfl

theorem step_unitAccess {s t : State} (h : step s = .next t) : t.unitAccess = s.unitAccess :=
  step_keeps (P := fun u => u.unitAccess = s.unitAccess) (fun _ _ _ _ hu => hu)
    (fun _ _ _ _ hu he => he.unitAccess_eq.trans hu) (fun _ hu => hu) (fun _ hu => hu) rfl h

/-- Settles O51: the writers of each memory over `exec`, and those of the working memories over `step`. -/
theorem memoriesWrittenByTheirWriters : Obligations.MemoriesWrittenByTheirWriters :=
  ⟨fun _ _ _ h => exec_memory_writers h,
    fun _ _ hu h hne => step_workingMemories_writers hu h (workingMemories_ne_iff.2 hne),
    fun _ _ h => step_unitAccess h, rfl⟩

end Sys2Proof.Machine

namespace Sys2Proof.Machine

open Host (Outcome)

/-! ## Right after reset -/

/-- Settles O44: each register of `State.reset` has its value by definition. -/
theorem resetStateValues : Obligations.ResetStateValues :=
  ⟨rfl, rfl, rfl, rfl, rfl, rfl, rfl, rfl, fun _ hb => List.eq_of_mem_replicate hb, rfl, rfl, rfl, rfl, rfl,
    rfl, rfl⟩

/-! ## The registers the job invariants speak of -/

/-- The registers that `JobInv` speaks of. -/
def State.jobRegisters (s : State) :
    Phase × Code × Bool × List Frame × Half × Half × Half × Half × Half :=
  (s.phase, s.cause, s.ackFlag, s.frames, s.nframes, s.cur, s.sub, s.mtuL, s.paceTimer)

theorem JobInv.of_jobRegisters {s t : State} (h : JobInv s) (ht : t.jobRegisters = s.jobRegisters) :
    JobInv t := by
  simp only [State.jobRegisters, Prod.mk.injEq] at ht
  obtain ⟨hphase, hcause, hack, hframes, hn, hcur, hsub, hmtu, hpace⟩ := ht
  constructor <;> simp only [hphase, hcause, hack, hframes, hn, hcur, hsub, hmtu, hpace]
  · exact h.cause_iff_failed
  · exact h.ack_flag_awaiting
  · exact h.frames_counted
  · exact h.frames_nonempty
  · exact h.mtu_known
  · exact h.sending_position
  · exact h.awaiting_position
  · exact h.acknowledged_position
  · exact h.completed_position
  · exact h.idle_empty
  · exact h.preparing_empty
  · exact h.pace_sending
  · exact h.frames_good
  · exact h.frames_few

/-! ## What the job invariants say in each phase -/

theorem JobInv.cause_ok {s : State} (h : JobInv s) (hp : s.phase ≠ .failed) : s.cause = .ok :=
  not_not.1 fun hc => hp (h.cause_iff_failed.1 hc)

theorem JobInv.ackFlag_clear {s : State} (h : JobInv s) (hp : s.phase ≠ .awaitingAck) : s.ackFlag = false :=
  Bool.eq_false_iff.2 fun ha => hp (h.ack_flag_awaiting ha)

theorem JobInv.frame_index_lt {s : State} (h : JobInv s) {k : Nat} {f : Frame}
    (hf : s.frames[k]? = some f) : k < s.nframes.toNat :=
  h.frames_counted ▸ (List.getElem?_eq_some_iff.1 hf).1

theorem JobInv.frame_good {s : State} (h : JobInv s) {k : Nat} {f : Frame}
    (hf : s.frames[k]? = some f) : GoodFrame f :=
  h.frames_good f (List.mem_of_getElem? hf)

/-- A frame that a job holds has a slice, whatever the unit size. -/
theorem GoodFrame.nslices_pos {f : Frame} (h : GoodFrame f) {mtu : Nat} (hm : 1 ≤ mtu) :
    0 < nslices f mtu := by
  rw [lt_nslices_iff f hm]
  have := h.long_enough
  omega

/-- It has at most as many slices as bytes. -/
theorem nslices_le_length (f : Frame) {mtu : Nat} (hm : 1 ≤ mtu) : nslices f mtu ≤ f.length := by
  by_contra hlt
  have hk := (lt_nslices_iff f hm (k := f.length)).1 (by omega)
  have := Nat.le_mul_of_pos_right f.length hm
  omega

/-- `SUB` counts the slices of a job's frame without a wrap. -/
theorem sub_succ_toNat {sub : Half} {f : Frame} {mtu : Nat} (hg : GoodFrame f) (hm : 1 ≤ mtu)
    (h : sub.toNat + 1 ≤ nslices f mtu) : (sub + 1).toNat = sub.toNat + 1 := by
  have hle := nslices_le_length f hm
  have hshort := hg.short_enough
  have hone : (1 : Half).toNat = 1 := rfl
  rw [BitVec.toNat_add, hone, Nat.mod_eq_of_lt (by omega)]

/-! ## Each change of the job keeps its invariants -/

/-- The state of a job that is over, or not yet begun: Idle with nothing in hand. -/
theorem JobInv.of_empty {s : State} (hphase : s.phase = .idle) (hcause : s.cause = .ok)
    (hack : s.ackFlag = false) (hframes : s.frames = []) (hn : s.nframes = 0) (hcur : s.cur = 0)
    (hsub : s.sub = 0) (hpace : s.paceTimer = 0) : JobInv s := by
  constructor <;> simp [hphase, hcause, hack, hframes, hn, hcur, hsub, hpace]

theorem resetCore_jobInv (s : State) : JobInv (resetCore s) :=
  .of_empty rfl rfl rfl rfl rfl rfl rfl rfl

theorem clearJob_jobInv (s : State) : JobInv (clearJob s) :=
  .of_empty rfl rfl rfl rfl rfl rfl rfl rfl

/-- The failure entry (60_exceptions.md R290) leaves the frames and the position as they are. -/
theorem fail_jobInv {s : State} (h : JobInv s) (hp : s.phase ≠ .idle) {cause : Code} (hc : cause ≠ .ok) :
    JobInv (fail cause s) := by
  constructor <;> simp [hc, h.frames_counted, h.mtu_known hp, h.frames_few]
  exact h.frames_good

theorem acceptJob_jobInv {s : State} (h : JobInv s) (hp : s.phase = .idle) (hm : s.env.mtu ≠ 0) :
    JobInv (acceptJob s) := by
  obtain ⟨hn, hcur, hsub, hframes, hpace⟩ := h.idle_empty hp
  have hmtu : 1 ≤ s.env.mtu.toNat := by
    bv_omega
  constructor <;> simp [h.cause_ok, h.ackFlag_clear, hp, hn, hcur, hsub, hframes, hpace, hmtu]

theorem tick_jobInv {s : State} (h : JobInv s) : JobInv (tick s) :=
  { h with
    idle_empty := fun hp => by
      obtain ⟨hn, hcur, hsub, hframes, hpace⟩ := h.idle_empty hp
      exact ⟨hn, hcur, hsub, hframes, by simp [tickedPaceTimer, hpace]⟩
    pace_sending := fun hp => by simp [tickedPaceTimer, h.pace_sending hp] }

/-- A batch whose last slice has been written waits for its acknowledgement (R43 e). -/
theorem enterAwaiting_jobInv {s : State} {f : Frame} (h : JobInv s) (hp : s.phase = .sending)
    (hpace : s.paceTimer = 0) (hf : s.frames[s.cur.toNat]? = some f)
    (hs : s.sub.toNat + 1 = nslices f s.mtuL.toNat) : JobInv (enterAwaiting s) := by
  have hmtu := h.mtu_known (by simp [hp])
  have hsub := sub_succ_toNat (h.frame_good hf) hmtu hs.le
  constructor <;>
    simp [h.cause_ok, hp, hpace, h.frames_counted, h.frames_nonempty, hmtu, h.frames_few]
  · exact ⟨f, hf, hsub.trans hs⟩
  · exact h.frames_good

/-- While slices remain the position names one of them (R43 d). -/
theorem beginPacing_jobInv {s : State} {f : Frame} (h : JobInv s) (hp : s.phase = .sending)
    (hf : s.frames[s.cur.toNat]? = some f)
    (hs : s.sub.toNat + 1 < nslices f s.mtuL.toNat) : JobInv (beginPacing s) := by
  have hmtu := h.mtu_known (by simp [hp])
  have hsub := sub_succ_toNat (h.frame_good hf) hmtu hs.le
  constructor <;>
    simp [h.cause_ok, h.ackFlag_clear, hp, h.frames_counted, h.frames_nonempty, hmtu, h.frames_few]
  · exact ⟨f, hf, hsub.trans_lt hs⟩
  · exact h.frames_good

theorem finishJob_jobInv {s : State} (h : JobInv s) (hp : s.phase = .awaitingAck)
    (hcur : s.cur = s.nframes) : JobInv (finishJob s) := by
  constructor <;>
    simp [h.cause_ok, hp, h.frames_counted, h.frames_nonempty, h.mtu_known, h.pace_sending, hcur,
      h.frames_few]
  exact h.frames_good

/-- The next frame is there and has a slice (R43 d). -/
theorem nextBatch_jobInv {s : State} (h : JobInv s) (hp : s.phase = .awaitingAck) (hack : s.ackFlag = true)
    (hcur : s.cur ≠ s.nframes) : JobInv (nextBatch s) := by
  have hmtu := h.mtu_known (by simp [hp])
  have hlt : s.cur.toNat < s.frames.length := by
    have hle := (h.acknowledged_position hp hack).2
    have hne : s.cur.toNat ≠ s.nframes.toNat := fun he => hcur (BitVec.eq_of_toNat_eq he)
    rw [h.frames_counted]
    omega
  have hf := List.getElem?_eq_getElem hlt
  constructor <;>
    simp [h.cause_ok, hp, h.frames_counted, h.frames_nonempty, hmtu, h.frames_few]
  · exact ⟨_, hf, (h.frame_good hf).nslices_pos hmtu⟩
  · exact h.frames_good

/-- An acknowledgement moves the position past a frame that is there (R43 e). -/
theorem acceptAck_jobInv {s : State} (h : JobInv s) (hp : s.phase = .awaitingAck) (hack : s.ackFlag = false)
    (payload : List Byte) : JobInv (acceptAck payload s) := by
  obtain ⟨f, hf, -⟩ := h.awaiting_position hp hack
  have hlt := h.frame_index_lt hf
  have hfew := h.frames_few
  constructor <;>
    simp [h.cause_ok, hp, h.frames_counted, h.frames_nonempty, h.mtu_known, h.pace_sending, h.frames_few]
  · omega
  · exact h.frames_good

/-! ## The frames of a new job -/

/-- The running sum of 43_frame_encoder.md R206. -/
theorem foldl_add_toNat (bytes : List Byte) : ∀ acc : Byte,
    (bytes.foldl (· + ·) acc).toNat = (acc.toNat + (bytes.map BitVec.toNat).sum) % 256 := by
  induction bytes with
  | nil => intro acc; simpa using (Nat.mod_eq_of_lt acc.isLt).symm
  | cons b rest ih =>
    intro acc
    rw [List.foldl_cons, ih, BitVec.toNat_add, List.map_cons, List.sum_cons]
    omega

/-- A body and its checksum sum to 0 modulo 256 (R206). -/
theorem byteSum_append_checksumOf (body : List Byte) : byteSum (body ++ [checksumOf body]) = 0 := by
  have hsum := foldl_add_toNat body 0
  have hzero : (0 : Byte).toNat = 0 := rfl
  rw [byteSum, List.map_append, List.sum_append, checksumOf, List.map_singleton, List.sum_singleton,
    BitVec.toNat_sub, hsum, hzero]
  omega

theorem byteSum_frameOf (c : Config) (jobId : Half) (fr : Nat) (payload : List Byte) :
    byteSum (frameOf c jobId fr payload) = 0 :=
  byteSum_append_checksumOf _

/-- No column group is wider than the largest (43_frame_encoder.md R202). -/
theorem groupAt_width_le {c : Config} (h : c.legal = true) {g : Nat} :
    (groupAt c (groupCount c) g).width ≤ min c.w c.chunkW := by
  obtain ⟨hone, -, hlow, hhigh⟩ := groupCount_bounds h
  have hsplit : groupCount c * c.chunkW = (groupCount c - 1) * c.chunkW + c.chunkW := by
    rw [← Nat.succ_mul, Nat.succ_eq_add_one, Nat.sub_add_cancel hone]
  simp only [groupAt]
  split
  next hg =>
    have : c.chunkW ≤ (groupCount c - 1) * c.chunkW := Nat.le_mul_of_pos_left _ (by omega)
    omega
  · omega

theorem group_width_le {c : Config} (h : c.legal = true) {g : Group} (hg : g ∈ groupsOf c) :
    g.width ≤ min c.w c.chunkW := by
  obtain ⟨k, -, rfl⟩ := List.mem_map.1 hg
  exact groupAt_width_le h

/-- Under a legal configuration the frame of a group fits the 16-bit counters (00_scope.md R9). -/
theorem groupFrame_good {s : State} (hc : s.cfg.legal = true) {g : Group} (hg : g ∈ groupsOf s.cfg)
    {f : Frame} (hf : groupFrame s g = some f) : GoodFrame f := by
  obtain ⟨payload, hpay, rfl⟩ := Option.map_eq_some_iff.1 hf
  have hlen : payload.length ≤ s.cfg.cbSize :=
    (compressedRange_le hpay).trans
      (maxCompressedSize_mono (Nat.mul_le_mul_right _ (group_width_le hc hg)))
  obtain ⟨-, -, -, -, -, -, -, -, -, -, -, -, -, -, hcb⟩ := legal_bounds hc
  exact ⟨byteSum_frameOf .., by rw [frameOf_length]; omega, by rw [frameOf_length]; omega⟩

/-- A member of a list of results is the image of a member of the list. -/
theorem mem_of_mapM_some {α β : Type} {f : α → Option β} {l : List α} {r : List β}
    (h : l.mapM f = some r) {b : β} (hb : b ∈ r) : ∃ a ∈ l, f a = some b := by
  obtain ⟨hlen, himage⟩ := mapM_option_some f l r h
  obtain ⟨k, hk, rfl⟩ := List.getElem_of_mem hb
  have ha := List.getElem?_eq_getElem (hlen ▸ hk)
  exact ⟨_, List.mem_of_getElem? ha, (himage k _ ha).1.trans (List.getElem?_eq_getElem hk)⟩

/-- What the frame list of `CT.PREP` has: one frame for each group, each good. -/
theorem preparedFrames_good {s : State} (hc : s.cfg.legal = true) {list : List Frame}
    (hl : (groupsOf s.cfg).mapM (groupFrame (transform s)) = some list) :
    1 ≤ list.length ∧ list.length ≤ 32767 ∧ ∀ f ∈ list, GoodFrame f := by
  have hlen := (mapM_option_some _ _ _ hl).1
  rw [groupsOf_length] at hlen
  obtain ⟨hone, hfew, -⟩ := groupCount_bounds hc
  refine ⟨by omega, by omega, fun f hf => ?_⟩
  obtain ⟨g, hg, hfg⟩ := mem_of_mapM_some hl hf
  exact groupFrame_good (s := transform s) (by simpa using hc) (by simpa using hg) hfg

/-- A job begins to send with the cursor on the first slice of its first frame (R43 d). -/
theorem startSending_jobInv {s : State} (h : JobInv s) (hp : s.phase = .preparing) {list : List Frame}
    (hone : 1 ≤ list.length) (hfew : list.length ≤ 32767) (hgood : ∀ f ∈ list, GoodFrame f) :
    JobInv (startSending list s) := by
  have hmtu := h.mtu_known (by simp [hp])
  have hn : list.length % 65536 = list.length := Nat.mod_eq_of_lt (by omega)
  have hf := List.getElem?_eq_getElem (show 0 < list.length by omega)
  constructor <;> simp [h.cause_ok, hp, hn, hone, hmtu, hfew]
  · exact ⟨_, hf, (hgood _ (List.mem_of_getElem? hf)).nslices_pos hmtu⟩
  · exact hgood

/-! ## Every step keeps the job invariants -/

theorem Effect.keeps_jobInv {s t : State} {i : Instr} (he : Effect s i t) (hc : s.cfg.legal = true)
    (h : JobInv s) : JobInv t := by
  cases he with
  | starts hp _ hm => exact (acceptJob_jobInv h hp hm).of_jobRegisters rfl
  | aborts hp =>
    have hidle : s.phase ≠ .idle := by rcases hp with hp | hp <;> simp [hp]
    exact (fail_jobInv h hidle (cause := .aborted) (by decide)).of_jobRegisters rfl
  | releases => exact (clearJob_jobInv s).of_jobRegisters rfl
  | failsPreparing hp _ hcause => exact (fail_jobInv h (by simp [hp]) hcause).of_jobRegisters rfl
  | prepares hp _ hl =>
    obtain ⟨hone, hfew, hgood⟩ := preparedFrames_good hc hl
    refine startSending_jobInv (s := setBlock _ _ _ (setTb _ (setPace 0 s))) (h.of_jobRegisters ?_) hp
      hone hfew hgood
    simp [State.jobRegisters, h.pace_sending, hp]
  | failsWrite bytes hp =>
    exact (fail_jobInv h (by simp [hp]) (cause := .writeFailure) (by decide)).of_jobRegisters rfl
  | endsBatch bytes hp hpace hf hs => exact (enterAwaiting_jobInv h hp hpace hf hs).of_jobRegisters rfl
  | paces bytes hp _ hf hs => exact (beginPacing_jobInv h hp hf hs).of_jobRegisters rfl
  | completes hp _ hcur => exact finishJob_jobInv h hp hcur
  | startsBatch hp hack hcur => exact nextBatch_jobInv h hp hack hcur
  | timesOut hp => exact fail_jobInv h (by simp [hp]) (by decide)
  | acknowledges payload hp hack => exact acceptAck_jobInv h hp hack payload
  | ticks => exact tick_jobInv h
  | resets => exact resetCore_jobInv s
  | _ => exact h.of_jobRegisters rfl

/-- Settles O46: fetching leaves the registers of the job, and every effect keeps its invariants. -/
theorem stepKeepsJobInvariants : Obligations.StepKeepsJobInvariants :=
  fun _ _ => step_keeps (fun _ _ _ _ h => h.of_jobRegisters rfl) (fun _ _ _ hc h he => he.keeps_jobInv hc h)
    (fun _ h => h.of_jobRegisters rfl) (fun _ h => h.of_jobRegisters rfl)

/-- Settles O45: right after reset no job is in hand and no memory lists a cell. -/
theorem resetMeetsInvariants : Obligations.ResetMeetsInvariants :=
  ⟨.of_empty rfl rfl rfl rfl rfl rfl rfl rfl, ⟨rfl, rfl, rfl, rfl⟩, by decide⟩

/-! ## No fault under the job invariants -/

/-- In Sending the frame and the slice at the position are there (R43 d), so `CT.WRITE` has what it reads. -/
theorem execCtWrite_next {s : State} (h : JobInv s) : ∃ t, execCtWrite s = .next t := by
  by_cases hw : s.phase = .sending ∧ s.paceTimer = 0
  · obtain ⟨f, hf, hs⟩ := h.sending_position hw.1
    have hmtu := h.mtu_known (by simp [hw.1])
    simp [execCtWrite, hw, hf, slice?, hmtu, hs]
  · exact ⟨s, if_neg hw⟩

/-- Settles O48: `CT.WRITE` is the one operation besides `BC.COMPRESS` that can stop. -/
theorem invariantsExcludeFaults : Obligations.InvariantsExcludeFaults := by
  intro s i h hi
  cases i with
  | bcCompress off n => exact absurd rfl (hi off n)
  | ctWrite => exact execCtWrite_next h
  | _ => exact ⟨_, rfl⟩

end Sys2Proof.Machine

/-! The statements of 20_memory.md: the oldest waiting command goes first, and a built job's frames stay as they
are. -/

namespace Sys2Proof.Machine

/-! ## Commands that wait -/

/-- With the port free the oldest waiting word is taken and the younger ones stay in their order (R69, R333). -/
theorem takeHeld_oldest {w : CmdWord} {queue : List CmdWord} {s : State} (hp : s.phase ≠ .preparing) :
    takeHeld (w :: queue) s = .packet (.cmd w) (setHeld queue s) := by
  simp [takeHeld, State.cmdBusy, hp]

/-- With the port free a new CMD word goes behind the waiting ones, and the oldest of them is taken. -/
theorem offered_cmd_behind {w w' : CmdWord} {queue : List CmdWord} {s : State} (hp : s.phase ≠ .preparing)
    (hq : s.cmdHeld = w :: queue) :
    offered (.cmd w') s = .packet (.cmd w) (setHeld (queue ++ [w']) s) := by
  have htake : offered (.cmd w') s = takeHeld (s.cmdHeld ++ [w']) s := by simp [offered, State.cmdBusy, hp]
  rw [htake, hq, List.cons_append, takeHeld_oldest hp]

theorem fetch_waiting {s : State} {e : Env} {rest : List Turn} {held : List CmdWord}
    (h : s.schedule = ⟨e, .waiting⟩ :: rest) (hq : s.cmdHeld = held) :
    fetch s = takeHeld held { s with schedule := rest, env := e } := by
  simp [fetch, h, beginTurn, hq]

/-- Settles O9: under either kind of turn the oldest waiting word is what the step fetches. -/
theorem waitingCommandsAreTaken : Obligations.WaitingCommandsAreTaken := by
  intro s e rest w queue hc hp hq
  constructor
  · intro hs
    exact step_of_packet hc ((fetch_waiting hs hq).trans (takeHeld_oldest hp))
  · intro w' hs
    exact step_of_packet hc ((fetch_packet hs).trans (offered_cmd_behind hp hq))

/-! ## Frames are immutable -/

/-- Outside Preparing only the end of the job's hold on its frames writes them, and it leads to Idle
(20_memory.md R72, 43_frame_encoder.md R207). -/
theorem Effect.frames_eq_or_idle {s t : State} {i : Instr} (he : Effect s i t) (hp : s.phase ≠ .preparing) :
    t.frames = s.frames ∨ t.phase = .idle := by
  cases he with
  | prepares hprep => exact absurd hprep hp
  | releases => exact .inr rfl
  | resets => exact .inr rfl
  | _ => exact .inl rfl

theorem rejected_frames {p : Packet} {s t : State} (h : rejected p s = .next t) : t.frames = s.frames := by
  rcases rejected_cases h with ⟨w, -, -, rfl⟩ | ⟨w, -, -, rfl⟩ | ⟨w, -, rfl⟩ <;> rfl

/-- Settles O58: fetching and a rejected packet leave `FRAMES`, and an operation does what
`Effect.frames_eq_or_idle` says. -/
theorem framesAreImmutable : Obligations.FramesAreImmutable := by
  intro s t h hp
  obtain ⟨-, hidle | ⟨p, s', hf, hrun⟩⟩ := step_cases h
  · left
    rw [fetch_keeps.1 t hidle]
  · have hs' := fetch_keeps.2 p s' hf
    have hframes : s'.frames = s.frames := by rw [hs']
    have hphase : s'.phase = s.phase := by rw [hs']
    rw [← hframes]
    rcases hrun with ⟨i, -, hi⟩ | ⟨-, hr⟩
    · exact (exec_effect hi).frames_eq_or_idle (hphase ▸ hp)
    · exact .inl (rejected_frames hr)

end Sys2Proof.Machine

/-! The statements of 30_encoding.md: the decoder and the encoder are inverse to each other, the printed opcode
map says which words name which operation, what an illegal word does, and what goes out on the TX port. -/

namespace Sys2Proof

/-! ## Decoding what the encoder writes -/

theorem decode_cmd_cmdWordOf (f : CmdFields) : decode (.cmd (cmdWordOf f)) = decodeCmdFields f :=
  congrArg decodeCmdFields (cmdFields_cmdWordOf f)

theorem decode_stat_cmdWordOf (f : CmdFields) : decode (.stat (cmdWordOf f)) = decodeStatFields f :=
  congrArg decodeStatFields (cmdFields_cmdWordOf f)

theorem decode_encode_bcCompress (off n : Half) :
    decode (encode (.bcCompress off n)) = .ok (.bcCompress off n) := by
  have hrow (args : BitVec 32) :
      decodeCore labelBcCompress args [] = .ok (.bcCompress (argLo args) (argHi args)) := rfl
  rw [encode, decode, hrow, argLo_append, argHi_append]

theorem decode_encode_feBuild (fr : Half) : decode (encode (.feBuild fr)) = .ok (.feBuild fr) := by
  have hrow (args : BitVec 32) : decodeCore labelFeBuild args [] =
      if argHi args = 0 ∧ ([] : List Byte) = [] then .ok (.feBuild (argLo args))
      else .error .unassignedLabel := rfl
  rw [encode, decode, hrow, argLo_append, if_pos ⟨argHi_append 0 fr, rfl⟩]

theorem decode_encode_feSplit (frame : List Byte) (mtu k : Half) :
    decode (encode (.feSplit frame mtu k)) = .ok (.feSplit frame mtu k) := by
  have hrow (args : BitVec 32) :
      decodeCore labelFeSplit args frame = .ok (.feSplit frame (argLo args) (argHi args)) := rfl
  rw [encode, decode, hrow, argLo_append, argHi_append]

/-- The words go through their fields; of the labelled operations only those with operands beside the label
need more than the table of labels. -/
theorem decode_encode (i : Instr) : decode (encode i) = .ok i.canonical := by
  cases i with
  | pbSet | pbClrpx | pbGet | pbFill | pbClear | tcStart | tcAbort | tcRelease =>
    exact decode_cmd_cmdWordOf _
  | stIsconn | stIsprint | stRd => exact decode_stat_cmdWordOf _
  | bcCompress off n => exact decode_encode_bcCompress off n
  | feBuild fr => exact decode_encode_feBuild fr
  | feSplit frame mtu k => exact decode_encode_feSplit frame mtu k
  | _ => rfl

/-- Only the two pseudo-instructions have another operation's words (R108). -/
theorem Instr.canonical_eq_self {i : Instr} (hx : ∀ x y, i ≠ .pbClrpx x y) (hc : i ≠ .pbClear) :
    i.canonical = i := by
  cases i with
  | pbClrpx x y => exact absurd rfl (hx x y)
  | pbClear => exact absurd rfl hc
  | _ => rfl

/-- Settles O1: the round trip `decode_encode`, and which operations are their own canonical form. -/
theorem decodeEncodeRoundTrip : Obligations.DecodeEncodeRoundTrip :=
  ⟨decode_encode,
    fun i _ hx hc => (decode_encode i).trans (congrArg _ (Instr.canonical_eq_self hx hc)),
    fun _ _ => rfl, rfl⟩

/-! ## Encoding what the decoder reads -/

/-- Whatever operation an answer of the decoder names, `p` is the packet that the encoder writes for it. -/
def WritesBack (p : Packet) (r : Except DecodeReject Instr) : Prop := ∀ i, r = .ok i → encode i = p

theorem WritesBack.ok {p : Packet} {i : Instr} (h : encode i = p) : WritesBack p (.ok i) := by
  intro j hj
  cases hj
  exact h

theorem WritesBack.error {p : Packet} {e : DecodeReject} : WritesBack p (.error e) := by
  intro j hj
  cases hj

theorem WritesBack.ite {p : Packet} {c : Prop} [Decidable c] {r r' : Except DecodeReject Instr}
    (h : c → WritesBack p r) (h' : WritesBack p r') : WritesBack p (if c then r else r') := by
  split
  next hc => exact h hc
  · exact h'

/-- An operation under a condition on its unused bits or operands (`acceptIf`, `acceptBare`). -/
theorem WritesBack.okIf {p : Packet} {c : Prop} [Decidable c] {i : Instr} {e : DecodeReject}
    (h : c → encode i = p) : WritesBack p (if c then .ok i else .error e) :=
  .ite (fun hc => .ok (h hc)) .error

theorem CmdFields.reservedZero_iff (f : CmdFields) :
    f.reservedZero = true ↔ f.reservedHi = 0 ∧ f.reservedLo = 0 := by
  simp [CmdFields.reservedZero]

/-- A row of R103: an opcode and a condition on the unused bits. -/
theorem WritesBack.wordRow {p : Packet} {f : CmdFields} {opc : Byte} {unusedZero : Bool} {i : Instr}
    {r : Except DecodeReject Instr} (h : f.opc = opc → unusedZero = true → encode i = p)
    (h' : WritesBack p r) : WritesBack p (if f.opc = opc then acceptIf unusedZero i else r) :=
  .ite (fun ho => .okIf (h ho)) h'

/-- Row by row of R103: the opcode and the zeros that a row checks are the fields its operation's word has
besides the operands. -/
theorem decodeCmdFields_writesBack (f : CmdFields) : WritesBack (.cmd (cmdWordOf f)) (decodeCmdFields f) := by
  obtain ⟨opc, hi, v, lo, a, x, y⟩ := f
  refine .wordRow ?pbSet <| .wordRow ?pbGet <| .wordRow ?pbFill <| .wordRow ?tcStart <|
    .wordRow ?tcAbort <| .wordRow ?tcRelease <| .ite (fun _ => .error) .error
  all_goals
    intro hopc hzero
    simp only [Bool.and_eq_true, CmdFields.reservedZero_iff, beq_iff_eq, Bool.not_eq_true'] at hopc hzero
    simp [encode, pbSetWord, pbGetWord, pbFillWord, bareWord, hopc, hzero]

theorem decodeStatFields_writesBack (f : CmdFields) :
    WritesBack (.stat (cmdWordOf f)) (decodeStatFields f) := by
  obtain ⟨opc, hi, v, lo, a, x, y⟩ := f
  refine .wordRow ?stIsconn <| .wordRow ?stIsprint <| .wordRow ?stRd <| .ite (fun _ => .error) .error
  all_goals
    intro hopc hzero
    simp only [Bool.and_eq_true, CmdFields.reservedZero_iff, beq_iff_eq, Bool.not_eq_true'] at hopc hzero
    simp [encode, stRdWord, bareWord, hopc, hzero]

/-- A row of R105 whose operation takes no operand. -/
theorem WritesBack.bareRow {label l : Byte} {args : BitVec 32} {data : List Byte} {i : Instr}
    {r : Except DecodeReject Instr} (h : encode i = bareLabel l)
    (h' : WritesBack (.core label args data) r) :
    WritesBack (.core label args data) (if label = l then acceptBare args data i else r) :=
  .ite (fun hl => .okIf fun ⟨ha, hd⟩ => by rw [h, hl, ha, hd, bareLabel]) h'

/-- Row by row of R105; in the rows with operands the two operand words join to `args` again. -/
theorem decodeCore_writesBack (label : Byte) (args : BitVec 32) (data : List Byte) :
    WritesBack (.core label args data) (decodeCore label args data) := by
  have hargs := argHi_append_argLo args
  refine .bareRow rfl <| .bareRow rfl <| .bareRow rfl <| .bareRow rfl <|
    .ite (fun hl => .okIf fun hd => ?bcCompress) <| .bareRow rfl <|
    .ite (fun hl => .okIf fun hd => ?feBuild) <| .ite (fun hl => .okIf fun ha => ?feCsum) <|
    .ite (fun hl => .ok ?feSplit) <| .bareRow rfl <| .bareRow rfl <| .bareRow rfl <| .bareRow rfl <|
    .ite (fun hl => .okIf fun ha => ?evNotify) <| .bareRow rfl <| .bareRow rfl .error
  case bcCompress => rw [encode, hargs, hl, hd]
  case feBuild => rw [encode, ← hd.1, hargs, hl, hd.2]
  case feCsum => rw [encode, hl, ha]
  case feSplit => rw [encode, hargs, hl]
  case evNotify => rw [encode, hl, ha]

/-- No bit of a packet is ignored: the operation that a packet names is encoded to that packet. -/
theorem encode_of_decode {p : Packet} {i : Instr} (h : decode p = .ok i) : encode i = p := by
  cases p with
  | cmd w =>
    rw [decodeCmdFields_writesBack (cmdFields w) i h, cmdWordOf_cmdFields]
  | stat w =>
    rw [decodeStatFields_writesBack (cmdFields w) i h, cmdWordOf_cmdFields]
  | core label args data => exact decodeCore_writesBack label args data i h

/-- Settles O2, port by port. -/
theorem encodeOfDecodedPacket : Obligations.EncodeOfDecodedPacket := fun _ _ => encode_of_decode

/-- The decoder and the encoder are inverse to each other on the operations with words of their own. -/
theorem decode_eq_ok_iff {p : Packet} {i : Instr} : decode p = .ok i ↔ i.canonical = i ∧ encode i = p := by
  constructor
  · intro h
    have hp := encode_of_decode h
    rw [← hp, decode_encode, Except.ok.injEq] at h
    exact ⟨h, hp⟩
  · rintro ⟨hc, rfl⟩
    rw [decode_encode, hc]

/-- Settles O5: each word and label is cut up and looked up in the table. -/
theorem specWordsDecode : Obligations.SpecWordsDecode := by
  unfold Obligations.SpecWordsDecode
  decide

end Sys2Proof

namespace Sys2Proof.Machine

/-! ## The opcode map, field by field -/

theorem cmdWordOf_eq_iff {f : CmdFields} {w : CmdWord} : cmdWordOf f = w ↔ cmdFields w = f := by
  constructor
  · rintro rfl
    exact cmdFields_cmdWordOf f
  · rintro rfl
    exact cmdWordOf_cmdFields w

theorem cmdFields_injective : Function.Injective cmdFields :=
  Function.LeftInverse.injective cmdWordOf_cmdFields

/-- The fields of a word under a mask with fields `m`. -/
def maskFields (f m : CmdFields) : CmdFields where
  opc := f.opc &&& m.opc
  reservedHi := f.reservedHi &&& m.reservedHi
  v := f.v && m.v
  reservedLo := f.reservedLo &&& m.reservedLo
  a := f.a &&& m.a
  x := f.x &&& m.x
  y := f.y &&& m.y

theorem cmdFields_and (w m : CmdWord) : cmdFields (w &&& m) = maskFields (cmdFields w) (cmdFields m) := by
  simp [cmdFields, maskFields, BitVec.extractLsb'_and]

/-- A word selects a row when its fields under the row's mask are those of the row's match. -/
theorem selects_iff_fields {w : CmdWord} {r : CmdWord × CmdWord} :
    selects w r ↔ maskFields (cmdFields w) (cmdFields r.2) = cmdFields r.1 := by
  rw [← cmdFields_and, cmdFields_injective.eq_iff, selects]

/-- What a row of R103 asks of the fields: its opcode, zeros in the reserved bits, and zeros where its mask has
ones. -/
theorem selects_row_iff {w : CmdWord} {r : CmdWord × CmdWord} {opc : Byte} {mv : Bool} {ma : Byte}
    {mx my : Half} (hmatch : r.1 = bareWord opc)
    (hmask : r.2 = cmdWordOf ⟨.allOnes 8, .allOnes 7, mv, .allOnes 8, ma, mx, my⟩) :
    selects w r ↔ (cmdFields w).opc = opc ∧ (cmdFields w).reservedHi = 0 ∧
      ((cmdFields w).v && mv) = false ∧ (cmdFields w).reservedLo = 0 ∧ (cmdFields w).a &&& ma = 0 ∧
      (cmdFields w).x &&& mx = 0 ∧ (cmdFields w).y &&& my = 0 := by
  rw [selects_iff_fields, hmatch, hmask, bareWord, cmdFields_cmdWordOf, cmdFields_cmdWordOf]
  simp only [maskFields, CmdFields.mk.injEq, BitVec.and_allOnes]

/-- A word is joined from given fields when each of its fields is the given one. -/
theorem cmdWordOf_eq_iff_fields {w : CmdWord} {opc a : Byte} {hi : BitVec 7} {v : Bool} {lo : Byte}
    {x y : Half} : cmdWordOf ⟨opc, hi, v, lo, a, x, y⟩ = w ↔
      (cmdFields w).opc = opc ∧ (cmdFields w).reservedHi = hi ∧ (cmdFields w).v = v ∧
        (cmdFields w).reservedLo = lo ∧ (cmdFields w).a = a ∧ (cmdFields w).x = x ∧
        (cmdFields w).y = y := by
  rw [cmdWordOf_eq_iff]
  cases cmdFields w
  simp only [CmdFields.mk.injEq]

/-- The row of `PB.SET` leaves `V`, `X` and `Y` free. -/
theorem selects_pbSet_iff {w : CmdWord} :
    selects w (0x1000000000000000, 0xFFFEFFFF00000000) ↔ ∃ x y v, pbSetWord x y v = w := by
  rw [selects_row_iff (opc := opcPbSet) (mv := false) (ma := .allOnes 8) (mx := 0) (my := 0) (by decide)
    (by decide)]
  simp [pbSetWord, cmdWordOf_eq_iff_fields, -BitVec.reduceAllOnes]

/-- The row of `PB.GET` leaves `X` and `Y` free. -/
theorem selects_pbGet_iff {w : CmdWord} :
    selects w (0x1100000000000000, 0xFFFFFFFF00000000) ↔ ∃ x y, pbGetWord x y = w := by
  rw [selects_row_iff (opc := opcPbGet) (mv := true) (ma := .allOnes 8) (mx := 0) (my := 0) (by decide)
    (by decide)]
  simp [pbGetWord, cmdWordOf_eq_iff_fields, -BitVec.reduceAllOnes]

/-- The row of `PB.FILL` leaves `V` free. -/
theorem selects_pbFill_iff {w : CmdWord} :
    selects w (0x1200000000000000, 0xFFFEFFFFFFFFFFFF) ↔ ∃ v, pbFillWord v = w := by
  rw [selects_row_iff (opc := opcPbFill) (mv := false) (ma := .allOnes 8) (mx := .allOnes 16)
    (my := .allOnes 16) (by decide) (by decide)]
  simp [pbFillWord, cmdWordOf_eq_iff_fields, -BitVec.reduceAllOnes]

/-- The row of `ST.RD` leaves `A` free. -/
theorem selects_stRd_iff {w : CmdWord} :
    selects w (0x3200000000000000, 0xFFFFFF00FFFFFFFF) ↔ ∃ a, stRdWord a = w := by
  rw [selects_row_iff (opc := opcStRd) (mv := true) (ma := 0) (mx := .allOnes 16) (my := .allOnes 16)
    (by decide) (by decide)]
  simp [stRdWord, cmdWordOf_eq_iff_fields, -BitVec.reduceAllOnes]

/-- The row of a command without operands leaves nothing free. -/
theorem selects_bare_iff {w m : CmdWord} {opc : Byte} (hm : bareWord opc = m) :
    selects w (m, 0xFFFFFFFFFFFFFFFF) ↔ bareWord opc = w := by
  have hones : w &&& 0xFFFFFFFFFFFFFFFF = w := BitVec.and_allOnes
  rw [selects, hones, hm, eq_comm]

/-- An operation of a port with a word of its own is what the decoder reads from exactly that word. -/
theorem decode_cmd_iff {w w' : CmdWord} {i : Instr} (hi : encode i = .cmd w') (hc : i.canonical = i) :
    decode (.cmd w) = .ok i ↔ w' = w := by
  rw [decode_eq_ok_iff, hi, Packet.cmd.injEq, and_iff_right hc]

theorem decode_stat_iff {w w' : CmdWord} {i : Instr} (hi : encode i = .stat w') (hc : i.canonical = i) :
    decode (.stat w) = .ok i ↔ w' = w := by
  rw [decode_eq_ok_iff, hi, Packet.stat.injEq, and_iff_right hc]

/-- Two rows whose matches differ under both masks share no word. -/
theorem not_selects_both {r r' : CmdWord × CmdWord} (h : r.1 &&& r'.2 ≠ r'.1 &&& r.2) (w : CmdWord) :
    ¬(selects w r ∧ selects w r') := by
  rintro ⟨hr, hr'⟩
  rw [selects] at hr hr'
  apply h
  rw [← hr, ← hr', BitVec.and_assoc, BitVec.and_assoc, BitVec.and_comm r.2]

/-- Settles O3: a row's words are those its operations encode to, and the decoder reads an operation from its
own word alone. -/
theorem opcodeMapSelectsRows : Obligations.OpcodeMapSelectsRows := by
  refine ⟨fun w => ⟨?pbSet, ?pbGet, ?pbFill, ?tcStart, ?tcAbort, ?tcRelease, ?stIsconn, ?stIsprint,
    ?stRd⟩, ?disjoint⟩
  case pbSet => simp only [selects_pbSet_iff, decode_cmd_iff (i := .pbSet _ _ _) rfl rfl]
  case pbGet => simp only [selects_pbGet_iff, decode_cmd_iff (i := .pbGet _ _) rfl rfl]
  case pbFill => simp only [selects_pbFill_iff, decode_cmd_iff (i := .pbFill _) rfl rfl]
  case tcStart => exact (decode_cmd_iff rfl rfl).trans (selects_bare_iff (by decide)).symm
  case tcAbort => exact (decode_cmd_iff rfl rfl).trans (selects_bare_iff (by decide)).symm
  case tcRelease => exact (decode_cmd_iff rfl rfl).trans (selects_bare_iff (by decide)).symm
  case stIsconn => exact (decode_stat_iff rfl rfl).trans (selects_bare_iff (by decide)).symm
  case stIsprint => exact (decode_stat_iff rfl rfl).trans (selects_bare_iff (by decide)).symm
  case stRd => simp only [selects_stRd_iff, decode_stat_iff (i := .stRd _) rfl rfl]
  case disjoint =>
    have hdiffer : (cmdRows ++ statRows).Pairwise fun r r' => r.1 &&& r'.2 ≠ r'.1 &&& r.2 := by decide
    exact hdiffer.imp not_selects_both

/-! ## Illegal words -/

theorem exists_selected {rows : List (CmdWord × CmdWord)} {r : CmdWord × CmdWord} {w : CmdWord} (k : Nat)
    (hr : rows[k]? = some r) (h : selects w r) : ∃ r ∈ rows, selects w r :=
  ⟨r, List.mem_of_getElem? hr, h⟩

/-- The word of every operation of the CMD port, the pseudo-instructions' included, selects a CMD row. -/
theorem encode_cmd_selects {i : Instr} {w : CmdWord} (h : encode i = .cmd w) :
    ∃ r ∈ cmdRows, selects w r := by
  cases i with
  | pbSet x y v => exact exists_selected 0 rfl (selects_pbSet_iff.2 ⟨x, y, v, Packet.cmd.inj h⟩)
  | pbClrpx x y => exact exists_selected 0 rfl (selects_pbSet_iff.2 ⟨x, y, false, Packet.cmd.inj h⟩)
  | pbGet x y => exact exists_selected 1 rfl (selects_pbGet_iff.2 ⟨x, y, Packet.cmd.inj h⟩)
  | pbFill v => exact exists_selected 2 rfl (selects_pbFill_iff.2 ⟨v, Packet.cmd.inj h⟩)
  | pbClear => exact exists_selected 2 rfl (selects_pbFill_iff.2 ⟨false, Packet.cmd.inj h⟩)
  | tcStart => exact exists_selected 3 rfl ((selects_bare_iff (by decide)).2 (Packet.cmd.inj h))
  | tcAbort => exact exists_selected 4 rfl ((selects_bare_iff (by decide)).2 (Packet.cmd.inj h))
  | tcRelease => exact exists_selected 5 rfl ((selects_bare_iff (by decide)).2 (Packet.cmd.inj h))
  | _ => cases h

/-- The word of every operation of the STAT port selects a STAT row. -/
theorem encode_stat_selects {i : Instr} {w : CmdWord} (h : encode i = .stat w) :
    ∃ r ∈ statRows, selects w r := by
  cases i with
  | stIsconn => exact exists_selected 0 rfl ((selects_bare_iff (by decide)).2 (Packet.stat.inj h))
  | stIsprint => exact exists_selected 1 rfl ((selects_bare_iff (by decide)).2 (Packet.stat.inj h))
  | stRd a => exact exists_selected 2 rfl (selects_stRd_iff.2 ⟨a, Packet.stat.inj h⟩)
  | _ => cases h

/-- A packet that no operation is encoded to is rejected. -/
theorem runPacket_eq_rejected {p : Packet} (h : ∀ i, encode i ≠ p) (s : State) :
    runPacket p s = rejected p s := by
  cases hd : decode p with
  | ok i => exact absurd (encode_of_decode hd) (h i)
  | error e => simp [runPacket, hd]

theorem runPacket_illegal_cmd {w : CmdWord} (h : ∀ r ∈ cmdRows, ¬selects w r) (s : State) :
    runPacket (.cmd w) s = rejected (.cmd w) s := by
  refine runPacket_eq_rejected (fun i hi => ?_) s
  obtain ⟨r, hr, hw⟩ := encode_cmd_selects hi
  exact h r hr hw

theorem runPacket_illegal_stat {w : CmdWord} (h : ∀ r ∈ statRows, ¬selects w r) (s : State) :
    runPacket (.stat w) s = rejected (.stat w) s := by
  refine runPacket_eq_rejected (fun i hi => ?_) s
  obtain ⟨r, hr, hw⟩ := encode_stat_selects hi
  exact h r hr hw

theorem cmdFields_opc_toNat (w : CmdWord) : (cmdFields w).opc.toNat = w.toNat / 2 ^ 56 := by
  have hw := w.isLt
  rw [cmdFields, BitVec.extractLsb'_toNat, Nat.shiftRight_eq_div_pow]
  omega

/-- A row whose mask covers the opcode field is selected with its own opcode only. -/
theorem opc_of_selects {w : CmdWord} {r : CmdWord × CmdWord} (hmask : (cmdFields r.2).opc = .allOnes 8)
    (h : selects w r) : (cmdFields w).opc = (cmdFields r.1).opc := by
  have hopc := congrArg CmdFields.opc (selects_iff_fields.1 h)
  rwa [maskFields, hmask, BitVec.and_allOnes] at hopc

/-- Every row's mask covers the opcode field, and every row's opcode is one of the nine. -/
theorem rows_opc {r : CmdWord × CmdWord} (hr : r ∈ cmdRows ++ statRows) :
    (cmdFields r.2).opc = .allOnes 8 ∧
      (isCmdOpcode (cmdFields r.1).opc || isStatOpcode (cmdFields r.1).opc) = true := by
  have hall : ((cmdRows ++ statRows).all fun r => (cmdFields r.2).opc == .allOnes 8 &&
      (isCmdOpcode (cmdFields r.1).opc || isStatOpcode (cmdFields r.1).opc)) = true := by decide
  simpa only [Bool.and_eq_true, beq_iff_eq] using List.all_eq_true.1 hall r hr

/-- No reserved opcode (R104) is assigned to a command. -/
theorem not_reservedOpcode {opc : Byte} (h : (isCmdOpcode opc || isStatOpcode opc) = true) :
    ¬reservedOpcode opc.toNat := by
  simp only [isCmdOpcode, isStatOpcode, Bool.or_eq_true, beq_iff_eq] at h
  unfold reservedOpcode
  rcases h with ((((((rfl | rfl) | rfl) | rfl) | rfl) | rfl) | (rfl | rfl) | rfl) <;> decide

/-- Settles O4: an illegal word is rejected, which answers it or lets it wait; a reserved opcode is no row's. -/
theorem illegalWordsAnswered : Obligations.IllegalWordsAnswered := by
  intro w s
  refine ⟨fun hw hp => ?free, fun hw hp => ?busy, fun hw => ?stat, fun hopc r hr hw => ?reserved⟩
  case free => rw [runPacket_illegal_cmd hw, rejected, onCmdPort_free hp, respond]
  case busy => exact ⟨hold (.cmd w) s, by rw [runPacket_illegal_cmd hw, rejected, onCmdPort_busy hp], rfl⟩
  case stat => rw [runPacket_illegal_stat hw, rejected, answerStat]
  case reserved =>
    obtain ⟨hmask, hrow⟩ := rows_opc hr
    rw [← cmdFields_opc_toNat, opc_of_selects hmask hw] at hopc
    exact not_reservedOpcode hrow hopc

/-! ## The TX port -/

theorem slice?_eq_some_iff {f : Frame} {mtu k : Nat} {bytes : List Byte} :
    slice? f mtu k = some bytes ↔ (1 ≤ mtu ∧ k < nslices f mtu) ∧ sliceOf f mtu k = bytes := by
  rw [slice?, Option.ite_none_right_eq_some, Option.some.injEq]

/-- A slice that is there has at least one byte and at most `mtu` (43_frame_encoder.md R208). -/
theorem slice?_length {f : Frame} {mtu k : Nat} {bytes : List Byte} (h : slice? f mtu k = some bytes) :
    1 ≤ bytes.length ∧ bytes.length ≤ mtu := by
  obtain ⟨⟨hm, hk⟩, rfl⟩ := slice?_eq_some_iff.1 h
  have hstart := (lt_nslices_iff f hm).1 hk
  rw [sliceOf, List.length_take, List.length_drop]
  omega

@[simp] theorem writeSlice_tx (bytes : List Byte) (count : Nat) (s : State) :
    (writeSlice bytes count s).tx = s.tx ++ [⟨bytes, s.env.txOk⟩] := by
  rcases writeSlice_cases bytes count s with ⟨-, h⟩ | ⟨-, -, h⟩ | ⟨-, -, h⟩ <;> simp [h]

/-- Nothing but `CT.WRITE` presents bytes to the transport (30_encoding.md R93). -/
theorem Effect.tx_eq {s t : State} {i : Instr} (he : Effect s i t) (hi : i ≠ .ctWrite) : t.tx = s.tx := by
  cases he with
  | failsWrite | endsBatch | paces => exact absurd rfl hi
  | _ => rfl

/-- Settles O53: the operation is `CT.WRITE` (`Effect.tx_eq`), and what it presents is the slice at the
position. -/
theorem onlyWritePresentsSlices : Obligations.OnlyWritePresentsSlices := by
  intro s t i h hne
  obtain rfl : i = .ctWrite := by
    by_contra hi
    exact hne ((exec_effect h).tx_eq hi)
  rcases execCtWrite_cases h with ⟨-, rfl⟩ | ⟨hp, hpace, f, bytes, hf, hs, rfl⟩
  · exact absurd rfl hne
  · have hbytes := (slice?_eq_some_iff.1 hs).2.symm
    exact ⟨rfl, hp, hpace, f, hf, ⟨bytes, s.env.txOk⟩, writeSlice_tx .., rfl, hbytes, slice?_length hs⟩

end Sys2Proof.Machine

/-! The statements of 40_pixelbuffer.md: a pixel stands in one bit of one byte and no other pixel stands there,
`setPixel` writes that bit alone, and the host's commands do so to `PB`. -/

namespace Sys2Proof.Machine

/-! ## The place of a pixel -/

/-- The bit of its byte a pixel stands in: R131 counts the pixels of a byte from bit 7 down. -/
def pixelBit (c : Config) (x y : Nat) : Nat := 7 - pixelIndex c x y % 8

theorem pixelBit_lt (c : Config) (x y : Nat) : pixelBit c x y < 8 := by
  unfold pixelBit
  omega

theorem pixelMask_eq_twoPow (c : Config) (x y : Nat) : pixelMask c x y = .twoPow 8 (pixelBit c x y) := by
  have hk : pixelIndex c x y % 8 < 8 := Nat.mod_lt _ (by decide)
  rw [pixelMask, pixelBit]
  generalize pixelIndex c x y % 8 = k at hk
  decide +revert

theorem getLsbD_pixelMask (c : Config) (x y i : Nat) :
    (pixelMask c x y).getLsbD i = decide (i = pixelBit c x y) := by
  simp [pixelMask_eq_twoPow, BitVec.getLsbD_twoPow, pixelBit_lt, eq_comm]

/-- The mask that clears a pixel has every other bit of the byte. -/
theorem getLsbD_pixelMask_clear (c : Config) (x y i : Nat) :
    (0xFF ^^^ pixelMask c x y).getLsbD i = (decide (i < 8) && !decide (i = pixelBit c x y)) := by
  have hones : (0xFF : Byte) = .allOnes 8 := rfl
  rw [hones, BitVec.allOnes_xor, BitVec.getLsbD_not, getLsbD_pixelMask]

theorem pixelBit_eq_of_pixelMask_eq {c : Config} {x y x' y' : Nat}
    (h : pixelMask c x' y' = pixelMask c x y) : pixelBit c x' y' = pixelBit c x y := by
  have hbit := getLsbD_pixelMask c x' y' (pixelBit c x' y')
  rw [h, getLsbD_pixelMask] at hbit
  simpa using hbit

/-- The place of a pixel in `PB`: its byte, and its bit there. -/
def pixelPlace (c : Config) (x y : Nat) : Nat × Nat := (pixelByte c x y, pixelBit c x y)

/-- Byte and bit give the linear index back. -/
theorem pixelIndex_eq_of_pixelPlace_eq {c : Config} {x y x' y' : Nat}
    (h : pixelPlace c x' y' = pixelPlace c x y) : pixelIndex c x' y' = pixelIndex c x y := by
  obtain ⟨hbyte, hbit⟩ := Prod.mk.inj h
  unfold pixelByte at hbyte
  unfold pixelBit at hbit
  omega

/-- On columns inside the image the linear index is injective: `x` is its remainder by `W`, and `y` its
quotient (R131, R137). -/
theorem pixelIndex_injective {c : Config} {x y x' y' : Nat} (hx : x < c.w) (hx' : x' < c.w)
    (h : pixelIndex c x' y' = pixelIndex c x y) : x' = x ∧ y' = y := by
  unfold pixelIndex at h
  have hcol : x' = x := by
    have hmod := congrArg (· % c.w) h
    simpa [Nat.mul_add_mod_self_right, Nat.mod_eq_of_lt, hx, hx'] using hmod
  have hrow : y' * c.w = y * c.w := by omega
  exact ⟨hcol, Nat.eq_of_mul_eq_mul_right (by omega) hrow⟩

/-! ## Coordinates in range -/

theorem State.pixelExists_iff {s : State} {x y : Half} :
    s.pixelExists x y ↔ 0 ≤ coord x ∧ coord x < s.cfg.w ∧ 0 ≤ coord y ∧ coord y < s.cfg.h := by
  simp [State.pixelExists, inRange, and_assoc]

theorem State.pixelExists.toNat_lt {s : State} {x y : Half} (h : s.pixelExists x y) :
    (coord x).toNat < s.cfg.w ∧ (coord y).toNat < s.cfg.h := by
  obtain ⟨hx, hxw, hy, hyh⟩ := State.pixelExists_iff.1 h
  omega

/-- A coordinate that is not negative is known by its value. -/
theorem coord_toNat_inj {x x' : Half} (hx : 0 ≤ coord x) (hx' : 0 ≤ coord x')
    (h : (coord x').toNat = (coord x).toNat) : x' = x := by
  apply BitVec.eq_of_toInt_eq
  change coord x' = coord x
  omega

/-- Different pixels stand in different places (R137). -/
theorem State.pixelExists.place_ne {s : State} {x y x' y' : Half} (h : s.pixelExists x y)
    (h' : s.pixelExists x' y') (hne : (x', y') ≠ (x, y)) :
    pixelPlace s.cfg (coord x').toNat (coord y').toNat ≠
      pixelPlace s.cfg (coord x).toNat (coord y).toNat := by
  intro hplace
  obtain ⟨hx, -, hy, -⟩ := State.pixelExists_iff.1 h
  obtain ⟨hx', -, hy', -⟩ := State.pixelExists_iff.1 h'
  obtain ⟨hcol, hrow⟩ := pixelIndex_injective h.toNat_lt.1 h'.toNat_lt.1
    (pixelIndex_eq_of_pixelPlace_eq hplace)
  exact hne (Prod.ext (coord_toNat_inj hx hx' hcol) (coord_toNat_inj hy hy' hrow))

/-! ## Reading and writing one pixel -/

theorem pixel_eq_getLsbD (c : Config) (pb : Memory) (x y : Nat) :
    pixel c pb x y = (pb.read .pb (pixelByte c x y)).getLsbD (pixelBit c x y) := by
  have hone : BitVec.twoPow 8 (pixelBit c x y) ≠ 0 := by
    have hall : ∀ k < 8, BitVec.twoPow 8 k ≠ 0 := by decide
    exact hall _ (pixelBit_lt c x y)
  rw [pixel, pixelMask_eq_twoPow, BitVec.and_twoPow]
  cases (pb.read .pb (pixelByte c x y)).getLsbD (pixelBit c x y) with
  | true => simpa using hone
  | false => rfl

/-- What a pixel write does, bit by bit: the pixel's bit is `v` and every other bit is as it was. -/
theorem getLsbD_read_setPixel (c : Config) (pb : Memory) (x y : Nat) (v : Bool) (a i : Nat) :
    ((setPixel c pb x y v).read .pb a).getLsbD i =
      if (a, i) = pixelPlace c x y then v else (pb.read .pb a).getLsbD i := by
  simp only [pixelPlace, Prod.mk.injEq]
  by_cases ha : a = pixelByte c x y
  · subst ha
    rw [setPixel, Memory.read_write_same]
    cases v with
    | true => by_cases hi : i = pixelBit c x y <;> simp [getLsbD_pixelMask, hi]
    | false =>
      rw [if_neg Bool.false_ne_true, BitVec.getLsbD_and, getLsbD_pixelMask_clear]
      by_cases hi : i = pixelBit c x y
      · simp [hi]
      · simpa [hi] using BitVec.lt_of_getLsbD
  · rw [setPixel, Memory.read_write_other _ _ _ ha, if_neg fun h => ha h.1]

theorem pixel_setPixel_same (c : Config) (pb : Memory) (x y : Nat) (v : Bool) :
    pixel c (setPixel c pb x y v) x y = v := by
  rw [pixel_eq_getLsbD, getLsbD_read_setPixel]
  exact if_pos rfl

/-- A pixel write leaves every pixel in another place. -/
theorem pixel_setPixel_other {c : Config} {x y x' y' : Nat} (pb : Memory) (v : Bool)
    (h : pixelPlace c x' y' ≠ pixelPlace c x y) :
    pixel c (setPixel c pb x y v) x' y' = pixel c pb x' y' := by
  rw [pixel_eq_getLsbD, getLsbD_read_setPixel, pixel_eq_getLsbD]
  exact if_neg h

/-- Writing the value a pixel has changes no byte. -/
theorem read_setPixel_pixel (c : Config) (pb : Memory) (x y a : Nat) :
    (setPixel c pb x y (pixel c pb x y)).read .pb a = pb.read .pb a := by
  apply BitVec.eq_of_getLsbD_eq
  intro i _
  rw [getLsbD_read_setPixel, pixel_eq_getLsbD]
  split
  next h =>
    obtain ⟨rfl, rfl⟩ := Prod.mk.inj h
    rfl
  · rfl

/-- Writing a pixel twice is writing it once. -/
theorem read_setPixel_setPixel (c : Config) (pb : Memory) (x y : Nat) (v : Bool) (a : Nat) :
    (setPixel c (setPixel c pb x y v) x y v).read .pb a = (setPixel c pb x y v).read .pb a := by
  have h := read_setPixel_pixel c (setPixel c pb x y v) x y a
  rwa [pixel_setPixel_same] at h

/-- Writes to pixels in different places commute. -/
theorem read_setPixel_comm {c : Config} {x y x' y' : Nat} (pb : Memory) (v v' : Bool)
    (h : pixelPlace c x' y' ≠ pixelPlace c x y) (a : Nat) :
    (setPixel c (setPixel c pb x y v) x' y' v').read .pb a =
      (setPixel c (setPixel c pb x' y' v') x y v).read .pb a := by
  apply BitVec.eq_of_getLsbD_eq
  intro i _
  simp only [getLsbD_read_setPixel]
  split
  next h' => rw [if_neg fun hplace => h (h'.symm.trans hplace)]
  · rfl

/-! ## The commands that write one pixel -/

theorem exec_pbSet_free {s : State} (hp : s.phase ≠ .preparing) (x y : Half) (v : Bool) :
    exec (.pbSet x y v) s = .next (pixelWrite x y v s) := by
  rw [exec, execPbSet, onCmdPort_free hp]

theorem exec_pbSet_of_not_pixelExists {s : State} {x y : Half} (hp : s.phase ≠ .preparing)
    (h : ¬s.pixelExists x y) (v : Bool) : exec (.pbSet x y v) s = .next (respond .ok s) := by
  rw [State.pixelExists] at h
  rw [exec_pbSet_free hp, pixelWrite, if_neg h]

/-- The effect of `PB.SET` in range, for any contents `m` of `PB`. -/
theorem exec_pbSet_setPb {s : State} {x y : Half} (hp : s.phase ≠ .preparing) (h : s.pixelExists x y)
    (v : Bool) (m : Memory) : exec (.pbSet x y v) (setPb m s) =
      .next (respond .ok (setPb (setPixel s.cfg m (coord x).toNat (coord y).toNat v) s)) := by
  rw [State.pixelExists] at h
  rw [exec_pbSet_free (by simpa using hp), pixelWrite, setPb_cfg, if_pos h, setPb_pb]
  rfl

theorem State.getPixel_of_not_pixelExists {s : State} {x y : Half} (h : ¬s.pixelExists x y) :
    s.getPixel x y = false := by
  rw [State.getPixel, Bool.eq_false_of_not_eq_true h, Bool.false_and]

/-- What `get` shows in range, for any contents `m` of `PB`. -/
theorem State.getPixel_setPb {s : State} {x y : Half} (h : s.pixelExists x y) (m : Memory) :
    (setPb m s).getPixel x y = pixel s.cfg m (coord x).toNat (coord y).toNat := by
  have hr : inRange s.cfg (coord x) (coord y) = true := h
  rw [State.getPixel, setPb_cfg, setPb_pb, hr, Bool.true_and]

/-- In range, `setPixel` is the write that `PixelWritten` describes. -/
theorem pixelWritten_setPixel {s : State} {x y : Half} (h : s.pixelExists x y) (v : Bool) :
    PixelWritten s x y v (setPixel s.cfg s.pb (coord x).toNat (coord y).toNat v) :=
  ⟨fun hn => absurd h hn, fun _ =>
    ⟨fun _ ha => Memory.read_write_other _ _ _ ha, Memory.read_write_same ..⟩⟩

/-- Settles O15: the laws of `setPixel`, for places that `State.pixelExists.place_ne` tells apart. -/
theorem pixelLaws : Obligations.PixelLaws := by
  intro s x y x' y' v v' hp h h'
  refine ⟨_, _, _, _, _, exec_pbSet_setPb hp h v s.pb, ?same, ?other, exec_pbSet_setPb hp h v _, ?twice,
    exec_pbSet_setPb hp h' v' _, exec_pbSet_setPb hp h' v' s.pb, exec_pbSet_setPb hp h v _, ?commute,
    ?distinct⟩
  case same => exact (State.getPixel_setPb h _).trans (pixel_setPixel_same ..)
  case other =>
    intro hne
    calc
      _ = pixel s.cfg (setPixel s.cfg s.pb (coord x).toNat (coord y).toNat v) (coord x').toNat
          (coord y').toNat := State.getPixel_setPb h' _
      _ = pixel s.cfg s.pb (coord x').toNat (coord y').toNat :=
        pixel_setPixel_other s.pb v (h.place_ne h' hne)
      _ = s.getPixel x' y' := (State.getPixel_setPb h' s.pb).symm
  case twice => exact read_setPixel_setPixel s.cfg s.pb _ _ v
  case commute => exact fun hne => read_setPixel_comm s.pb v v' (h.place_ne h' hne)
  case distinct =>
    intro hne heq
    obtain ⟨hbyte, hmask⟩ := Prod.mk.inj heq
    exact h.place_ne h' hne (Prod.ext hbyte (pixelBit_eq_of_pixelMask_eq hmask))

/-- Settles O10, in range by the laws of `setPixel` and out of range by the no-op. -/
theorem pbSetWritesOnePixel : Obligations.PbSetWritesOnePixel := by
  intro s x y v hp
  refine ⟨decode_encode (.pbSet x y v), ?_⟩
  by_cases h : s.pixelExists x y
  · refine ⟨_, exec_pbSet_setPb hp h v s.pb, pixelWritten_setPixel h v, fun _ => ?reads,
      fun _ hv a => ?same⟩
    case reads => exact (State.getPixel_setPb h _).trans (pixel_setPixel_same ..)
    case same =>
      obtain rfl := hv.trans (State.getPixel_setPb h s.pb)
      exact read_setPixel_pixel ..
  · exact ⟨s.pb, exec_pbSet_of_not_pixelExists hp h v, ⟨fun _ => rfl, fun hx => absurd hx h⟩,
      fun hx => absurd hx h, fun hx => absurd hx h⟩

/-- Settles O11: the two operations are one in word and effect, and the effect is O10's. -/
theorem pbClrpxClearsOnePixel : Obligations.PbClrpxClearsOnePixel := by
  intro s x y hp
  obtain ⟨-, m, hexec, hwritten, -⟩ := pbSetWritesOnePixel s x y false hp
  exact ⟨rfl, m, hexec, hwritten, rfl⟩

/-! ## The command that reads one pixel -/

theorem exec_pbGet_free {s : State} (hp : s.phase ≠ .preparing) (x y : Half) :
    exec (.pbGet x y) s = .next { s with result := s.getPixel x y, resp := .ok } := by
  rw [exec, execPbGet, onCmdPort_free hp]
  rfl

/-- Settles O12: the pixel is its bit of its byte (`pixel_eq_getLsbD`). -/
theorem pbGetReadsOnePixel : Obligations.PbGetReadsOnePixel := fun s x y hp =>
  ⟨_, exec_pbGet_free hp x y, State.getPixel_of_not_pixelExists,
    fun h => (State.getPixel_setPb h s.pb).trans (pixel_eq_getLsbD ..)⟩

/-! ## The commands that write every byte -/

/-- In a legal configuration the bytes of `PB` hold every pixel of the image and nothing else (R8). -/
theorem eight_mul_bitmapSize {c : Config} (hc : c.legal = true) : 8 * c.bitmapSize = c.w * c.h := by
  obtain ⟨-, -, -, -, hh, -⟩ := legal_bounds hc
  exact Nat.mul_div_cancel' (Dvd.dvd.mul_left (by omega) c.w)

theorem pixelIndex_lt {c : Config} {x y : Nat} (hx : x < c.w) (hy : y < c.h) :
    pixelIndex c x y < c.w * c.h := by
  calc pixelIndex c x y < (y + 1) * c.w := by rw [pixelIndex, Nat.succ_mul]; omega
    _ ≤ c.h * c.w := Nat.mul_le_mul_right _ hy
    _ = c.w * c.h := Nat.mul_comm ..

theorem pixelByte_lt_bitmapSize {c : Config} (hc : c.legal = true) {x y : Nat} (hx : x < c.w)
    (hy : y < c.h) : pixelByte c x y < c.bitmapSize := by
  have hidx := pixelIndex_lt hx hy
  rw [← eight_mul_bitmapSize hc] at hidx
  unfold pixelByte
  omega

/-- The byte that a fill writes (R135). -/
def fillByte (v : Bool) : Byte := if v then 0xFF else 0x00

theorem getLsbD_fillByte (v : Bool) {i : Nat} (hi : i < 8) : (fillByte v).getLsbD i = v := by
  have hall : ∀ v, ∀ i < 8, (fillByte v).getLsbD i = v := by decide
  exact hall v i hi

/-- In a buffer that is filled with `v` every pixel is `v`. -/
theorem pixel_build_fillByte {c : Config} (hc : c.legal = true) {x y : Nat} (hx : x < c.w) (hy : y < c.h)
    (pb : Memory) (v : Bool) : pixel c (pb.build c.bitmapSize fun _ => fillByte v) x y = v := by
  rw [pixel_eq_getLsbD, Memory.read_build _ _ _ (pixelByte_lt_bitmapSize hc hx hy),
    getLsbD_fillByte v (pixelBit_lt c x y)]

theorem exec_pbFill_free {s : State} (hp : s.phase ≠ .preparing) (v : Bool) : exec (.pbFill v) s =
    .next { s with pb := s.pb.build s.cfg.bitmapSize fun _ => fillByte v, resp := .ok } := by
  rw [exec, execPbFill, onCmdPort_free hp]
  rfl

/-- The row of `PB.FILL` asks for zeros in `X` and `Y` (30_encoding.md R103). -/
theorem decode_pbFill_nonzeroUnused (v : Bool) {x y : Half} (h : x ≠ 0 ∨ y ≠ 0) :
    decode (.cmd (cmdWordOf ⟨opcPbFill, 0, v, 0, 0, x, y⟩)) = .error .nonzeroUnused := by
  have hrow : decodeCmdFields ⟨opcPbFill, 0, v, 0, 0, x, y⟩ = acceptIf (x == 0 && y == 0) (.pbFill v) :=
    rfl
  have hzero : (x == 0 && y == 0) = false := by
    simpa [or_iff_not_imp_left] using h
  rw [decode_cmd_cmdWordOf, hrow, hzero]
  rfl

/-- Settles O13: every byte is built, and every pixel is in some byte (`pixel_build_fillByte`). -/
theorem pbFillWritesEveryByte : Obligations.PbFillWritesEveryByte := by
  intro s v hp
  refine ⟨decode_encode (.pbFill v), fun x y => decode_pbFill_nonzeroUnused v, _, exec_pbFill_free hp v,
    fun a => Memory.read_build .pb s.pb _, fun hc x y => ⟨fun h => ?_, fun h => ?_⟩⟩
  · obtain ⟨hx, hy⟩ := h.toNat_lt
    exact (State.getPixel_setPb h _).trans (pixel_build_fillByte hc hx hy s.pb v)
  · exact State.getPixel_of_not_pixelExists (s := setPb _ s) h

/-- Settles O14: the two operations are one in word and effect, and a fill with 0 leaves every pixel 0, in range
or not. -/
theorem pbClearBlanksEveryByte : Obligations.PbClearBlanksEveryByte := by
  intro s hp
  obtain ⟨-, -, m, hexec, hbytes, hpixels⟩ := pbFillWritesEveryByte s false hp
  refine ⟨rfl, m, hexec, rfl, hbytes, fun hc x y => ?_⟩
  obtain ⟨hin, hout⟩ := hpixels hc x y
  by_cases h : s.pixelExists x y
  · exact hin h
  · exact hout h

end Sys2Proof.Machine

/-! The statements of 41_format_transformer.md: each stage byte by byte, the bit of `TB` that each pixel goes to,
and that the frames of a job follow from the pixels alone. -/

namespace Sys2Proof.Machine

/-! ## Operations without a port word -/

/-- An operation that the encoder gives a label is named by that label and by no word of a port. -/
theorem labelOnly_of_encode {label : Byte} {i : Instr} (hc : i.canonical = i) (he : encode i = bareLabel label) :
    LabelOnly label i := by
  have hword : ∀ p, decode p = .ok i → p = bareLabel label := fun p hp => (encode_of_decode hp).symm.trans he
  refine ⟨decode_eq_ok_iff.2 ⟨hc, he⟩, fun w => ⟨fun h => ?_, fun h => ?_⟩⟩
  · cases hword _ h
  · cases hword _ h

/-! ## Columns of `TB` -/

/-- A column is a whole number of bytes (00_scope.md R8). -/
theorem height_eq_eight_mul_bpc {c : Config} (hc : c.legal = true) : c.h = 8 * c.bpc := by
  obtain ⟨-, -, -, -, hmod, -⟩ := legal_bounds hc
  unfold Config.bpc
  omega

/-- `BPC` is even, because `H mod 16 = 0` (R8). -/
theorem bpc_even {c : Config} (hc : c.legal = true) : c.bpc % 2 = 0 := by
  obtain ⟨-, -, -, -, hmod, -⟩ := legal_bounds hc
  unfold Config.bpc
  omega

theorem bpc_pos {c : Config} (hc : c.legal = true) : 0 < c.bpc := by
  obtain ⟨-, -, hlow, -⟩ := legal_bounds hc
  have hh := height_eq_eight_mul_bpc hc
  omega

/-- The bytes of `TB` are `W` columns of an even number of bytes. -/
theorem bitmapSize_even {c : Config} (hc : c.legal = true) : c.bitmapSize % 2 = 0 := by
  rw [bitmapSize_eq hc, Nat.mul_mod, bpc_even hc, Nat.mul_zero]

/-- Byte `q` of a column of the image is a byte of `TB`. -/
theorem columnByte_lt_bitmapSize {c : Config} (hc : c.legal = true) {x q : Nat} (hx : x < c.w) (hq : q < c.bpc) :
    x * c.bpc + q < c.bitmapSize := by
  have hle : (x + 1) * c.bpc ≤ c.w * c.bpc := Nat.mul_le_mul_right _ hx
  rw [Nat.succ_mul] at hle
  rw [bitmapSize_eq hc]
  omega

/-- A byte of `TB` belongs to a column of the image, and each of its bits to a row. -/
theorem column_of_byte {c : Config} (hc : c.legal = true) {i k : Nat} (hi : i < c.bitmapSize) (hk : k < 8) :
    i / c.bpc < c.w ∧ 8 * (i % c.bpc) + k < c.h := by
  have hh := height_eq_eight_mul_bpc hc
  have hmod := Nat.mod_lt i (bpc_pos hc)
  exact ⟨Nat.div_lt_of_lt_mul (by rwa [Nat.mul_comm, ← bitmapSize_eq hc]), by omega⟩

/-- Every bit of `TB` is the place of the pixel of some column `x` and distance `b` from the bottom row. -/
theorem exists_columnBit {c : Config} (hc : c.legal = true) {i k : Nat} (hi : i < c.bitmapSize) (hk : k < 8) :
    ∃ x b, x < c.w ∧ b < c.h ∧ i = x * c.bpc + b / 8 ∧ k = b % 8 := by
  obtain ⟨hcol, hrow⟩ := column_of_byte hc hi hk
  have hbyte : (8 * (i % c.bpc) + k) / 8 = i % c.bpc := by omega
  exact ⟨_, _, hcol, hrow, by rw [hbyte, Nat.div_add_mod'], by omega⟩

/-! ## Stage 1 -/

/-- A byte assembled from its bits `0 .. n` has those bits and no other. -/
theorem getLsbD_foldl_bits (f : Nat → Bool) (n i : Nat) :
    ((List.range n).foldl (fun (acc : Byte) k => if f k then acc ||| (1 <<< k) else acc) 0).getLsbD i =
      (decide (i < 8) && decide (i < n) && f i) := by
  induction n with
  | zero => simp
  | succ n ih =>
    have hbit : ((1 <<< n : Nat) : Byte).getLsbD i = (decide (i < 8) && decide (n = i)) := by
      rw [BitVec.natCast_eq_ofNat, BitVec.getLsbD_ofNat, Nat.one_shiftLeft, Nat.testBit_two_pow]
    rw [List.range_succ, List.foldl_append, List.foldl_cons, List.foldl_nil]
    cases hf : f n with
    | true =>
      rw [if_pos rfl, BitVec.getLsbD_or, ih, hbit]
      grind
    | false =>
      rw [if_neg Bool.false_ne_true, ih]
      grind

theorem getLsbD_byteOfBits (f : Nat → Bool) {k : Nat} (hk : k < 8) : (byteOfBits f).getLsbD k = f k := by
  rw [byteOfBits, getLsbD_foldl_bits]
  simp [hk]

/-- The bit that stage 1 gives a pixel (R151). -/
theorem bitOf_reorderedByte {c : Config} (hc : c.legal = true) (pb : Memory) (x : Nat) {y : Nat}
    (hy : y < c.h) :
    bitOf (reorderedByte c pb (x * c.bpc + (c.h - 1 - y) / 8)) ((c.h - 1 - y) % 8) = pixel c pb x y := by
  have hh := height_eq_eight_mul_bpc hc
  have hrow : c.h - 1 - (c.h - 1 - y) = y := by omega
  have hq : (c.h - 1 - y) / 8 < c.bpc := by omega
  generalize c.h - 1 - y = b at hrow hq ⊢
  have hcol : (x * c.bpc + b / 8) / c.bpc = x := by
    rw [Nat.add_comm, Nat.add_mul_div_right _ _ (bpc_pos hc), Nat.div_eq_of_lt hq, Nat.zero_add]
  have hbyte : (x * c.bpc + b / 8) % c.bpc = b / 8 := by
    rw [Nat.add_comm, Nat.add_mul_mod_self_right, Nat.mod_eq_of_lt hq]
  rw [bitOf, reorderedByte, getLsbD_byteOfBits _ (Nat.mod_lt _ (by decide)), hcol, hbyte, Nat.div_add_mod,
    hrow]

theorem exec_ftReorder (s : State) : exec .ftReorder s = .next { s with tb := (reorderStage s).tb } := rfl

theorem reorderStage_read {s : State} {i : Nat} (hi : i < s.cfg.bitmapSize) :
    (reorderStage s).tb.read .tb i = reorderedByte s.cfg s.pb i := by
  rw [reorderStage_tb, Memory.read_build _ _ _ hi]

/-- Settles O16: each pixel by `bitOf_reorderedByte`, and the places by `exists_columnBit` with `y = H-1-b`. -/
theorem reorderPlacesEveryPixel : Obligations.ReorderPlacesEveryPixel := by
  refine ⟨labelOnly_of_encode rfl rfl, fun s hc => ⟨_, exec_ftReorder s, fun x y hx hy => ?_,
    fun i k hi hk => ?_⟩⟩
  · have hh := height_eq_eight_mul_bpc hc
    rw [reorderStage_read (columnByte_lt_bitmapSize hc hx (by omega)), bitOf_reorderedByte hc s.pb x hy]
  · obtain ⟨x, b, hx, hb, rfl, rfl⟩ := exists_columnBit hc hi hk
    have hrow : s.cfg.h - 1 - (s.cfg.h - 1 - b) = b := by omega
    exact ⟨x, s.cfg.h - 1 - b, hx, by omega, by rw [hrow], by rw [hrow]⟩

/-! ## Stage 2 -/

theorem swapPartner_swapPartner (i : Nat) : swapPartner (swapPartner i) = i := by
  unfold swapPartner
  grind

/-- A memory of an even number of bytes holds each byte's partner. -/
theorem swapPartner_lt {n i : Nat} (hn : n % 2 = 0) (hi : i < n) : swapPartner i < n := by
  unfold swapPartner
  split <;> omega

/-- The partner of a byte is the other byte of its pair, `i XOR 1`. -/
theorem swapPartner_eq_xor (i : Nat) : swapPartner i = i ^^^ 1 := by
  unfold swapPartner
  split
  next h => rw [Nat.xor_one_of_even (Nat.even_iff.2 h)]
  next h => rw [Nat.xor_one_of_odd (Nat.odd_iff.2 (by omega))]

/-- Pairs do not straddle columns: the partner of byte `q` of a column is the partner of `q` there. -/
theorem swapPartner_add {m : Nat} (hm : m % 2 = 0) (q : Nat) : swapPartner (m + q) = m + swapPartner q := by
  unfold swapPartner
  grind

theorem exec_ftSwap (s : State) : exec .ftSwap s = .next { s with tb := (swapStage s).tb } := rfl

theorem swapStage_read {s : State} {i : Nat} (hi : i < s.cfg.bitmapSize) :
    (swapStage s).tb.read .tb i = s.tb.read .tb (swapPartner i) := by
  rw [swapStage_tb, Memory.read_build _ _ _ hi]

/-- Settles O17: stage 2 reads each byte at its partner, and the partner of the partner is the byte itself. -/
theorem swapExchangesBytePairs : Obligations.SwapExchangesBytePairs := by
  refine ⟨labelOnly_of_encode rfl rfl, fun s hc => ⟨_, exec_ftSwap s, fun i heven hi => ⟨?_, ?_⟩,
    bitmapSize_even hc, bpc_even hc, _, exec_ftSwap (swapStage s), fun i hi => ?_⟩⟩
  · rw [swapStage_read (by omega), swapPartner, if_pos heven]
  · rw [swapStage_read hi, swapPartner, if_neg (by omega), Nat.add_sub_cancel]
  · calc (swapStage (swapStage s)).tb.read .tb i
      _ = (swapStage s).tb.read .tb (swapPartner i) := swapStage_read hi
      _ = s.tb.read .tb (swapPartner (swapPartner i)) :=
        swapStage_read (swapPartner_lt (bitmapSize_even hc) hi)
      _ = s.tb.read .tb i := by rw [swapPartner_swapPartner]

/-! ## Stage 3 -/

theorem exec_ftInvert (s : State) : exec .ftInvert s = .next { s with tb := (invertStage s).tb } := rfl

theorem invertStage_read {s : State} {i : Nat} (hi : i < s.cfg.bitmapSize) :
    (invertStage s).tb.read .tb i = s.tb.read .tb i ^^^ 0xFF := by
  rw [invertStage_tb, Memory.read_build _ _ _ hi]

/-- Settles O18: stage 3 works on each byte where it stands, and stage 2 only says which byte that is. -/
theorem invertComplementsEveryByte : Obligations.InvertComplementsEveryByte := by
  refine ⟨labelOnly_of_encode rfl rfl, fun s hc => ⟨_, exec_ftInvert s, fun i hi => invertStage_read hi,
    ⟨_, exec_ftInvert (invertStage s), fun i hi => ?twice⟩, fun i hi => ?commute⟩⟩
  case twice =>
    calc (invertStage (invertStage s)).tb.read .tb i
      _ = (invertStage s).tb.read .tb i ^^^ 0xFF := invertStage_read hi
      _ = s.tb.read .tb i ^^^ 0xFF ^^^ 0xFF := by rw [invertStage_read hi]
      _ = s.tb.read .tb i := by rw [BitVec.xor_assoc, BitVec.xor_self, BitVec.xor_zero]
  case commute =>
    calc (swapStage (invertStage s)).tb.read .tb i
      _ = (invertStage s).tb.read .tb (swapPartner i) := swapStage_read hi
      _ = s.tb.read .tb (swapPartner i) ^^^ 0xFF :=
        invertStage_read (swapPartner_lt (bitmapSize_even hc) hi)
      _ = (swapStage s).tb.read .tb i ^^^ 0xFF := by rw [swapStage_read hi]
      _ = (invertStage (swapStage s)).tb.read .tb i := (invertStage_read (s := swapStage s) hi).symm

/-! ## The three stages -/

theorem exec_ftRun (s : State) : exec .ftRun s = .next { s with tb := (transform s).tb } := rfl

theorem transform_read {s : State} (hc : s.cfg.legal = true) {i : Nat} (hi : i < s.cfg.bitmapSize) :
    (transform s).tb.read .tb i = reorderedByte s.cfg s.pb (swapPartner i) ^^^ 0xFF := by
  calc (transform s).tb.read .tb i
    _ = (swapStage (reorderStage s)).tb.read .tb i ^^^ 0xFF := invertStage_read hi
    _ = (reorderStage s).tb.read .tb (swapPartner i) ^^^ 0xFF := by
        rw [swapStage_read (s := reorderStage s) hi]
    _ = _ := by rw [reorderStage_read (swapPartner_lt (bitmapSize_even hc) hi)]

theorem bitOf_xor_ones (v : Byte) {k : Nat} (hk : k < 8) : bitOf (v ^^^ 0xFF) k = !bitOf v k := by
  have hones : (0xFF : Byte) = .allOnes 8 := rfl
  rw [bitOf, hones, BitVec.xor_allOnes, BitVec.getLsbD_not, decide_eq_true hk, Bool.true_and, bitOf]

/-- The byte of `TB` that a pixel goes to (R154). -/
theorem transformedByte_lt {c : Config} (hc : c.legal = true) {x y : Nat} (hx : x < c.w) (hy : y < c.h) :
    x * c.bpc + ((c.h - 1 - y) / 8 ^^^ 1) < c.bitmapSize := by
  have hh := height_eq_eight_mul_bpc hc
  rw [← swapPartner_eq_xor]
  exact columnByte_lt_bitmapSize hc hx (swapPartner_lt (bpc_even hc) (by omega))

/-- The bit that the three stages give a pixel (R154). -/
theorem bitOf_transform {s : State} (hc : s.cfg.legal = true) {x y : Nat} (hx : x < s.cfg.w)
    (hy : y < s.cfg.h) :
    bitOf ((transform s).tb.read .tb (x * s.cfg.bpc + ((s.cfg.h - 1 - y) / 8 ^^^ 1)))
      ((s.cfg.h - 1 - y) % 8) = !pixel s.cfg s.pb x y := by
  have hcol : x * s.cfg.bpc % 2 = 0 := by rw [Nat.mul_mod, bpc_even hc, Nat.mul_zero]
  rw [transform_read hc (transformedByte_lt hc hx hy), bitOf_xor_ones _ (Nat.mod_lt _ (by decide)),
    ← swapPartner_eq_xor, swapPartner_add hcol, swapPartner_swapPartner, bitOf_reorderedByte hc s.pb x hy]

/-! ## Pixels and the bytes of `PB` -/

/-- Every bit of `PB` is the place of a pixel of the image (R131). -/
theorem exists_pixelPlace {c : Config} (hc : c.legal = true) {a i : Nat} (ha : a < c.bitmapSize) (hi : i < 8) :
    ∃ x y, x < c.w ∧ y < c.h ∧ pixelPlace c x y = (a, i) := by
  have hidx : 8 * a + (7 - i) < c.w * c.h := by
    rw [← eight_mul_bitmapSize hc]
    omega
  have hsplit : pixelIndex c ((8 * a + (7 - i)) % c.w) ((8 * a + (7 - i)) / c.w) = 8 * a + (7 - i) :=
    Nat.div_add_mod' ..
  refine ⟨_, _, Nat.mod_lt (8 * a + (7 - i)) (legal_bounds hc).1, Nat.div_lt_of_lt_mul hidx, ?_⟩
  rw [pixelPlace, pixelByte, pixelBit, hsplit, Prod.mk.injEq]
  omega

/-- The bytes of `PB` and the pixels of the image determine each other. -/
theorem pixels_eq_iff {c : Config} (hc : c.legal = true) {pb pb' : Memory} :
    (∀ x y, x < c.w → y < c.h → pixel c pb x y = pixel c pb' x y) ↔
      ∀ a, a < c.bitmapSize → pb.read .pb a = pb'.read .pb a := by
  constructor
  · intro h a ha
    apply BitVec.eq_of_getLsbD_eq
    intro i hi
    obtain ⟨x, y, hx, hy, hplace⟩ := exists_pixelPlace hc ha hi
    obtain ⟨rfl, rfl⟩ := Prod.mk.inj hplace
    rw [← pixel_eq_getLsbD, ← pixel_eq_getLsbD, h x y hx hy]
  · intro h x y hx hy
    rw [pixel, pixel, h _ (pixelByte_lt_bitmapSize hc hx hy)]

/-- Settles O19: two pictures with one `TB` have the same complement of every pixel, and so the same bytes. -/
theorem transformClosedForm : Obligations.TransformClosedForm := by
  refine fun s hc => ⟨_, exec_ftRun s, fun x y => bitOf_transform hc, fun p m' hexec hbytes => ?_⟩
  rw [exec_ftRun, Host.Outcome.next.injEq] at hexec
  obtain rfl : (transform (setPb p s)).tb = m' := congrArg State.tb hexec
  refine (pixels_eq_iff hc).1 fun x y hx hy => Bool.not_inj ?_
  have hp := bitOf_transform (s := setPb p s) hc hx hy
  rw [setPb_cfg, setPb_pb, hbytes _ (transformedByte_lt hc hx hy), bitOf_transform hc hx hy] at hp
  exact hp.symm

/-! ## What `FE.JOB` and `CT.PREP` answer follows from the bytes of `TB` -/

/-- The columns of a group are columns of the image (43_frame_encoder.md R201). -/
theorem group_columns_le {c : Config} (hc : c.legal = true) {g : Group} (hg : g ∈ groupsOf c) :
    g.col0 + g.width ≤ c.w := by
  obtain ⟨k, hk, rfl⟩ := List.mem_map.1 hg
  obtain ⟨hone, -, hlow, -⟩ := groupCount_bounds hc
  have hk' := List.mem_range.1 hk
  simp only [groupAt]
  split
  next hlt =>
    have hle : (k + 1) * c.chunkW ≤ (groupCount c - 1) * c.chunkW := Nat.mul_le_mul_right _ hlt
    rw [Nat.succ_mul] at hle
    omega
  next hlast =>
    obtain rfl : k = groupCount c - 1 := by omega
    omega

/-- The bytes of a group are bytes of `TB` (R203). -/
theorem group_bytes_le {c : Config} (hc : c.legal = true) {g : Group} (hg : g ∈ groupsOf c) :
    g.col0 * c.bpc + g.width * c.bpc ≤ c.bitmapSize := by
  rw [bitmapSize_eq hc, ← Nat.add_mul]
  exact Nat.mul_le_mul_right _ (group_columns_le hc hg)

/-- The frame of a group of the job follows from the configuration, `JOB_ID` and the bytes of `TB`. -/
theorem groupFrame_eq_of_bytes {s t : State} (hc : s.cfg.legal = true) (hcfg : t.cfg = s.cfg)
    (hid : t.jobId = s.jobId) (htb : ∀ i, i < s.cfg.bitmapSize → t.tb.read .tb i = s.tb.read .tb i)
    {g : Group} (hg : g ∈ groupsOf s.cfg) : groupFrame t g = groupFrame s g := by
  have hbytes : t.tb.readBytes .tb (g.col0 * s.cfg.bpc) (g.width * s.cfg.bpc) =
      s.tb.readBytes .tb (g.col0 * s.cfg.bpc) (g.width * s.cfg.bpc) :=
    Memory.readBytes_congr _ _ _ _ _ fun k hk =>
      htb _ ((Nat.add_lt_add_left hk _).trans_le (group_bytes_le hc hg))
  simp only [groupFrame, compressedRange, hcfg, hid, hbytes]

/-- `mapM` in `Option` looks at the images of the list's own entries. -/
theorem mapM_option_congr {α β : Type} {f g : α → Option β} {l : List α} (h : ∀ a ∈ l, f a = g a) :
    l.mapM f = l.mapM g := by
  induction l with
  | nil => rfl
  | cons a l ih =>
    obtain ⟨ha, hl⟩ := List.forall_mem_cons.1 h
    rw [List.mapM_cons, List.mapM_cons, ha, ih hl]

theorem runJob_result_eq_of_bytes {s t : State} (hc : s.cfg.legal = true) (hcfg : t.cfg = s.cfg)
    (hid : t.jobId = s.jobId) (htb : ∀ i, i < s.cfg.bitmapSize → t.tb.read .tb i = s.tb.read .tb i) :
    (runJob t).2 = (runJob s).2 := by
  rw [runJob_result, runJob_result, hcfg,
    mapM_option_congr fun g => groupFrame_eq_of_bytes hc hcfg hid htb]

/-- The bytes the three stages leave in `TB` follow from the configuration and the bytes of `PB` (R151). -/
theorem transform_read_eq_of_pixels {s t : State} (hc : s.cfg.legal = true) (hcfg : t.cfg = s.cfg)
    (hpb : ∀ a, a < s.cfg.bitmapSize → t.pb.read .pb a = s.pb.read .pb a) {i : Nat}
    (hi : i < s.cfg.bitmapSize) : (transform t).tb.read .tb i = (transform s).tb.read .tb i := by
  have hpixels := (pixels_eq_iff hc).2 hpb
  have hbyte : ∀ j, j < s.cfg.bitmapSize → reorderedByte s.cfg t.pb j = reorderedByte s.cfg s.pb j := by
    intro j hj
    apply BitVec.eq_of_getLsbD_eq
    intro k hk
    obtain ⟨hcol, hrow⟩ := column_of_byte hc hj hk
    rw [reorderedByte, reorderedByte, getLsbD_byteOfBits _ hk, getLsbD_byteOfBits _ hk,
      hpixels _ _ hcol (by omega)]
  rw [transform_read (by rwa [hcfg]) (by rwa [hcfg]), transform_read hc hi, hcfg,
    hbyte _ (swapPartner_lt (bitmapSize_even hc) hi)]

/-- Two ends of `CT.PREP` agree in what a job shows: `STATE`, `CAUSE` if Failed, the frames if Sending. -/
def SamePreparation (t t' : State) : Prop :=
  t.phase = t'.phase ∧ (t.phase = .failed → t.cause = t'.cause) ∧
    (t.phase = .sending → t.frames = t'.frames ∧ t.nframes = t'.nframes)

/-- A failure shows its cause alone (60_exceptions.md R290). -/
theorem fail_samePreparation (cause : Code) (s s' : State) : SamePreparation (fail cause s) (fail cause s') :=
  ⟨rfl, fun _ => rfl, (nomatch ·)⟩

theorem finishPrep_samePreparation (r : JobResult) (s s' : State) :
    SamePreparation (finishPrep r s) (finishPrep r s') := by
  cases r with
  | fail => exact fail_samePreparation ..
  | empty => exact fail_samePreparation ..
  | ok list => exact ⟨rfl, (nomatch ·), fun _ => ⟨rfl, rfl⟩⟩

theorem exec_ctPrep_preparing {s : State} (hp : s.phase = .preparing) :
    exec .ctPrep s = .next (prepareJob s) := by
  rw [exec, execCtPrep, decide_eq_true hp]
  rfl

theorem prepareJob_without_memory {s : State} (ha : s.env.allocOk = false) :
    prepareJob s = fail .allocationFailure (setPace 0 s) := if_pos ha

/-- With memory the preparation ends by what `FE.JOB` answers (44_transmission_controller.md R233). -/
theorem prepareJob_with_memory {s : State} (ha : s.env.allocOk = true) :
    prepareJob s = finishPrep (runJob (transform (setPace 0 s))).2 (runJob (transform (setPace 0 s))).1 :=
  if_neg (by simp [ha])

/-- `FE.JOB` after the three stages answers what the configuration, `JOB_ID` and the pixels say. -/
theorem runJob_transform_eq_of_pixels {s t : State} (hc : s.cfg.legal = true) (hcfg : t.cfg = s.cfg)
    (hid : t.jobId = s.jobId) (hpb : ∀ a, a < s.cfg.bitmapSize → t.pb.read .pb a = s.pb.read .pb a) :
    (runJob (transform t)).2 = (runJob (transform s)).2 :=
  runJob_result_eq_of_bytes (by rwa [transform_cfg]) (by rwa [transform_cfg, transform_cfg])
    (by rwa [transform_jobId, transform_jobId])
    fun i hi => transform_read_eq_of_pixels hc hcfg hpb (by rwa [transform_cfg] at hi)

/-- Settles O59: without memory both jobs fail alike, and with it `FE.JOB` answers the same in both. -/
theorem framesDependOnPixelsOnly : Obligations.FramesDependOnPixelsOnly := by
  intro s s' t t' hc hp hp' hcfg hid halloc hpb hexec hexec'
  rw [exec_ctPrep_preparing hp, Host.Outcome.next.injEq] at hexec
  rw [exec_ctPrep_preparing hp', Host.Outcome.next.injEq] at hexec'
  subst hexec hexec'
  suffices SamePreparation (prepareJob s) (prepareJob s') from this
  cases ha : s.env.allocOk with
  | false =>
    rw [prepareJob_without_memory ha, prepareJob_without_memory (halloc ▸ ha)]
    exact fail_samePreparation ..
  | true =>
    have hjob : (runJob (transform (setPace 0 s'))).2 = (runJob (transform (setPace 0 s))).2 :=
      runJob_transform_eq_of_pixels hc hcfg.symm hid.symm fun a ha => (hpb a ha).symm
    rw [prepareJob_with_memory ha, prepareJob_with_memory (halloc ▸ ha), hjob]
    exact finishPrep_samePreparation ..

end Sys2Proof.Machine

/-! The statements of 42_block_compressor.md: what a call of the compressor stores and what it depends on, and the
streams of REF-LZ: their tokens, their length and what `UNLZ` makes of them. -/

namespace Sys2Proof.Machine

/-! ## A call of the compressor -/

theorem exec_bcCompress_outside {s : State} {off n : Half} (h : s.cfg.bitmapSize < off.toNat + n.toNat) :
    exec (.bcCompress off n) s = .fault .rangeOutsideTb := if_pos h

theorem exec_bcCompress_inside {s : State} {off n : Half} (h : off.toNat + n.toNat ≤ s.cfg.bitmapSize) :
    exec (.bcCompress off n) s = .next (setUop (.compressed (compressedRange off.toNat n.toNat s).isSome)
      (compressRange off.toNat n.toNat s)) := if_neg (by omega)

theorem exec_bcCompress_next {s t : State} {off n : Half} (h : exec (.bcCompress off n) s = .next t) :
    t = setUop (.compressed (compressedRange off.toNat n.toNat s).isSome)
      (compressRange off.toNat n.toNat s) := by
  rcases Nat.lt_or_ge s.cfg.bitmapSize (off.toNat + n.toNat) with hout | hin
  · cases (exec_bcCompress_outside hout).symm.trans h
  · exact (Host.Outcome.next.inj ((exec_bcCompress_inside hin).symm.trans h)).symm

theorem boundedResult_of_le {n : Nat} {r : List Byte} (h : r.length ≤ maxCompressedSize n) :
    boundedResult n (some r) = some r := if_pos h

/-- A call fails exactly when `LZ` gives no stream within the bound (42_block_compressor.md R170). -/
theorem boundedResult_eq_none_iff {n : Nat} {result : Option (List Byte)} :
    boundedResult n result = none ↔ ∀ r, result = some r → maxCompressedSize n < r.length := by
  cases result <;> simp [boundedResult]

/-- On `Ok` the stream stands at the start of `CB` and the rest of `CB` stays (R170). -/
theorem compressRange_of_some {off n : Nat} {s : State} {r : List Byte}
    (h : compressedRange off n s = some r) :
    (compressRange off n s).cbLen = r.length ∧ (compressRange off n s).cb = s.cb.writeBytes 0 r := by
  rw [compressRange, h]
  exact ⟨rfl, rfl⟩

theorem read_writeBytes_beyond (sp : Space) (m : Memory) {bytes : List Byte} {a : Nat} (h : bytes.length ≤ a) :
    (m.writeBytes 0 bytes).read sp a = m.read sp a := by
  rw [Memory.read_writeBytes, dif_neg (by omega)]

/-- Settles O20: a call inside `TB` stores exactly the result that is within the bound. -/
theorem compressStoresBlock : Obligations.CompressStoresBlock := by
  refine ⟨fun s off n hout => exec_bcCompress_outside hout, fun s off n hin => ?_⟩
  obtain ⟨cb, cbLen, wm, hkeeps⟩ := compressRange_keeps off.toNat n.toNat s
  refine ⟨cb, cbLen, wm, _, (exec_bcCompress_inside hin).trans (by rw [hkeeps]; rfl), ?ok, ?failed⟩
  case ok =>
    intro r hr hle
    have hstream : compressedRange off.toNat n.toNat s = some r := by
      rw [compressedRange, hr, boundedResult_of_le hle]
    obtain ⟨hlen, hcb⟩ := compressRange_of_some hstream
    rw [hkeeps, setBlock_cbLen] at hlen
    rw [hkeeps, setBlock_cb] at hcb
    subst hlen hcb
    exact ⟨by rw [hstream]; rfl, rfl, Memory.readBytes_writeBytes .cb s.cb 0 r,
      fun a => read_writeBytes_beyond .cb s.cb⟩
  case failed =>
    intro hlong
    rw [compressedRange, boundedResult_eq_none_iff.2 hlong]
    rfl

/-- What `LZ` makes of a range follows from the configuration and the bytes of the range
(42_block_compressor.md R174). -/
theorem compressedRange_eq_of_bytes {s t : State} {off off' n : Nat} (hc : s.cfg = t.cfg)
    (hb : s.tb.readBytes .tb off n = t.tb.readBytes .tb off' n) :
    compressedRange off n s = compressedRange off' n t := by
  rw [compressedRange, compressedRange, hc, hb]

/-- After a call every entry of `WM` is one the call wrote, whatever stood there before (R170, R174). -/
theorem read_wm_compressRange {s : State} (off n : Nat) {e : Nat} (he : e < s.cfg.codec.entries) (era : Nat) :
    (compressRange off n s).wm.read s.cfg.codec e =
      (WorkMemory.mk era (runLz s.cfg.codec (s.tb.readBytes .tb off n)).2).read s.cfg.codec e := by
  obtain ⟨value, hentries⟩ := runLz_entries s.cfg.codec (s.tb.readBytes .tb off n)
  rw [compressRange, storeBlock_wm, hentries, WorkMemory.read_wmEntries _ _ _ he,
    WorkMemory.read_wmEntries _ _ _ he]

/-- Settles O21: the report, the stream and the entries of `WM` follow from the input bytes. -/
theorem compressorIsStateless : Obligations.CompressorIsStateless := by
  intro s t s' t' off off' n hc hb hs ht
  have hstream : compressedRange off.toNat n.toNat s = compressedRange off'.toNat n.toNat t :=
    compressedRange_eq_of_bytes hc hb
  obtain rfl := exec_bcCompress_next hs
  obtain rfl := exec_bcCompress_next ht
  refine ⟨by rw [setUop_uop, setUop_uop, hstream], fun e he => ?entry, fun hok => ?block⟩
  case entry =>
    rw [setUop_wm, setUop_wm, read_wm_compressRange _ _ he 0, hb, hc,
      read_wm_compressRange _ _ (hc ▸ he) 0]
  case block =>
    rw [setUop_uop, UopResult.compressed.injEq] at hok
    obtain ⟨r, hr⟩ := Option.isSome_iff_exists.1 hok
    have hr' := hstream.symm.trans hr
    exact ⟨(compressRange_of_some hr).1.trans (compressRange_of_some hr').1.symm,
      (blockPayload_compressRange hr).trans (blockPayload_compressRange hr').symm⟩

/-! ## The parts of a REF-LZ stream -/

/-- What two sequences share is within the cap and within the second sequence, and its bytes agree. -/
theorem sharedPrefix_spec (cap : Nat) (as bs : List Byte) :
    sharedPrefix cap as bs ≤ cap ∧ sharedPrefix cap as bs ≤ bs.length ∧
      ∀ k < sharedPrefix cap as bs, as[k]? = bs[k]? := by
  induction cap generalizing as bs with
  | zero => simp [sharedPrefix]
  | succ cap ih =>
    match as, bs with
    | [], _ => simp [sharedPrefix]
    | _ :: _, [] => simp [sharedPrefix]
    | a :: as, b :: bs =>
      rw [sharedPrefix]
      split
      next hab =>
        obtain ⟨hcap, hlen, hagree⟩ := ih as bs
        refine ⟨Nat.succ_le_succ hcap, Nat.succ_le_succ hlen, fun k hk => ?_⟩
        cases k with
        | zero => simp [hab]
        | succ k => simpa using hagree k (by omega)
      next => simp

/-- What a match of 42_block_compressor.md R182 is: `m` bytes at `i`, 4 to 131 of them, that stand at an earlier
position `p` as well. -/
structure IsMatch (input : List Byte) (p i m : Nat) : Prop where
  earlier : p < i
  four_le : 4 ≤ m
  le_max : m ≤ 131
  inside : i + m ≤ input.length
  agree : ∀ k < m, input[p + k]? = input[i + k]?

theorem isMatch_of_matchLength {input : List Byte} {p i : Nat} (hp : p < i) (hi : i ≤ input.length)
    (hm : 4 ≤ matchLength input p i) : IsMatch input p i (matchLength input p i) := by
  obtain ⟨hcap, hlen, hagree⟩ := sharedPrefix_spec 131 (input.drop p) (input.drop i)
  rw [← matchLength] at hcap hlen hagree
  rw [List.length_drop] at hlen
  exact ⟨hp, hm, hcap, by omega, fun k hk => by simpa only [List.getElem?_drop] using hagree k hk⟩

theorem literalRuns_nil (fuel : Nat) : literalRuns fuel [] = [] := by
  cases fuel <;> rfl

theorem literalRuns_of_ne_nil (fuel : Nat) {bytes : List Byte} (h : bytes ≠ []) :
    literalRuns (fuel + 1) bytes = BitVec.ofNat 8 ((bytes.take 128).length - 1) ::
      (bytes.take 128 ++ literalRuns fuel (bytes.drop 128)) := by
  rw [literalRuns, if_neg (by simpa using h)]

/-! ## What a REF-LZ stream is made of -/

/-- The form of a stream of R182 for `in[ls .. n)`: pending literals, then either the end of the input or a match,
after which the stream goes on. Its length and its decoding follow from this form alone. -/
inductive LzParse (input : List Byte) : Nat → List Byte → Prop
  | last {ls : Nat} : ls ≤ input.length → LzParse input ls (flushLiterals input ls input.length)
  | matched {ls i p m : Nat} {rest : List Byte} : ls ≤ i → IsMatch input p i m → LzParse input (i + m) rest →
      LzParse input ls (flushLiterals input ls i ++ matchToken m (i - p) ++ rest)

/-- Every entry of the work memory is 0 or the successor of a position before `i` (R182). -/
def TableBelow (table : HashTable) (i : Nat) : Prop := ∀ h, (entryOf table h).toNat ≤ i

theorem tableBelow_empty (i : Nat) : TableBelow [] i := fun _ => Nat.zero_le i

theorem TableBelow.put {table : HashTable} {i j : Nat} (h : TableBelow table i) (hij : i < j) (key : Nat) :
    TableBelow (cellsPut table key (BitVec.ofNat 16 (i + 1))) j := by
  intro key'
  by_cases hk : key' = key
  · rw [entryOf, hk, cellsGet_put_same, Option.getD_some, BitVec.toNat_ofNat]
    exact (Nat.mod_le ..).trans hij
  · rw [entryOf, cellsGet_put_other _ _ hk, ← entryOf]
    exact (h key').trans hij.le

/-- Every stream of the encoder's loop has that form; the work memory only names positions already passed. -/
theorem refLzLoop_parses {input : List Byte} (fuel : Nat) : ∀ {i ls : Nat} {table : HashTable}, ls ≤ i →
    i ≤ input.length → TableBelow table i → LzParse input ls (refLzLoop input fuel i ls table).1 := by
  induction fuel with
  | zero => exact fun hls hi _ => .last (hls.trans hi)
  | succ fuel ih =>
    intro i ls table hls hi htable
    rw [refLzLoop]
    split
    next hlt =>
      split
      next =>
        dsimp only
        split
        next hfound =>
          obtain ⟨hused, hm⟩ := hfound
          have hentry := htable (lzHash input i)
          have hmatch := isMatch_of_matchLength (by omega) hi hm
          exact .matched hls hmatch (ih le_rfl hmatch.inside (htable.put (by omega) _))
        next => exact ih (by omega) hlt (htable.put (Nat.lt_succ_self i) _)
      next => exact ih (by omega) hlt fun key => (htable key).trans (Nat.le_succ i)
    next => exact .last (hls.trans hi)

theorem refLz_eq_none_iff {input : List Byte} : (refLz input).1 = none ↔ 65535 < input.length := by
  rw [refLz]
  split
  next hlong => simp [hlong]
  next hfits => simp [hfits]

theorem refLz_parses {input stream : List Byte} (h : (refLz input).1 = some stream) :
    LzParse input 0 stream := by
  have hle : ¬input.length > 65535 := fun hlong => by simp [refLz_eq_none_iff.2 hlong] at h
  rw [refLz, if_neg hle] at h
  cases h
  exact refLzLoop_parses _ le_rfl (Nat.zero_le _) (tableBelow_empty 0)

/-! ## The length of a stream -/

/-- Literals cost one byte more for every run of up to 128 of them (R184). -/
theorem literalRuns_length_le (fuel : Nat) : ∀ bytes : List Byte,
    (literalRuns fuel bytes).length ≤ bytes.length + (bytes.length + 127) / 128 := by
  induction fuel with
  | zero => intro bytes; exact Nat.zero_le _
  | succ fuel ih =>
    intro bytes
    by_cases hb : bytes = []
    · simp [hb, literalRuns_nil]
    · have hpos := List.length_pos_iff.2 hb
      have hrest := ih (bytes.drop 128)
      rw [literalRuns_of_ne_nil fuel hb]
      simp only [List.length_cons, List.length_append, List.length_take, List.length_drop] at hrest ⊢
      omega

theorem flushLiterals_length_le (input : List Byte) (a b : Nat) :
    (flushLiterals input a b).length ≤ (b - a) + (b - a + 127) / 128 := by
  have hruns := literalRuns_length_le (b - a) ((input.drop a).take (b - a))
  have hpending := List.length_take_le (b - a) (input.drop a)
  rw [flushLiterals]
  omega

theorem matchToken_length (m d : Nat) : (matchToken m d).length = 3 := rfl

/-- A match saves the byte that the literals before it may cost (R184). -/
theorem LzParse.length_le {input stream : List Byte} {ls : Nat} (h : LzParse input ls stream) :
    stream.length ≤ (input.length - ls) + (input.length - ls) / 128 + 1 := by
  induction h with
  | last hls => exact (flushLiterals_length_le ..).trans (by omega)
  | @matched ls i p m rest hls hmatch _ ih =>
    have hfour := hmatch.four_le
    have hinside := hmatch.inside
    have hflush := flushLiterals_length_le input ls i
    rw [List.length_append, List.length_append, matchToken_length]
    omega

/-- REF-LZ meets the bound of R172 (R184). -/
theorem refLz_length_le {input stream : List Byte} (h : (refLz input).1 = some stream) :
    stream.length ≤ input.length + input.length / 128 + 1 := (refLz_parses h).length_le

theorem refLz_length_le_maxCompressedSize {input stream : List Byte} (h : (refLz input).1 = some stream) :
    stream.length ≤ maxCompressedSize input.length := by
  have hle := refLz_length_le h
  rw [maxCompressedSize]
  omega

/-- Settles O23: each match pays for the literal run before it. -/
theorem refLzMeetsBound : Obligations.RefLzMeetsBound := fun _ _ h =>
  ⟨refLz_length_le h, refLz_length_le_maxCompressedSize h⟩

/-! ## What `UNLZ` makes of a stream -/

/-- From the output `out` on, `UNLZ` turns `stream` into `result` (R183), whatever spare fuel it has. -/
def Unpacks (stream out result : List Byte) : Prop :=
  ∀ fuel, stream.length ≤ fuel → unlzLoop fuel stream out = some result

theorem Unpacks.unlz_eq {stream result : List Byte} (h : Unpacks stream [] result) : unlz stream = some result :=
  h stream.length le_rfl

theorem Unpacks.nil (out : List Byte) : Unpacks [] out out := fun fuel _ => by cases fuel <;> rfl

/-- A token of at least one byte is one turn of the decoder's loop. -/
theorem Unpacks.of_step {t : Byte} {tail out result : List Byte}
    (h : ∀ fuel, tail.length ≤ fuel → unlzLoop (fuel + 1) (t :: tail) out = some result) :
    Unpacks (t :: tail) out result := by
  intro fuel hfuel
  obtain ⟨fuel, rfl⟩ : ∃ k, fuel = k + 1 := Nat.exists_eq_add_one.2 (Nat.zero_lt_of_lt hfuel)
  exact h fuel (Nat.le_of_succ_le_succ hfuel)

theorem unlzLoop_literal {t : Byte} {run rest : List Byte} (ht : t.toNat < 128) (hrun : run.length = t.toNat + 1)
    (fuel : Nat) (out : List Byte) :
    unlzLoop (fuel + 1) (t :: (run ++ rest)) out = unlzLoop fuel rest (out ++ run) := by
  simp only [unlzLoop, ← hrun, List.length_append, List.drop_left, List.take_left]
  rw [if_pos ht, if_pos (Nat.le_add_right ..)]

theorem unlzLoop_match {t d0 d1 : Byte} {d : Nat} {rest out : List Byte} (ht : 128 ≤ t.toNat)
    (hd : d0.toNat + 256 * d1.toNat = d) (hpos : 1 ≤ d) (hout : d ≤ out.length) (fuel : Nat) :
    unlzLoop (fuel + 1) (t :: d0 :: d1 :: rest) out =
      unlzLoop fuel rest (copyBack (t.toNat % 128 + 4) d out) := by
  subst hd
  rw [unlzLoop, if_neg ht.not_gt]
  exact if_pos ⟨hpos, hout⟩

theorem Unpacks.literalRun {run rest out result : List Byte} (hpos : 0 < run.length) (hmax : run.length ≤ 128)
    (h : Unpacks rest (out ++ run) result) :
    Unpacks (BitVec.ofNat 8 (run.length - 1) :: (run ++ rest)) out result := by
  have htoken : (BitVec.ofNat 8 (run.length - 1)).toNat = run.length - 1 := by
    rw [BitVec.toNat_ofNat]
    omega
  refine .of_step fun fuel hfuel => ?_
  rw [List.length_append] at hfuel
  rw [unlzLoop_literal (by omega) (by omega), h fuel (by omega)]

theorem Unpacks.literalRuns_append {rest result : List Byte} (fuel : Nat) : ∀ {bytes out : List Byte},
    bytes.length ≤ fuel → Unpacks rest (out ++ bytes) result →
    Unpacks (literalRuns fuel bytes ++ rest) out result := by
  induction fuel with
  | zero =>
    intro bytes out hfuel h
    obtain rfl := List.length_eq_zero_iff.1 (Nat.le_zero.1 hfuel)
    rwa [literalRuns_nil, List.nil_append, ← List.append_nil out]
  | succ fuel ih =>
    intro bytes out hfuel h
    by_cases hb : bytes = []
    · subst hb
      rwa [literalRuns_nil, List.nil_append, ← List.append_nil out]
    · have hpos := List.length_pos_iff.2 hb
      rw [literalRuns_of_ne_nil fuel hb, List.cons_append, List.append_assoc]
      refine .literalRun (by rw [List.length_take]; omega) (by rw [List.length_take]; omega) (ih ?_ ?_)
      · rw [List.length_drop]
        omega
      · rwa [List.append_assoc, List.take_append_drop]

/-- A flush appends the pending literals to the output (R182). -/
theorem Unpacks.flushLiterals_append {input rest result : List Byte} {a b : Nat} (hab : a ≤ b)
    (h : Unpacks rest (input.take b) result) :
    Unpacks (flushLiterals input a b ++ rest) (input.take a) result := by
  refine .literalRuns_append (b - a) (List.length_take_le ..) ?_
  rwa [← List.take_add, Nat.add_sub_cancel' hab]

theorem toNat_matchByte {k : Nat} (hk : k < 128) : ((0x80 : Byte) ||| BitVec.ofNat 8 k).toNat = 128 + k := by
  rw [BitVec.toNat_or, BitVec.toNat_ofNat, Nat.mod_eq_of_lt (by omega)]
  exact (Nat.two_pow_add_eq_or_of_lt (i := 7) hk 1).symm

/-- The two distance bytes give the distance back (R181). -/
theorem toNat_le16 {d : Nat} (hd : d ≤ 65535) :
    (BitVec.ofNat 8 (d % 256)).toNat + 256 * (BitVec.ofNat 8 (d / 256)).toNat = d := by
  rw [BitVec.toNat_ofNat, BitVec.toNat_ofNat]
  omega

theorem Unpacks.matchToken_append {rest out result : List Byte} {m d : Nat} (hfour : 4 ≤ m) (hmax : m ≤ 131)
    (hd : 1 ≤ d) (hout : d ≤ out.length) (hwide : d ≤ 65535) (h : Unpacks rest (copyBack m d out) result) :
    Unpacks (matchToken m d ++ rest) out result := by
  have htoken := toNat_matchByte (k := m - 4) (by omega)
  have hlength : (128 + (m - 4)) % 128 + 4 = m := by omega
  refine .of_step fun fuel hfuel => (unlzLoop_match (by omega) (toNat_le16 hwide) hd hout fuel).trans ?_
  rw [htoken, hlength]
  exact h fuel ((Nat.le_add_right _ 2).trans hfuel)

/-- Copying from `p` extends the first `i` bytes of the input by the bytes that stand at both places (R181). -/
theorem copyBack_take {input : List Byte} (m : Nat) : ∀ {p i : Nat}, p < i → i + m ≤ input.length →
    (∀ k < m, input[p + k]? = input[i + k]?) → copyBack m (i - p) (input.take i) = input.take (i + m) := by
  induction m with
  | zero => intros; rfl
  | succ m ih =>
    intro p i hp hinside hagree
    have hlen : (input.take i).length = i := List.length_take_of_le (by omega)
    have hfirst : input[p]? = input[i]? := hagree 0 m.succ_pos
    have hbyte : (input.take i).getD (i - (i - p)) 0 = input[i] := by
      rw [Nat.sub_sub_self hp.le, List.getD_eq_getElem?_getD, List.getElem?_take_of_lt hp,
        hfirst, List.getElem?_eq_getElem, Option.getD_some]
    have hnext := ih (p := p + 1) (i := i + 1) (by omega) (by omega) fun k hk => by
      rw [Nat.add_assoc, Nat.add_comm 1 k, Nat.add_assoc, Nat.add_comm 1 k]
      exact hagree (k + 1) (by omega)
    rw [copyBack, hlen, hbyte, List.take_append_getElem, ← Nat.add_sub_add_right i 1 p, hnext]
    congr 1
    omega

/-- `UNLZ` undoes the encoder from every position on (R183). -/
theorem LzParse.unpacks {input stream : List Byte} {ls : Nat} (hn : input.length ≤ 65535)
    (h : LzParse input ls stream) : Unpacks stream (input.take ls) input := by
  induction h with
  | last hls =>
    rw [← List.append_nil (flushLiterals ..)]
    refine .flushLiterals_append hls ?_
    rw [List.take_length]
    exact .nil input
  | @matched ls i p m rest hls hmatch _ ih =>
    obtain ⟨hp, hfour, hmax, hinside, hagree⟩ := hmatch
    have hlen : (input.take i).length = i := List.length_take_of_le (by omega)
    rw [List.append_assoc]
    refine .flushLiterals_append hls (.matchToken_append hfour hmax (by omega) (by omega) (by omega) ?_)
    rwa [copyBack_take m hp hinside hagree]

/-- Settles O22: every token of the stream appends to the output the bytes it stands for. -/
theorem refLzRoundTrip : Obligations.RefLzRoundTrip := by
  intro input hn
  cases hstream : (refLz input).1 with
  | none => exact absurd (refLz_eq_none_iff.1 hstream) hn.not_gt
  | some stream => exact ⟨stream, rfl, ((refLz_parses hstream).unpacks hn).unlz_eq⟩

/-! ## When REF-LZ fails -/

theorem compressedRange_refLz {s : State} (hcodec : s.cfg.codec = .refLz) (off n : Nat) :
    compressedRange off n s = boundedResult n (refLz (s.tb.readBytes .tb off n)).1 := by
  rw [compressedRange, hcodec]
  rfl

/-- A range of at most 65535 bytes never fails under REF-LZ (R185): its stream is within the bound. -/
theorem compressedRange_refLz_ne_none {s : State} (hcodec : s.cfg.codec = .refLz) {off n : Nat}
    (hn : n ≤ 65535) : compressedRange off n s ≠ none := by
  have hlen := Memory.readBytes_length .tb s.tb off n
  rw [compressedRange_refLz hcodec]
  cases hr : (refLz (s.tb.readBytes .tb off n)).1 with
  | none => exact absurd (refLz_eq_none_iff.1 hr) (by omega)
  | some r =>
    rw [boundedResult_of_le (hlen ▸ refLz_length_le_maxCompressedSize hr)]
    exact Option.some_ne_none r

/-- In a legal configuration with REF-LZ every group of a job has its frame (R185). -/
theorem groupFrame_refLz_ne_none {s : State} (hc : s.cfg.legal = true) (hcodec : s.cfg.codec = .refLz)
    {g : Group} (hg : g ∈ groupsOf s.cfg) : groupFrame s g ≠ none := by
  obtain ⟨-, -, -, -, -, hsize, -⟩ := legal_bounds hc
  have hbytes := group_bytes_le hc hg
  rw [groupFrame, Ne, Option.map_eq_none_iff]
  exact compressedRange_refLz_ne_none hcodec (by omega)

theorem mapM_option_ne_none {α β : Type} {f : α → Option β} {l : List α} (h : ∀ a ∈ l, f a ≠ none) :
    l.mapM f ≠ none := by
  induction l with
  | nil => exact Option.some_ne_none []
  | cons a l ih =>
    obtain ⟨ha, hl⟩ := List.forall_mem_cons.1 h
    obtain ⟨b, hb⟩ := Option.ne_none_iff_exists'.1 ha
    obtain ⟨r, hr⟩ := Option.ne_none_iff_exists'.1 (ih hl)
    simp [hb, hr]

theorem prepareJob_refLz_cause {s : State} (hc : s.cfg.legal = true) (hcodec : s.cfg.codec = .refLz)
    (hs : s.cause ≠ .compressionFailure) : (prepareJob s).cause ≠ .compressionFailure := by
  have hframes : (groupsOf s.cfg).mapM (groupFrame (transform s)) ≠ none :=
    mapM_option_ne_none fun g hg =>
      groupFrame_refLz_ne_none (by rwa [transform_cfg]) (by rwa [transform_cfg]) (by rwa [transform_cfg])
  rcases prepareJob_cases s with
    ⟨-, h⟩ | ⟨-, cb, cbLen, wm, ⟨-, h⟩ | ⟨-, hnone, -⟩ | ⟨list, -, -, h⟩⟩
  · rw [h]
    exact Code.noConfusion
  · rw [h]
    exact Code.noConfusion
  · exact absurd hnone hframes
  · simpa [h] using hs

/-- Outside Preparing the sequencer's turn passes (44_transmission_controller.md R233, log 3). -/
theorem exec_ctPrep_passes {s : State} (hp : s.phase ≠ .preparing) : exec .ctPrep s = .next s := by
  rw [exec, execCtPrep, decide_eq_false hp]
  rfl

/-- Settles O24: every stream is within the bound, and no group of a legal configuration is too long. -/
theorem refLzFailsOnlyWhenTooLong : Obligations.RefLzFailsOnlyWhenTooLong := by
  refine ⟨fun _ => refLz_eq_none_iff, fun s t hc hcodec hs h => ?_⟩
  by_cases hp : s.phase = .preparing
  · cases (exec_ctPrep_preparing hp).symm.trans h
    exact prepareJob_refLz_cause hc hcodec hs
  · cases (exec_ctPrep_passes hp).symm.trans h
    exact hs

end Sys2Proof.Machine

/-! The statements of 43_frame_encoder.md: the column groups tile the image, every field of a frame has its place
and the bytes sum to 0, the slices of a frame join to it, and a job has one frame for each group. -/

namespace Sys2Proof.Machine

/-! ## The column groups -/

theorem exec_feGroups (s : State) : exec .feGroups s = .next { s with uop := .groups (groupsOf s.cfg) } := rfl

theorem getElem_groupsOf (c : Config) {g : Nat} (h : g < (groupsOf c).length) :
    (groupsOf c)[g] = groupAt c (groupCount c) g := by
  simp [groupsOf]

/-- Every group but the last is `CHUNK_W` columns wide (43_frame_encoder.md R201). -/
theorem groupAt_width_of_lt (c : Config) {n g : Nat} (h : g + 1 < n) : (groupAt c n g).width = c.chunkW :=
  if_pos (by omega)

/-- The last group takes the remainder (R201). -/
theorem groupAt_width_last (c : Config) (g : Nat) : (groupAt c (g + 1) g).width = c.w - g * c.chunkW :=
  if_neg (by omega)

/-- The groups are consecutive (R202). -/
theorem groupAt_succ_col0 (c : Config) {n g : Nat} (h : g + 1 < n) :
    (groupAt c n (g + 1)).col0 = (groupAt c n g).col0 + (groupAt c n g).width := by
  rw [groupAt_width_of_lt c h]
  exact Nat.succ_mul g c.chunkW

/-- The last group starts inside the image, so it has a column, and it ends where the image ends (R202). -/
theorem groupAt_last_end {c : Config} (hc : c.legal = true) {g : Nat} (hg : g + 1 = groupCount c) :
    1 ≤ (groupAt c (groupCount c) g).width ∧
      (groupAt c (groupCount c) g).col0 + (groupAt c (groupCount c) g).width = c.w := by
  obtain ⟨-, -, hlow, -⟩ := groupCount_bounds hc
  rw [← hg, Nat.add_sub_cancel] at hlow
  rw [← hg, groupAt_width_last]
  exact ⟨Nat.sub_pos_of_lt hlow, Nat.add_sub_of_le hlow.le⟩

theorem one_le_groupAt_width {c : Config} (hc : c.legal = true) {g : Nat} (hg : g < groupCount c) :
    1 ≤ (groupAt c (groupCount c) g).width := by
  obtain ⟨-, -, -, -, -, -, hchunk, -⟩ := legal_bounds hc
  rcases Nat.lt_or_eq_of_le hg with hlt | hlast
  · rwa [groupAt_width_of_lt c hlt]
  · exact (groupAt_last_end hc hlast).1

/-- The groups to the left of a group fill the columns up to its first (R202). -/
theorem sum_widths_before (c : Config) {n k : Nat} (hk : k < n) :
    ((List.range k).map fun g => (groupAt c n g).width).sum = (groupAt c n k).col0 := by
  induction k with
  | zero => exact (Nat.zero_mul c.chunkW).symm
  | succ k ih => simp [List.range_succ, ih (by omega), groupAt_succ_col0 c hk]

/-- The widths sum to `W` (R202). -/
theorem sum_widths {c : Config} (hc : c.legal = true) : ((groupsOf c).map Group.width).sum = c.w := by
  obtain ⟨n, hn⟩ : ∃ n, n + 1 = groupCount c := ⟨_, Nat.sub_add_cancel (groupCount_bounds hc).1⟩
  have hend := (groupAt_last_end hc hn).2
  have hbefore := sum_widths_before c (n := groupCount c) (k := n) (by omega)
  rw [groupsOf, List.map_map]
  conv_lhs => rw [← hn, List.range_succ]
  simpa [Function.comp_def, hn, hbefore] using hend

/-- The two markers differ, so a frame carries the final one exactly when no frame remains (R205). -/
theorem typeMarker_eq_final_iff {c : Config} (hc : c.legal = true) {fr : Nat} :
    typeMarker c fr = c.typeFinal ↔ fr = 0 := by
  obtain ⟨-, -, -, -, -, -, -, -, hne, -⟩ := legal_bounds hc
  by_cases hfr : fr = 0 <;> simp [typeMarker, hfr, hne]

/-- Settles O25: the groups are consecutive, and the last one ends at `W`. -/
theorem groupLaws : Obligations.GroupLaws := by
  intro s hc
  refine ⟨groupsOf s.cfg, exec_feGroups s, groupsOf_length s.cfg, ?_, sum_widths hc, fun g hg => ?_, fun g hg => ?_⟩
  · rw [groupsOf_length]
    exact (groupCount_bounds hc).1
  · rw [getElem_groupsOf, groupsOf_length]
    rw [groupsOf_length] at hg
    refine ⟨rfl, rfl, one_le_groupAt_width hc hg, (groupAt_width_le hc).trans (min_le_right ..),
      groupAt_width_of_lt s.cfg, fun hlast => (groupAt_last_end hc hlast).2, ?_⟩
    rw [typeMarker_eq_final_iff hc]
    change groupCount s.cfg - 1 - g = 0 ↔ g + 1 = groupCount s.cfg
    omega
  · rw [getElem_groupsOf, getElem_groupsOf]
    exact groupAt_succ_col0 s.cfg (groupsOf_length s.cfg ▸ hg)

/-! ## The checksum -/

theorem exec_feCsum (body : List Byte) (s : State) :
    exec (.feCsum body) s = .next { s with uop := .checksum (checksumOf body) } := rfl

/-- The 8-bit subtraction from 0 is the subtraction from 256 (43_frame_encoder.md R206). -/
theorem checksumOf_toNat (body : List Byte) : (checksumOf body).toNat = (256 - byteSum body) % 256 := by
  have hsum : (body.foldl (· + ·) (0 : Byte)).toNat = byteSum body :=
    (foldl_add_toNat body 0).trans (congrArg (· % 256) (Nat.zero_add _))
  rw [checksumOf, BitVec.toNat_sub, hsum]
  rfl

/-- No word of a port names an operation that the encoder gives a label (30_encoding.md R105). -/
theorem decode_word_ne_of_label {i : Instr} {label : Byte} {args : BitVec 32} {data : List Byte}
    (he : encode i = .core label args data) (w : CmdWord) :
    decode (.cmd w) ≠ .ok i ∧ decode (.stat w) ≠ .ok i := by
  constructor <;> intro h <;> cases (encode_of_decode h).symm.trans he

/-- Settles O27: the checksum is what the running sum of the body lacks to 256. -/
theorem checksumMakesFrameSumZero : Obligations.ChecksumMakesFrameSumZero :=
  ⟨fun body => ⟨decode_encode (.feCsum body), decode_word_ne_of_label rfl⟩,
    fun s body => ⟨_, exec_feCsum body s, checksumOf_toNat body, byteSum_append_checksumOf body⟩,
    byteSum_frameOf⟩

/-! ## The fields of a frame -/

/-- The bytes `field` stand in `f` from position `k` on. -/
def FieldAt (f : List Byte) (k : Nat) (field : List Byte) : Prop :=
  ∃ before after, before.length = k ∧ before ++ field ++ after = f

theorem FieldAt.take_drop {f field : List Byte} {k n : Nat} (h : FieldAt f k field) (hn : field.length = n) :
    (f.drop k).take n = field := by
  obtain ⟨before, after, rfl, rfl⟩ := h
  subst hn
  simp

theorem FieldAt.getElem? {f : List Byte} {k : Nat} {b : Byte} (h : FieldAt f k [b]) : f[k]? = some b := by
  obtain ⟨before, after, rfl, rfl⟩ := h
  simp

/-- In a sequence of fields each stands after the bytes of the fields before it. -/
theorem fieldAt_flatten {fields : List (List Byte)} {i : Nat} {field : List Byte} (h : fields[i]? = some field) :
    FieldAt fields.flatten ((fields.take i).map List.length).sum field := by
  obtain ⟨hi, rfl⟩ := List.getElem?_eq_some_iff.1 h
  refine ⟨(fields.take i).flatten, (fields.drop (i + 1)).flatten, List.length_flatten, ?_⟩
  conv_rhs => rw [← List.take_append_drop i fields, List.drop_eq_getElem_cons hi]
  rw [List.flatten_append, List.flatten_cons, List.append_assoc]

/-- The fields of a frame as 30_encoding.md R110 lists them. -/
def frameFields (c : Config) (jobId : Half) (fr : Nat) (payload : List Byte) : List (List Byte) :=
  [[0x66], le16 (lengthValue payload.length), c.deviceId.toList, le16 jobId.toNat, [typeMarker c fr],
    framesRemainingField c fr, payload, c.endMarker.toList, [checksumOf (frameBody c jobId fr payload)]]

theorem frameOf_eq_flatten (c : Config) (jobId : Half) (fr : Nat) (payload : List Byte) :
    frameOf c jobId fr payload = (frameFields c jobId fr payload).flatten := by
  simp [frameOf, frameBody, frameFields]

theorem lengthValue_of_fits {n : Nat} (h : n + 17 ≤ 65535) : lengthValue n = n + 17 := if_pos h

@[simp] theorem le16_length (v : Nat) : (le16 v).length = 2 := rfl

@[simp] theorem framesRemainingField_length (c : Config) (fr : Nat) : (framesRemainingField c fr).length = 2 := by
  unfold framesRemainingField
  split <;> rfl

theorem frameBody_length (c : Config) (jobId : Half) (fr : Nat) (payload : List Byte) :
    (frameBody c jobId fr payload).length = 19 + payload.length := by
  have hframe := frameOf_length c jobId fr payload
  rw [frameOf, List.length_append, List.length_singleton] at hframe
  omega

/-- The checksum is over every byte before it (43_frame_encoder.md R206). -/
theorem take_frameOf (c : Config) (jobId : Half) (fr : Nat) (payload : List Byte) :
    (frameOf c jobId fr payload).take (19 + payload.length) = frameBody c jobId fr payload :=
  List.take_left' (frameBody_length c jobId fr payload)

/-- A field of a frame stands after the bytes of the fields before it. -/
theorem fieldAt_frameOf {c : Config} {jobId : Half} {fr : Nat} {payload field : List Byte} (i : Nat) {k : Nat}
    (hi : (frameFields c jobId fr payload)[i]? = some field)
    (hk : (((frameFields c jobId fr payload).take i).map List.length).sum = k) :
    FieldAt (frameOf c jobId fr payload) k field := by
  rw [frameOf_eq_flatten, ← hk]
  exact fieldAt_flatten hi

@[simp] theorem blockPayload_length (s : State) : (blockPayload s).length = s.cbLen :=
  Memory.readBytes_length ..

theorem exec_feBuild (fr : Half) (s : State) : exec (.feBuild fr) s =
    .next { s with uop := .frame (frameOf s.cfg s.jobId fr.toNat (blockPayload s)) } := rfl

/-- Settles O26: field by field of R110, each at the sum of the lengths before it. -/
theorem frameLayout : Obligations.FrameLayout := by
  intro s fr
  refine ⟨_, exec_feBuild fr s, ?length, (fieldAt_frameOf 0 rfl rfl).getElem?, fun hfits => ?lengthField,
    (fieldAt_frameOf 2 rfl rfl).take_drop (Vector.length_toList ..), ?jobId, ?marker, ?remaining, ?payload,
    ?endMarker, ?checksum⟩
  case length => rw [frameOf_length, blockPayload_length]
  case lengthField =>
    rw [← lengthValue_of_fits hfits, ← blockPayload_length s]
    exact (fieldAt_frameOf 1 rfl rfl).take_drop (le16_length _)
  case jobId => exact (fieldAt_frameOf 3 rfl (by simp [frameFields])).take_drop (le16_length _)
  case marker =>
    have hmarker : typeMarker s.cfg fr.toNat = if fr = 0 then s.cfg.typeFinal else s.cfg.typeData := by
      simp [typeMarker, ← BitVec.toNat_inj]
    rw [← hmarker]
    exact (fieldAt_frameOf 4 rfl (by simp [frameFields])).getElem?
  case remaining =>
    exact (fieldAt_frameOf 5 rfl (by simp [frameFields])).take_drop (framesRemainingField_length ..)
  case payload => exact (fieldAt_frameOf 6 rfl (by simp [frameFields])).take_drop (blockPayload_length s)
  case endMarker =>
    exact (fieldAt_frameOf 7 rfl (by simp [frameFields]; omega)).take_drop (Vector.length_toList ..)
  case checksum =>
    rw [← blockPayload_length s, take_frameOf]
    exact ⟨_, (fieldAt_frameOf 8 rfl (by simp [frameFields]; omega)).getElem?, checksumOf_toNat _⟩

/-! ## The slices of a frame -/

theorem exec_feSplit (frame : List Byte) (mtu k : Half) (s : State) : exec (.feSplit frame mtu k) s =
    .next (setUop (.slice
      ((slice? frame mtu.toNat k.toNat).getD (Config.unstatedSlice frame mtu.toNat k.toNat))
      (if mtu = 0 then Config.unstatedCount frame else nslices frame mtu.toNat)) s) := rfl

/-- A slice that is not the last is a full unit (43_frame_encoder.md R208). -/
theorem sliceOf_length_of_next {frame : Frame} {mtu k : Nat} (hm : 1 ≤ mtu) (hk : k + 1 < nslices frame mtu) :
    (sliceOf frame mtu k).length = mtu := by
  have hnext := (lt_nslices_iff frame hm).1 hk
  rw [Nat.succ_mul] at hnext
  rw [sliceOf, List.length_take, List.length_drop]
  omega

/-- The first `n` slices joined are the first `n` units of the frame. -/
theorem flatten_slices (frame : Frame) (mtu n : Nat) :
    ((List.range n).map (sliceOf frame mtu)).flatten = frame.take (n * mtu) := by
  induction n with
  | zero => simp
  | succ n ih =>
    rw [List.range_succ, List.map_append, List.flatten_append, ih, Nat.succ_mul, List.take_add]
    simp [sliceOf]

/-- The slices reach to the end of the frame. -/
theorem length_le_nslices_mul (frame : Frame) {mtu : Nat} (hm : 1 ≤ mtu) :
    frame.length ≤ nslices frame mtu * mtu :=
  Nat.le_of_not_lt fun h => Nat.lt_irrefl _ ((lt_nslices_iff frame hm).2 h)

/-- Settles O28: a slice in range is the one `slice?` finds, and all of them reach to the end of the frame. -/
theorem slicesJoinToFrame : Obligations.SlicesJoinToFrame := by
  refine ⟨fun s frame mtu k => ⟨_, _, exec_feSplit frame mtu k s, ?_⟩, fun frame mtu hm => ?_⟩
  · by_cases hm : 1 ≤ mtu.toNat
    · have hne : mtu ≠ 0 := by
        rintro rfl
        exact absurd hm (by decide)
      rw [if_neg hne]
      refine ⟨fun _ => rfl, fun _ hk => ?_⟩
      have hslice := slice?_eq_some_iff.2 ⟨⟨hm, hk⟩, rfl⟩
      obtain ⟨hpos, hle⟩ := slice?_length hslice
      rw [hslice]
      exact ⟨rfl, hpos, hle, sliceOf_length_of_next hm⟩
    · exact ⟨fun h => absurd h hm, fun h => absurd h hm⟩
  · rw [flatten_slices, List.take_of_length_le (length_le_nslices_mul frame hm)]

/-! ## The frames of a job -/

/-- `FE.JOB` writes what its compressor calls write, and reports its result. -/
theorem exec_feJob (s : State) : ∃ cb cbLen wm, exec .feJob s =
    .next { s with cb := cb, cbLen := cbLen, wm := wm, uop := .job (runJob s).2 } := by
  obtain ⟨cb, cbLen, wm, hkeeps⟩ := runJob_keeps s
  have hexec : exec .feJob s = .next (setUop (.job (runJob s).2) (runJob s).1) := rfl
  exact ⟨cb, cbLen, wm, by rw [hexec, hkeeps]; rfl⟩

/-- A legal configuration has a group, so `FE.JOB` answers by its groups' frames (43_frame_encoder.md R211). -/
theorem jobResult_of_legal {c : Config} (hc : c.legal = true) :
    jobResult (groupsOf c) none = .fail ∧ ∀ list, jobResult (groupsOf c) (some list) = .ok list := by
  have hne : (groupsOf c).isEmpty = false := by
    have hone := (groupCount_bounds hc).1
    rw [← groupsOf_length] at hone
    exact List.isEmpty_eq_false_iff.2 (List.length_pos_iff.1 hone)
  simp [jobResult, hne]

theorem groupFrame_eq_none_iff {s : State} {g : Group} :
    groupFrame s g = none ↔ compressedRange (g.col0 * s.cfg.bpc) (g.width * s.cfg.bpc) s = none :=
  Option.map_eq_none_iff

theorem groupFrame_eq_some_iff {s : State} {g : Group} {f : Frame} : groupFrame s g = some f ↔
    ∃ payload, compressedRange (g.col0 * s.cfg.bpc) (g.width * s.cfg.bpc) s = some payload ∧
      frameOf s.cfg s.jobId g.fr payload = f :=
  Option.map_eq_some_iff

/-- Settles O29: the list of `FE.JOB` is that of the groups' frames (`jobFrames_eq`), which is there when each
group has one. -/
theorem jobFramesEveryGroup : Obligations.JobFramesEveryGroup := by
  intro s hc
  obtain ⟨cb, cbLen, wm, hexec⟩ := exec_feJob s
  obtain ⟨hfail, hok⟩ := jobResult_of_legal hc
  refine ⟨cb, cbLen, wm, _, hexec, fun ⟨g, hg, hnone⟩ => ?failed, fun hall => ?framed⟩
  case failed =>
    rw [runJob_result, (mapM_option_none ..).2 ⟨g, hg, groupFrame_eq_none_iff.2 hnone⟩, hfail]
  case framed =>
    have hframes : ∀ g ∈ groupsOf s.cfg, groupFrame s g ≠ none := fun g hg =>
      groupFrame_eq_none_iff.not.2 (hall g hg)
    obtain ⟨list, hlist⟩ := Option.ne_none_iff_exists'.1 (mapM_option_ne_none hframes)
    obtain ⟨hlength, himage⟩ := mapM_option_some _ _ _ hlist
    refine ⟨list, by rw [runJob_result, hlist, hok], hlength, fun g hg => ?_⟩
    obtain ⟨hentry, hsome⟩ := himage g _ (List.getElem?_eq_getElem hg)
    obtain ⟨f, hf⟩ := Option.ne_none_iff_exists'.1 hsome
    obtain ⟨payload, hpayload, rfl⟩ := groupFrame_eq_some_iff.1 hf
    exact ⟨payload, hpayload, hentry.symm.trans hf⟩

end Sys2Proof.Machine

/-! The statements of 44_transmission_controller.md: what each command, status read, sequencer step and event does,
that a prepared job decodes to the picture, and that every change of `STATE` is a row of the transition table. -/

namespace Sys2Proof.Machine

open Host (Outcome)

/-! ## Turns that pass -/

/-- `CT.WRITE` has no step outside Sending, nor while the pacing delay is on (44_transmission_controller.md R235,
log 3). -/
theorem exec_ctWrite_passes {s : State} (h : s.phase ≠ .sending ∨ s.paceTimer ≠ 0) : exec .ctWrite s = .next s :=
  if_neg (not_and_or.2 h)

theorem waitEnabled_eq_false {s : State}
    (h : s.phase ≠ .awaitingAck ∨ (s.ackFlag = false ∧ s.ackTimer.toNat < s.cfg.ackTimeoutTicks)) :
    waitEnabled s = false := by
  rcases h with hp | ⟨hack, htimer⟩
  · simp [waitEnabled, hp]
  · simp [waitEnabled, deadlineOver, hack, htimer]

/-- `CT.WAIT` has no step outside AwaitingAck, nor before the acknowledgement and the deadline (R236, log 3). -/
theorem exec_ctWait_passes {s : State}
    (h : s.phase ≠ .awaitingAck ∨ (s.ackFlag = false ∧ s.ackTimer.toNat < s.cfg.ackTimeoutTicks)) :
    exec .ctWait s = .next s := by
  rw [exec, execCtWait, waitEnabled_eq_false h]
  rfl

/-- Settles O40, step by step. -/
theorem sequencerWaitsWhenNotEnabled : Obligations.SequencerWaitsWhenNotEnabled :=
  fun _ => ⟨exec_ctPrep_passes, exec_ctWrite_passes, exec_ctWait_passes⟩

/-- A notification is dropped outside AwaitingAck, and when the batch is acknowledged already (R238). -/
theorem exec_evNotify_dropped {s : State} (h : s.phase ≠ .awaitingAck ∨ s.ackFlag = true) (payload : List Byte) :
    exec (.evNotify payload) s = .next s := by
  have hexpected : ackExpected s = false := by rcases h with h | h <;> simp [ackExpected, h]
  rw [exec, execEvNotify, hexpected]
  rfl

/-- With no timer to move, a tick changes nothing (R243). -/
theorem tick_eq_self {s : State} (hp : s.phase ≠ .awaitingAck) (hpace : s.paceTimer = 0) : tick s = s := by
  have hack : tickedAckTimer s = s.ackTimer := if_neg fun h => hp h.1
  have hdown : tickedPaceTimer s = s.paceTimer := by rw [tickedPaceTimer, if_pos hpace, hpace]
  rw [tick, hack, hdown]

theorem exec_evTick_passes {s : State} (hp : s.phase ≠ .awaitingAck) (hpace : s.paceTimer = 0) :
    exec .evTick s = .next s :=
  congrArg Outcome.next (tick_eq_self hp hpace)

/-! ## Host commands -/

/-- An operation with a CMD word takes its effect, whatever that is, through the CMD port (R232). -/
theorem exec_eq_onCmdPort {i : Instr} {w : CmdWord} (hw : encode i = .cmd w) (s : State) :
    ∃ effect, exec i s = .next (onCmdPort (.cmd w) s effect) := by
  rw [← hw]
  cases i with
  | pbSet | pbClrpx | pbGet | pbFill | pbClear | tcStart | tcAbort | tcRelease => exact ⟨_, rfl⟩
  | _ => cases hw

/-- Settles O8: whatever a command's effect would be, the busy port holds its word (`onCmdPort_busy`). -/
theorem commandsWaitWhilePreparing : Obligations.CommandsWaitWhilePreparing := by
  intro s hp i w hw
  obtain ⟨effect, hexec⟩ := exec_eq_onCmdPort hw s
  rw [hexec, onCmdPort_busy hp]
  rfl

theorem exec_tcStart_free {s : State} (hp : s.phase ≠ .preparing) : exec .tcStart s = .next (startJob s) := by
  rw [exec, execTcStart, onCmdPort_free hp]

theorem exec_tcAbort_free {s : State} (hp : s.phase ≠ .preparing) : exec .tcAbort s = .next (abortJob s) := by
  rw [exec, execTcAbort, onCmdPort_free hp]

theorem exec_tcRelease_free {s : State} (hp : s.phase ≠ .preparing) :
    exec .tcRelease s = .next (releaseJob s) := by
  rw [exec, execTcRelease, onCmdPort_free hp]

/-- Settles O30, check by check in the order of R231. -/
theorem startAcceptsOrRejects : Obligations.StartAcceptsOrRejects := by
  refine ⟨decode_encode .tcStart, fun s hp => ?_⟩
  rw [exec_tcStart_free hp]
  refine ⟨fun hidle hlink hmtu => ?accepted, fun hidle hnone => ?noTransport, fun hbusy => ?inProgress⟩
  case accepted =>
    rw [startJob, if_neg (not_not.2 hidle), if_neg (not_or.2 ⟨by simp [hlink], hmtu⟩)]
    rfl
  case noTransport =>
    rw [startJob, if_neg (not_not.2 hidle), if_pos hnone]
    rfl
  case inProgress =>
    rw [startJob, if_pos hbusy]
    rfl

/-- Settles O31: the port is free in all five states, and the job is in flight in the first two. -/
theorem abortFailsJobInFlight : Obligations.AbortFailsJobInFlight := by
  refine ⟨decode_encode .tcAbort, fun s => ⟨fun hp => ?inFlight, fun hp => ?noJob⟩⟩
  case inFlight =>
    rw [exec_tcAbort_free (by rcases hp with hp | hp <;> simp [hp]), abortJob, if_pos hp]
    rfl
  case noJob =>
    have hfree : s.phase ≠ .preparing ∧ ¬(s.phase = .sending ∨ s.phase = .awaitingAck) := by
      rcases hp with hp | hp | hp <;> simp [hp]
    rw [exec_tcAbort_free hfree.1, abortJob, if_neg hfree.2]
    rfl

/-- Settles O32: the port is free in all five states, and the job is over in the first two. -/
theorem releaseClearsTerminalState : Obligations.ReleaseClearsTerminalState := by
  refine ⟨decode_encode .tcRelease, fun s => ⟨fun hp => ?terminal, fun hp => ?notTerminal⟩⟩
  case terminal =>
    rw [exec_tcRelease_free (by rcases hp with hp | hp <;> simp [hp]), releaseJob, if_pos hp]
    rfl
  case notTerminal =>
    have hfree : s.phase ≠ .preparing ∧ ¬(s.phase = .completed ∨ s.phase = .failed) := by
      rcases hp with hp | hp | hp <;> simp [hp]
    rw [exec_tcRelease_free hfree.1, releaseJob, if_neg hfree.2]
    rfl

/-! ## Status reads -/

theorem setWidth_ofBool (b : Bool) : (BitVec.ofBool b).setWidth 16 = if b then 1 else 0 := by
  cases b <;> rfl

theorem answerQuery_eq (bit : Bool) (s : State) :
    answerQuery bit s = { s with result := bit, statData := if bit then 1 else 0 } := by
  rw [← setWidth_ofBool]
  rfl

theorem Phase.printing_iff (p : Phase) :
    p.printing = true ↔ p = .preparing ∨ p = .sending ∨ p = .awaitingAck := by
  cases p <;> decide

theorem exec_stIsprint (s : State) : exec .stIsprint s = .next (answerQuery s.phase.printing s) := rfl

/-- Settles O33: both queries answer one bit (`answerQuery_eq`), ST.ISPRINT that of `Phase.printing`. -/
theorem statusQueriesAnswer : Obligations.StatusQueriesAnswer := by
  refine ⟨decode_encode .stIsconn, decode_encode .stIsprint, fun s => ⟨?conn, fun hp => ?active, fun hp => ?inactive⟩⟩
  case conn => exact congrArg Outcome.next (answerQuery_eq s.env.linkReady s)
  case active =>
    rw [exec_stIsprint, (Phase.printing_iff _).2 hp, answerQuery_eq]
    rfl
  case inactive =>
    have hnot : s.phase.printing = false := by rcases hp with hp | hp | hp <;> rw [hp] <;> rfl
    rw [exec_stIsprint, hnot, answerQuery_eq]
    rfl

/-! ## The register map of the STAT port -/

theorem statRegister_control (s : State) {a : Byte} (h : a.toNat < 0x10) : statRegister s a = statControl s a.toNat :=
  if_pos h

theorem statRegister_lastAck (s : State) {k : Nat} (hk : k < 16) :
    statRegister s (BitVec.ofNat 8 (0x10 + k)) = lastAckWord s k := by
  have ha : (BitVec.ofNat 8 (0x10 + k)).toNat = 0x10 + k := by
    rw [BitVec.toNat_ofNat, Nat.mod_eq_of_lt (by omega)]
  rw [statRegister, ha, if_neg (by omega), if_pos (by omega), Nat.add_sub_cancel_left]

theorem statRegister_config (s : State) {k : Nat} (hk : k < 16) :
    statRegister s (BitVec.ofNat 8 (0x20 + k)) = statConfig s.cfg k := by
  have ha : (BitVec.ofNat 8 (0x20 + k)).toNat = 0x20 + k := by
    rw [BitVec.toNat_ofNat, Nat.mod_eq_of_lt (by omega)]
  rw [statRegister, ha, if_neg (by omega), if_neg (by omega), if_pos (by omega), Nat.add_sub_cancel_left]

/-- An address that is not in the map reads 0 (10_state.md R38). -/
theorem statRegister_unmapped (s : State) {a : Byte}
    (h : a.toNat = 0x0D ∨ a.toNat = 0x0E ∨ a.toNat = 0x0F ∨ 0x30 ≤ a.toNat) : statRegister s a = 0 := by
  rcases h with h | h | h | h
  · rw [statRegister_control s (by omega), h]; rfl
  · rw [statRegister_control s (by omega), h]; rfl
  · rw [statRegister_control s (by omega), h]; rfl
  · rw [statRegister, if_neg (by omega), if_neg (by omega), if_neg (by omega)]

/-- The lower-indexed byte of a pair stands in bits 7:0 (R38). -/
theorem packBytes_toNat (lo hi : Byte) : (packBytes lo hi).toNat = lo.toNat + 256 * hi.toNat := by
  have hlo := lo.isLt
  rw [packBytes, BitVec.toNat_append, ← Nat.shiftLeft_add_eq_or_of_lt hlo, Nat.shiftLeft_eq]
  omega

/-- The numbers of 10_state.md R26. -/
theorem phase_numbers : ∀ x ∈ [(Phase.idle, 0), (.preparing, 1), (.sending, 2), (.awaitingAck, 3), (.completed, 4),
    (.failed, 5)], (x.1.bits.setWidth 16).toNat = x.2 := by
  decide

/-- The codes of 60_exceptions.md R281. -/
theorem code_numbers : ∀ x ∈ [(Code.ok, 0), (.allocationFailure, 1), (.compressionFailure, 2), (.noTransport, 3),
    (.ackTimeout, 4), (.jobInProgress, 5), (.writeFailure, 6), (.emptyFrameList, 7), (.aborted, 8),
    (.illegalCommand, 9), (.noEffect, 10)], (x.1.bits.setWidth 16).toNat = x.2 := by
  decide

/-- Bit by bit of the `FLAGS` view (R37). -/
theorem flags_getLsbD (s : State) (b : Nat) : s.flags.getLsbD b =
    (decide (b = 0) && s.ackFlag || decide (b = 1) && s.env.linkReady ||
      decide (b = 2) && decide (s.phase = .preparing ∨ s.phase = .sending ∨ s.phase = .awaitingAck) ||
      decide (b = 3) && decide (s.phase = .preparing)) := by
  have hprint : s.phase.printing = decide (s.phase = .preparing ∨ s.phase = .sending ∨ s.phase = .awaitingAck) := by
    cases s.phase <;> rfl
  rw [← hprint]
  simp only [State.flags, State.cmdBusy, BitVec.getLsbD_append, BitVec.getLsbD_ofBool]
  match b with
  | 0 | 1 | 2 | 3 => simp
  | b + 4 => simp

theorem toList_getD {n i : Nat} (v : Vector Byte n) (h : i < n) : v.toList.getD i 0 = v[i] := by
  simp [h]

theorem deviceIdWord_toNat (c : Config) {k : Nat} (hk : k < 4) :
    (deviceIdWord c k).toNat = (c.deviceId[2 * k]).toNat + 256 * (c.deviceId[2 * k + 1]).toNat := by
  rw [deviceIdWord, packBytes_toNat, toList_getD, toList_getD]

/-- `END_MARKER` has three bytes, so the second pair's high byte reads 0 (R38). -/
theorem endMarkerWord_toNat (c : Config) :
    (endMarkerWord c 0).toNat = (c.endMarker[0]).toNat + 256 * (c.endMarker[1]).toNat ∧
      (endMarkerWord c 1).toNat = (c.endMarker[2]).toNat := by
  have hnone : c.endMarker.toList.getD 3 0 = 0 := by simp
  rw [endMarkerWord, endMarkerWord, packBytes_toNat, packBytes_toNat]
  exact ⟨by rw [toList_getD, toList_getD], by rw [toList_getD, hnone]; rfl⟩

theorem statConfig_deviceId (c : Config) {k : Nat} (hk : k < 4) : statConfig c (0xA + k) = deviceIdWord c k := by
  interval_cases k <;> rfl

theorem toNat_ofNat_half {n : Nat} (h : n ≤ 65535) : (BitVec.ofNat 16 n).toNat = n :=
  Nat.mod_eq_of_lt (Nat.lt_succ_of_le h)

/-- The registers 0x20 to 0x2F, by their numbers (10_state.md R38, R39). -/
theorem statConfig_toNat {c : Config} (hc : c.legal = true) :
    (statConfig c 0x0).toNat = c.w ∧ (statConfig c 0x1).toNat = c.h ∧ (statConfig c 0x2).toNat = c.h / 8 ∧
      (statConfig c 0x3).toNat = c.w * c.h / 8 ∧ (statConfig c 0x4).toNat = c.chunkW ∧
      (statConfig c 0x5).toNat = (c.bitmapSize + c.bitmapSize / 16 + 67) % 65536 ∧
      (statConfig c 0x6).toNat = c.ackTimeoutTicks ∧ (statConfig c 0x7).toNat = c.pacingTicks := by
  obtain ⟨-, hw, -, hh, -, hsize, -, hchunk, -, -, hack, hpace, -⟩ := legal_bounds hc
  exact ⟨toNat_ofNat_half (by omega), toNat_ofNat_half (by omega),
    toNat_ofNat_half ((Nat.div_le_self ..).trans (by omega)), toNat_ofNat_half hsize, toNat_ofNat_half hchunk,
    BitVec.toNat_ofNat .., toNat_ofNat_half hack, toNat_ofNat_half hpace⟩

/-- Settles O34 with `statRegister` for the map: group by group of the addresses of R38. -/
theorem statReadFollowsRegisterMap : Obligations.StatReadFollowsRegisterMap := by
  intro s hc
  obtain ⟨hw, hh, hbpc, hsize, hchunk, hmax, hack, hpace⟩ := statConfig_toNat hc
  refine ⟨statRegister s, fun a => ⟨decode_encode (.stRd a), rfl⟩, ?phase, ?codes, rfl, rfl, rfl, rfl,
    flags_getLsbD s, rfl, setWidth_ofBool s.result, rfl, rfl, ?ackLen, ?lastAck, hw, hh, hbpc, hsize, hchunk, hmax,
    hack, hpace, packBytes_toNat .., setWidth_ofBool s.cfg.frBigEndian, ?deviceId, ?markerLow, ?markerHigh,
    fun _ => statRegister_unmapped s⟩
  case phase =>
    rintro _ n hn rfl
    exact phase_numbers _ hn
  case codes =>
    refine fun c n hn => ⟨?_, ?_⟩ <;> rintro rfl
    · exact code_numbers _ hn
    · exact code_numbers _ hn
  case ackLen => exact BitVec.toNat_setWidth_of_le (show 6 ≤ 16 by decide)
  case lastAck =>
    intro k hk
    rw [statRegister_lastAck s hk, lastAckWord, packBytes_toNat]
  case deviceId =>
    intro k hk
    have ha : 0x2A + k = 0x20 + (0xA + k) := by omega
    rw [ha, statRegister_config s (by omega), statConfig_deviceId _ hk, deviceIdWord_toNat _ hk]
  case markerLow => exact (endMarkerWord_toNat s.cfg).1
  case markerHigh => exact (endMarkerWord_toNat s.cfg).2

/-! ## Preparation -/

/-- A stream that the compressor answers is turned back into its input by its decoder (42_block_compressor.md R175,
R183). -/
theorem decoderOf_runLz {codec : Codec} {input stream : List Byte} (hn : input.length ≤ 65535)
    (h : (runLz codec input).1 = some stream) : decoderOf codec stream = some input := by
  have hrefLz : (refLz input).1 = some stream → unlz stream = some input := fun hr =>
    ((refLz_parses hr).unpacks hn).unlz_eq
  cases codec with
  | refLz => exact hrefLz h
  | refLzUpTo limit =>
    by_cases hlimit : input.length ≤ limit
    · simp only [runLz, if_pos hlimit] at h
      exact hrefLz h
    · simp [runLz, hlimit] at h
  | custom k => exact (conformingLz_some h).2

theorem boundedResult_some {n : Nat} {result : Option (List Byte)} {r : List Byte}
    (h : boundedResult n result = some r) : result = some r := by
  cases result with
  | none => cases h
  | some r' =>
    rw [boundedResult, Option.ite_none_right_eq_some] at h
    exact h.2

theorem decoderOf_compressedRange {s : State} {off n : Nat} {stream : List Byte} (hn : n ≤ 65535)
    (h : compressedRange off n s = some stream) :
    decoderOf s.cfg.codec stream = some (s.tb.readBytes .tb off n) :=
  decoderOf_runLz (by rwa [Memory.readBytes_length]) (boundedResult_some h)

/-- Every group of a legal job has a frame, where the `LZ` compresses every group or is REF-LZ (R185). -/
theorem exists_preparedFrames {s : State} (hc : s.cfg.legal = true)
    (hlz : s.cfg.codec = .refLz ∨ ∀ g ∈ groupsOf s.cfg,
      compressedRange (g.col0 * s.cfg.bpc) (g.width * s.cfg.bpc) (transform s) ≠ none) :
    ∃ list, (groupsOf s.cfg).mapM (groupFrame (transform s)) = some list := by
  refine Option.ne_none_iff_exists'.1 (mapM_option_ne_none fun g hg => ?_)
  rcases hlz with hcodec | hall
  · exact groupFrame_refLz_ne_none (by rwa [transform_cfg]) (by rwa [transform_cfg]) (by rwa [transform_cfg])
  · exact groupFrame_eq_none_iff.not.2 (hall g hg)

/-- The three stages write `TB`, and do not look at `PACE_TIMER`. -/
theorem transform_setPace (v : Half) (s : State) : transform (setPace v s) = setTb (transform s).tb (setPace v s) :=
  rfl

/-- With memory and a frame for every group, preparation goes to Sending with those frames (R233). -/
theorem prepareJob_sends {s : State} (hc : s.cfg.legal = true) (ha : s.env.allocOk = true) {list : List Frame}
    (hlist : (groupsOf s.cfg).mapM (groupFrame (transform s)) = some list) :
    ∃ cb cbLen wm, prepareJob s = startSending list (setBlock cb cbLen wm (transform (setPace 0 s))) := by
  obtain ⟨cb, cbLen, wm, hkeeps⟩ := runJob_keeps (transform (setPace 0 s))
  have hframes : groupFrame (transform (setPace 0 s)) = groupFrame (transform s) := groupFrame_congr rfl rfl rfl
  refine ⟨cb, cbLen, wm, ?_⟩
  rw [prepareJob_with_memory ha, hkeeps, runJob_result, hframes]
  rw [transform_cfg, setPace_cfg, hlist, (jobResult_of_legal hc).2 list, finishPrep]

/-- Settles O35: the list is that of the groups' frames, and each payload is a stream of the contract. -/
theorem preparedFramesDecodeToTheImage : Obligations.PreparedFramesDecodeToTheImage := by
  intro s hc hp ha hlz
  obtain ⟨list, hlist⟩ := exists_preparedFrames hc hlz
  obtain ⟨cb, cbLen, wm, hprep⟩ := prepareJob_sends hc ha hlist
  obtain ⟨hlength, himage⟩ := mapM_option_some _ _ _ hlist
  refine ⟨(transform s).tb, cb, cbLen, wm, list, ?_, fun x y => bitOf_transform hc, hlength,
    (preparedFrames_good hc hlist).2.1, fun g hg => ?_⟩
  · rw [exec_ctPrep_preparing hp, hprep, transform_setPace]
    rfl
  · obtain ⟨hentry, hsome⟩ := himage g _ (List.getElem?_eq_getElem hg)
    obtain ⟨f, hf⟩ := Option.ne_none_iff_exists'.1 hsome
    obtain ⟨payload, hpayload, rfl⟩ := groupFrame_eq_some_iff.1 hf
    obtain ⟨-, -, -, -, -, hsize, -⟩ := legal_bounds hc
    have hbytes := group_bytes_le hc (List.getElem_mem hg)
    have hfr : (groupsOf s.cfg)[g].fr = (groupsOf s.cfg).length - 1 - g := by
      rw [getElem_groupsOf, groupsOf_length, groupAt]
    rw [transform_cfg, transform_jobId, hfr] at hf
    rw [transform_cfg] at hpayload
    refine ⟨payload, hpayload, hentry.symm.trans hf, byteSum_frameOf .., ?_⟩
    have hdecode := decoderOf_compressedRange (by omega) hpayload
    rwa [transform_cfg] at hdecode

/-! ## Writing -/

/-- `CT.WRITE` with the frame and the slice of its position there (R235). -/
theorem exec_ctWrite_enabled {s : State} {f : Frame} {bytes : List Byte} (hp : s.phase = .sending)
    (hpace : s.paceTimer = 0) (hf : s.frames[s.cur.toNat]? = some f)
    (hs : slice? f s.mtuL.toNat s.sub.toNat = some bytes) :
    exec .ctWrite s = .next (writeSlice bytes (nslices f s.mtuL.toNat) s) := by
  simp [exec, execCtWrite, hp, hpace, hf, hs]

theorem writeSlice_accepted {s : State} (htx : s.env.txOk = true) (bytes : List Byte) (count : Nat) :
    writeSlice bytes count s = afterWrite count (present bytes s) := if_pos htx

/-- Settles O37: the slice is there, and its number says whether it is the last of the batch. -/
theorem writeAcceptedAdvances : Obligations.WriteAcceptedAdvances := by
  intro s f hp hpace htx hf hmtu hsub
  have hslice := slice?_eq_some_iff.2 ⟨⟨hmtu, hsub⟩, rfl⟩
  rw [exec_ctWrite_enabled hp hpace hf hslice, writeSlice_accepted htx, ← htx]
  exact ⟨fun hlast => congrArg Outcome.next (if_pos hlast), fun hmore => congrArg Outcome.next (if_neg hmore)⟩

/-! ## Waiting -/

theorem exec_ctWait_enabled {s : State} (h : waitEnabled s = true) : exec .ctWait s = .next (consumeAck s) := by
  rw [exec, execCtWait, h]
  rfl

theorem waitEnabled_of_ack {s : State} (hp : s.phase = .awaitingAck) (hack : s.ackFlag = true) :
    waitEnabled s = true := by
  simp [waitEnabled, hp, hack]

theorem waitEnabled_of_deadline {s : State} (hp : s.phase = .awaitingAck)
    (hover : s.cfg.ackTimeoutTicks ≤ s.ackTimer.toNat) : waitEnabled s = true := by
  simp [waitEnabled, deadlineOver, hp, hover]

/-- Settles O39: a set flag is looked at first (R236), so the timer counts only without it. -/
theorem waitConsumesAckOrTimesOut : Obligations.WaitConsumesAckOrTimesOut := by
  refine ⟨labelOnly_of_encode rfl rfl, fun s hp =>
    ⟨fun hack hcur => ?allSent, fun hack hcur => ?nextFrame, fun hack hover => ?timedOut⟩⟩
  case allSent =>
    rw [exec_ctWait_enabled (waitEnabled_of_ack hp hack), consumeAck, if_pos hack, if_pos hcur]
    rfl
  case nextFrame =>
    rw [exec_ctWait_enabled (waitEnabled_of_ack hp hack), consumeAck, if_pos hack, if_neg hcur]
    rfl
  case timedOut =>
    rw [exec_ctWait_enabled (waitEnabled_of_deadline hp hover), consumeAck, if_neg (by simp [hack])]
    rfl

/-! ## Events -/

theorem exec_evNotify_accepted {s : State} (hp : s.phase = .awaitingAck) (hack : s.ackFlag = false)
    (payload : List Byte) : exec (.evNotify payload) s = .next (acceptAck payload s) := by
  have hexpected : ackExpected s = true := by simp [ackExpected, hp, hack]
  rw [exec, execEvNotify, hexpected]
  rfl

/-- The bytes `LAST_ACK` keeps are those of the payload, and 0 where it has none (R238). -/
theorem keptPayload_getElem? {ackMax i : Nat} (hi : i < ackMax) (payload : List Byte) :
    (keptPayload ackMax payload)[i]? = some (payload.getD i 0) := by
  by_cases hlen : i < payload.length
  · simp [keptPayload, List.getElem?_append, hi, hlen]
  · have hrest : i - min ackMax payload.length < ackMax - payload.length := by omega
    simp [keptPayload, List.getElem?_append, hlen, hrest]

/-- `ACK_MAX` is at most 32, so `LAST_ACK_LEN` holds the number of bytes kept (10_state.md R33). -/
theorem acceptAck_lastAckLen_toNat {s : State} (hc : s.cfg.legal = true) (payload : List Byte) :
    (acceptAck payload s).lastAckLen.toNat = min payload.length s.cfg.ackMax := by
  obtain ⟨-, -, -, -, -, -, -, -, -, -, -, -, -, hmax, -⟩ := legal_bounds hc
  rw [acceptAck_lastAckLen, BitVec.toNat_ofNat, Nat.mod_eq_of_lt (by omega)]

/-- Settles O41: a notification is accepted (`exec_evNotify_accepted`) or dropped (`exec_evNotify_dropped`). -/
theorem notifyAcknowledgesOnce : Obligations.NotifyAcknowledgesOnce := fun _ payload hc =>
  ⟨decode_encode (.evNotify payload),
    fun hp hack => ⟨_, _, exec_evNotify_accepted hp hack payload, acceptAck_lastAckLen_toNat hc payload,
      keptPayload_length .., fun _ hi => keptPayload_getElem? hi payload⟩,
    fun h => exec_evNotify_dropped h payload⟩

theorem tickedAckTimer_toNat {s : State} (hp : s.phase = .awaitingAck) :
    (tickedAckTimer s).toNat = min (s.ackTimer.toNat + 1) 65535 := by
  rw [tickedAckTimer]
  split
  next h => bv_omega
  next h =>
    have hmax : ¬s.ackTimer.toNat < 65535 := fun hlt => h ⟨hp, hlt⟩
    bv_omega

theorem tickedPaceTimer_toNat (s : State) : (tickedPaceTimer s).toNat = s.paceTimer.toNat - 1 := by
  rw [tickedPaceTimer]
  split
  next h => rw [h]; rfl
  next h => bv_omega

/-- Settles O42, timer by timer: the saturation and the stop at 0 are the branches of the two. -/
theorem tickAdvancesTimers : Obligations.TickAdvancesTimers :=
  ⟨labelOnly_of_encode rfl rfl, fun s =>
    ⟨_, _, rfl, tickedAckTimer_toNat, fun hp => if_neg fun h => hp h.1, tickedPaceTimer_toNat s⟩⟩

/-! ## Changes of `STATE` -/

theorem groupsOf_eq_nil_iff {c : Config} : groupsOf c = [] ↔ groupCount c = 0 := by
  rw [← groupsOf_length, List.length_eq_zero_iff]

/-- Preparation takes one of its four rows of R244. -/
theorem prepareJob_transition {s : State} (hp : s.phase = .preparing) : Transition s (prepareJob s) .ctPrep := by
  rcases prepareJob_cases s with
    ⟨ha, h⟩ | ⟨ha, cb, cbLen, wm, ⟨hnil, h⟩ | ⟨-, hnone, h⟩ | ⟨list, hne, hlist, h⟩⟩ <;> rw [h]
  · exact .noAllocation hp ha rfl rfl
  · exact .noFrames hp ha (groupsOf_eq_nil_iff.1 hnil) rfl rfl
  · obtain ⟨g, hg, hfails⟩ := (mapM_option_none ..).1 hnone
    exact .noCompression hp ha ⟨g, hg, groupFrame_eq_none_iff.1 hfails⟩ rfl rfl
  · have hcount := groupsOf_eq_nil_iff.not.1 hne
    refine .prepared hp ha (Nat.one_le_iff_ne_zero.2 hcount) (fun g hg hfails => ?_) ?_ rfl rfl rfl
    · have hnone := (mapM_option_none (groupFrame (transform s)) _).2 ⟨g, hg, groupFrame_eq_none_iff.2 hfails⟩
      exact Option.some_ne_none list (hlist.symm.trans hnone)
    · exact (mapM_option_some _ _ _ hlist).1.trans (groupsOf_length _)

theorem exec_ctPrep_transition {s t : State} (hp : s.phase = .preparing) (h : exec .ctPrep s = .next t) :
    Transition s t .ctPrep := by
  obtain rfl : prepareJob s = t := Outcome.next.inj ((exec_ctPrep_preparing hp).symm.trans h)
  exact prepareJob_transition hp

/-- A write that changes `STATE` ends its batch or fails (R235). -/
theorem execCtWrite_transition {s t : State} (h : execCtWrite s = .next t) (hne : t.phase ≠ s.phase) :
    Transition s t .ctWrite := by
  rcases execCtWrite_cases h with ⟨-, rfl⟩ | ⟨hp, -, f, bytes, hf, -, rfl⟩
  · exact absurd rfl hne
  · rcases writeSlice_cases bytes (nslices f s.mtuL.toNat) s with ⟨htx, hw⟩ | ⟨htx, hlast, hw⟩ | ⟨-, -, hw⟩ <;>
      rw [hw] at hne ⊢
    · exact .writeFailed hp htx rfl rfl
    · exact .batchWritten f hp htx hf hlast rfl rfl
    · exact absurd rfl hne

/-- Settles O49: of all effects only these change `STATE`, each by its row of R244. -/
theorem stateChangesFollowTable : Obligations.StateChangesFollowTable := by
  intro s t i h hne
  cases exec_effect h with
  | starts hp hlink hmtu =>
    refine .start hp hlink ?_ rfl rfl rfl
    bv_omega
  | aborts hp => exact .aborted hp rfl rfl
  | releases hp => exact .released hp rfl rfl
  | failsPreparing hp | prepares hp => exact exec_ctPrep_transition hp h
  | failsWrite | endsBatch => exact execCtWrite_transition h hne
  | completes hp hack hcur => exact .allSent hp hack hcur rfl
  | startsBatch hp hack hcur => exact .nextFrame hp hack hcur rfl rfl
  | timesOut hp hack hover => exact .timedOut hp hack hover rfl rfl
  | resets => exact .reset rfl
  | _ => exact absurd rfl hne

/-! ## Terminal states -/

/-- Of all rows of R244 only the release and reset leave Completed and Failed. -/
theorem Transition.from_terminal {s t : State} {i : Instr} (h : Transition s t i)
    (hp : s.phase = .completed ∨ s.phase = .failed) : i = .tcRelease ∨ i = .evReset := by
  cases h with
  | released => exact .inl rfl
  | reset => exact .inr rfl
  | aborted hs => rcases hs with hs | hs <;> simp [hs] at hp
  | start hs | prepared hs | noAllocation hs | noCompression hs | noFrames hs | batchWritten _ hs | writeFailed hs
  | nextFrame hs | allSent hs | timedOut hs => simp [hs] at hp

/-- Settles O57: no sequencer step and no notification is due in a terminal state, and every change of `STATE` is
a row of the table (`stateChangesFollowTable`). -/
theorem terminalStatesStay : Obligations.TerminalStatesStay := by
  intro s hp
  obtain ⟨hprep, hsend, hwait⟩ : s.phase ≠ .preparing ∧ s.phase ≠ .sending ∧ s.phase ≠ .awaitingAck := by
    rcases hp with hp | hp <;> simp [hp]
  refine ⟨exec_ctPrep_passes hprep, exec_ctWrite_passes (.inl hsend), exec_ctWait_passes (.inl hwait),
    exec_evNotify_dropped (.inl hwait), exec_evTick_passes hwait,
    fun hinv => exec_evTick_passes hwait (hinv.pace_sending hsend), fun i t h hrelease hreset => ?_⟩
  by_contra hne
  rcases (stateChangesFollowTable s t i h hne).from_terminal hp with hi | hi
  · exact hrelease hi
  · exact hreset hi

end Sys2Proof.Machine

/-! The statements of 60_exceptions.md: how a job fails in preparation, in a write and at the deadline, and what each
failure leaves. -/

namespace Sys2Proof.Machine

/-! ## Preparation that fails -/

/-- With memory and a group that does not compress, preparation fails once `FE.JOB` has answered
(60_exceptions.md R283). -/
theorem prepareJob_compressionFailure {s : State} (ha : s.env.allocOk = true) {g : Group} (hg : g ∈ groupsOf s.cfg)
    (hfails : compressedRange (g.col0 * s.cfg.bpc) (g.width * s.cfg.bpc) (transform s) = none) :
    ∃ cb cbLen wm,
      prepareJob s = fail .compressionFailure (setBlock cb cbLen wm (transform (setPace 0 s))) := by
  have hnone : (groupsOf s.cfg).mapM (groupFrame (transform s)) = none :=
    (mapM_option_none ..).2 ⟨g, hg, groupFrame_eq_none_iff.2 hfails⟩
  rcases prepareJob_cases s with
    ⟨hno, -⟩ | ⟨-, cb, cbLen, wm, ⟨hnil, -⟩ | ⟨-, -, h⟩ | ⟨list, -, hlist, -⟩⟩
  · exact absurd (ha.symm.trans hno) Bool.noConfusion
  · exact absurd hg (hnil ▸ List.not_mem_nil)
  · exact ⟨cb, cbLen, wm, h⟩
  · exact absurd (hlist.symm.trans hnone) (Option.some_ne_none list)

/-- A preparation that ends in Failed has built no frame and moved no cursor (44_transmission_controller.md R233). -/
theorem prepareJob_failed_keeps {s : State} (h : (prepareJob s).phase = .failed) :
    (prepareJob s).frames = s.frames ∧ (prepareJob s).nframes = s.nframes ∧ (prepareJob s).cur = s.cur ∧
      (prepareJob s).sub = s.sub := by
  rcases prepareJob_cases s with
    ⟨-, hc⟩ | ⟨-, cb, cbLen, wm, ⟨-, hc⟩ | ⟨-, -, hc⟩ | ⟨list, -, -, hc⟩⟩ <;> rw [hc] at h ⊢
  · simp
  · simp
  · simp
  · cases (startSending_phase ..).symm.trans h

/-- Settles O36: a failed preparation keeps the frames and the position, which in Preparing are still empty. -/
theorem preparationFailures : Obligations.PreparationFailures := by
  intro s _ hp
  rw [exec_ctPrep_preparing hp]
  refine ⟨fun ha => ?noMemory, fun ha ⟨g, hg, hfails⟩ => ?noCompression,
    fun hinv => ⟨_, rfl, fun hfailed => ?empty⟩⟩
  case noMemory =>
    rw [prepareJob_without_memory ha]
    rfl
  case noCompression =>
    obtain ⟨cb, cbLen, wm, h⟩ := prepareJob_compressionFailure ha hg hfails
    refine ⟨(transform s).tb, cb, cbLen, wm, ?_⟩
    rw [h, transform_setPace]
    rfl
  case empty =>
    obtain ⟨hnframes, hcur, hsub, hframes⟩ := hinv.preparing_empty hp
    obtain ⟨hframes', hnframes', hcur', hsub'⟩ := prepareJob_failed_keeps hfailed
    exact ⟨hframes'.trans hframes, hnframes'.trans hnframes, hcur'.trans hcur, hsub'.trans hsub⟩

/-! ## A write that the transport refuses -/

theorem present_refused {s : State} (htx : s.env.txOk = false) (bytes : List Byte) :
    present bytes s = { s with tx := s.tx ++ [⟨bytes, false⟩] } := by
  rw [present, htx]

theorem writeSlice_refused {s : State} (htx : s.env.txOk = false) (bytes : List Byte) (count : Nat) :
    writeSlice bytes count s = fail .writeFailure (present bytes s) := if_neg (by simp [htx])

/-- Outside Sending no operation presents a slice (30_encoding.md R93, `onlyWritePresentsSlices`). -/
theorem exec_tx_of_not_sending {s t : State} {i : Instr} (hp : s.phase ≠ .sending) (h : exec i s = .next t) :
    t.tx = s.tx := by
  by_contra hne
  obtain ⟨-, hsending, -⟩ := onlyWritePresentsSlices s t i h hne
  exact hp hsending

/-- Settles O38: the slice is presented with the transport's answer and the job is Failed, where none is
presented. -/
theorem writeRefusedFails : Obligations.WriteRefusedFails := by
  intro s f hp hpace htx hf hmtu hsub
  have hslice := slice?_eq_some_iff.2 ⟨⟨hmtu, hsub⟩, rfl⟩
  refine ⟨_, exec_ctWrite_enabled hp hpace hf hslice, ?_, fun i u h => exec_tx_of_not_sending ?_ h⟩
  · rw [writeSlice_refused htx, present_refused htx]
    rfl
  · rw [writeSlice_refused htx, fail_phase]
    exact Phase.noConfusion

/-! ## A batch that nothing acknowledges -/

theorem repeatInstr_evTick (n : Nat) : ∀ s : State, repeatInstr .evTick n s = some (tick^[n] s) := by
  induction n with
  | zero => exact fun _ => rfl
  | succ n ih => exact fun s => ih (tick s)

/-- What a tick does not touch stays over any number of them (R243). -/
theorem iterate_tick_keeps {α : Type} {f : State → α} (hf : ∀ s, f (tick s) = f s) (n : Nat) (s : State) :
    f (tick^[n] s) = f s :=
  congrFun (Function.iterate_invariant (funext hf) n) s

/-- In AwaitingAck `ACK_TIMER` counts the ticks as long as it does not saturate (R243). -/
theorem iterate_tick_ackTimer {s : State} (hp : s.phase = .awaitingAck) {n : Nat}
    (hn : s.ackTimer.toNat + n ≤ 65535) : (tick^[n] s).ackTimer.toNat = s.ackTimer.toNat + n := by
  induction n with
  | zero => rfl
  | succ n ih =>
    have hphase : (tick^[n] s).phase = .awaitingAck := (iterate_tick_keeps tick_phase n s).trans hp
    rw [Function.iterate_succ_apply', tick_ackTimer, tickedAckTimer_toNat hphase, ih (by omega)]
    omega

/-- Settles O60: ticks move the timer alone, so the state they lead to meets the premises of R236's timeout
(`waitConsumesAckOrTimesOut`) or of its wait. -/
theorem unacknowledgedJobTimesOut : Obligations.UnacknowledgedJobTimesOut := by
  intro s n _ hp hack hn
  have hphase : (tick^[n] s).phase = .awaitingAck := (iterate_tick_keeps tick_phase n s).trans hp
  have hflag : (tick^[n] s).ackFlag = false := (iterate_tick_keeps tick_ackFlag n s).trans hack
  have hcfg : (tick^[n] s).cfg = s.cfg := iterate_tick_keeps tick_cfg n s
  have htimer := iterate_tick_ackTimer hp hn
  refine ⟨_, repeatInstr_evTick n s, hphase, htimer, fun hover => ?timedOut, fun hbefore => ?waits⟩
  case timedOut =>
    obtain ⟨-, -, htimeout⟩ := waitConsumesAckOrTimesOut.2 _ hphase
    exact ⟨_, _, htimeout hflag (by rwa [hcfg, htimer]), rfl, rfl, exec_stIsprint _, rfl⟩
  case waits => exact exec_ctWait_passes (.inr ⟨hflag, by rwa [hcfg, htimer]⟩)

end Sys2Proof.Machine

namespace Sys2Proof.Machine

/-! ## Reset -/

/-- `EV.RESET` is enabled in every state (70_reset_and_hazards.md R320). -/
theorem exec_evReset (s : State) : exec .evReset s = .next (resetCore s) := rfl

/-- What a memory of unspecified contents holds: a new draw and nothing written (log 7). -/
theorem Memory.forget_eq (m : Memory) : m.forget = ⟨m.era + 1, []⟩ := rfl

theorem WorkMemory.forget_eq (m : WorkMemory) : m.forget = ⟨m.era + 1, []⟩ := rfl

/-- Settles O43: reset completes with `resetCore s`, whose memories are the forgotten ones. -/
theorem resetClearsEveryRegister : Obligations.ResetClearsEveryRegister := by
  intro s
  rw [exec_evReset, resetCore]
  simp only [Memory.forget_eq, WorkMemory.forget_eq]

end Sys2Proof.Machine
